-- ==== Sys2Proof/Word.lean ====
section
/-! DEFINITION. The word types of ZQG-CORE. -/

namespace Sys2Proof

/-- The byte is 8 bits everywhere (10_state.md R33). -/
abbrev Byte := BitVec 8

/-- A u16 (00_scope.md R7). -/
abbrev U16 := BitVec 16

/-- A u32 (00_scope.md R7): CRC values and token fields. -/
abbrev U32 := BitVec 32

/-- A polynomial over GF(2) in a POLY_W = 64-bit register: bit i is the coefficient of x^i (00_scope.md R12,
10_state.md R28). -/
abbrev Poly := BitVec 64

end Sys2Proof
end

