-- ==== Sys2Proof/Config.lean ====
section
/-! DEFINITION. The constants of the format, the parameters an implementation fixes before the first command
(00_scope.md R6), and the free values. -/

namespace Sys2Proof.Config

/-- Repeat length bounds (00_scope.md R6). -/
def minLen : Nat := 3
def maxLen : Nat := 258

/-- Repeat distance bounds (00_scope.md R6). -/
def minDist : Nat := 1
def maxDist : Nat := 32768

/-- The largest LEN of a stored block (00_scope.md R6). -/
def maxStored : Nat := 65535

/-- The 33-bit CRC-32 generator, x^32 + ... + 1 (44_gf2_poly.md R180). -/
def G : Poly := 0x104C11DB7#64

/-- Its reflected form (43_crc32.md R170). -/
def reflected : U32 := 0xEDB88320#32

/-- Initial register value and final XOR value of CRC-32 (43_crc32.md R170). -/
def crcInit : U32 := 0xFFFFFFFF#32
def crcXorOut : U32 := 0xFFFFFFFF#32

/-- How FIVE_BYTE_REPEAT measures "exactly 5 bytes" (42_static_huffman_encoder.md R158). -/
inductive FiveByteRule where
  | ceil
  | exact40
deriving DecidableEq, Repr

/-- What CRC32_CONT takes and returns: finished CRCs, or raw register values (43_crc32.md R174). -/
inductive CrcContConvention where
  | finalised
  | raw
deriving DecidableEq, Repr

/-- The parameters of R6 that are not operands, "fixed before the first command" (70_reset_and_hazards.md R252). The
bounds ACC_W >= 32 and W >= 1 hold by construction: `accExtra` and `moreLanes` count what is above the least value. -/
structure Params where
  accExtra   : Nat := 0
  moreLanes  : Nat := 0
  tokOverlap : Bool := true
  fiveByte   : FiveByteRule := .ceil
  crcCont    : CrcContConvention := .finalised
deriving DecidableEq, Repr

/-- ACC_W, the width of ACC in bits (R6). -/
def Params.accW (p : Params) : Nat := 32 + p.accExtra

/-- W, the number of brute-force lanes (R6). -/
def Params.lanes (p : Params) : Nat := 1 + p.moreLanes

/-- FREE VALUE: what ACC holds after the n-th draw, a fault (60_exceptions.md R225; log 3). -/
opaque freeAcc : Nat → Nat

/-- FREE VALUE: what CNT holds after a fault (60_exceptions.md R225; log 3). -/
opaque freeCnt : Nat → BitVec 3

/-- FREE VALUE: which of the matching lanes writes RESULT (20_memory.md R66; log 6). -/
opaque freeLane : Nat → Nat

/-- FREE VALUE: what a field of INFO holds when the number to record does not fit it (60_exceptions.md R221; log 8). -/
opaque freeInfo : Nat → BitVec 64

end Sys2Proof.Config
end

