-- ==== Sys2Proof/Machine/Tables.lean ====
section
/-! DEFINITION. The ROM tables of the encoder (10_state.md R30): LEN_TABLE, DIST_TABLE, the fixed Huffman codes, and the
selection of a row. -/

namespace Sys2Proof.Machine

/-- A row of LEN_TABLE or DIST_TABLE: the smallest value its symbol stands for, and its extra-bit count. -/
structure SymbolRow where
  base  : Nat
  extra : Nat
deriving DecidableEq, Repr

/-- LEN_TABLE (30_encoding.md R94); row i is symbol 257 + i. -/
def lenTable : List SymbolRow :=
  [⟨3, 0⟩, ⟨4, 0⟩, ⟨5, 0⟩, ⟨6, 0⟩, ⟨7, 0⟩, ⟨8, 0⟩, ⟨9, 0⟩, ⟨10, 0⟩, ⟨11, 1⟩, ⟨13, 1⟩, ⟨15, 1⟩, ⟨17, 1⟩, ⟨19, 2⟩,
   ⟨23, 2⟩, ⟨27, 2⟩, ⟨31, 2⟩, ⟨35, 3⟩, ⟨43, 3⟩, ⟨51, 3⟩, ⟨59, 3⟩, ⟨67, 4⟩, ⟨83, 4⟩, ⟨99, 4⟩, ⟨115, 4⟩, ⟨131, 5⟩,
   ⟨163, 5⟩, ⟨195, 5⟩, ⟨227, 5⟩, ⟨258, 0⟩]

/-- DIST_TABLE (30_encoding.md R96); row j is symbol j. -/
def distTable : List SymbolRow :=
  [⟨1, 0⟩, ⟨2, 0⟩, ⟨3, 0⟩, ⟨4, 0⟩, ⟨5, 1⟩, ⟨7, 1⟩, ⟨9, 2⟩, ⟨13, 2⟩, ⟨17, 3⟩, ⟨25, 3⟩, ⟨33, 4⟩, ⟨49, 4⟩, ⟨65, 5⟩,
   ⟨97, 5⟩, ⟨129, 6⟩, ⟨193, 6⟩, ⟨257, 7⟩, ⟨385, 7⟩, ⟨513, 8⟩, ⟨769, 8⟩, ⟨1025, 9⟩, ⟨1537, 9⟩, ⟨2049, 10⟩,
   ⟨3073, 10⟩, ⟨4097, 11⟩, ⟨6145, 11⟩, ⟨8193, 12⟩, ⟨12289, 12⟩, ⟨16385, 13⟩, ⟨24577, 13⟩]

/-- Read of element k of a table (00_scope.md R11); every index used is in range (46_arith_control_system.md R213). -/
def tableRow (t : List SymbolRow) (k : Nat) : SymbolRow := t.getD k ⟨0, 0⟩

/-- Row selection (30_encoding.md R95, R97): the largest k whose base is at most the value. -/
def rowFor (t : List SymbolRow) (v : Nat) : Nat :=
  ((List.range t.length).filter fun k => decide ((tableRow t k).base ≤ v)).foldl max 0

/-- A Huffman code: a number whose most significant of `bits` bits is the first bit of the code. -/
structure Code where
  value : Nat
  bits  : Nat
deriving DecidableEq, Repr

/-- The fixed literal/length code of a symbol 256..287 (30_encoding.md R88). -/
def litLenCode (symbol : Nat) : Code :=
  if symbol ≤ 279 then ⟨symbol - 256, 7⟩ else ⟨0xC0 + (symbol - 280), 8⟩

/-- The fixed distance code of a symbol 0..29 (30_encoding.md R89). -/
def distCode (symbol : Nat) : Code := ⟨symbol, 5⟩

/-- The end-of-block symbol (30_encoding.md R86). -/
def eobSymbol : Nat := 256

/-- The symbol of LEN_TABLE's row i (30_encoding.md R95). -/
def lenSymbol (i : Nat) : Nat := 257 + i

end Sys2Proof.Machine
end

