-- ==== Sys2Proof/Syntax.lean ====
section
/-! DEFINITION. Tokens, operands, the instructions (one constructor per row of spec/opcode_table.json), the requests
the ports carry, and the names under which decoding rejects. -/

namespace Sys2Proof

/-- A token (30_encoding.md R82): a literal byte, or a copy of `length` bytes from `distance` bytes back. Both fields
are u32 and may hold values outside the legal ranges; the encoder then raises E_TOKEN_RANGE. -/
inductive Token where
  | lit (byte : Byte)
  | rep (distance length : U32)
deriving DecidableEq, Repr

/-- One file of SOLVE_SYSTEM (45_crc_solver.md R204): its bytes and its map from byte offset to fileId, as pairs
(offset, fileId). -/
structure FileSpec where
  data  : List Byte
  slots : List (Nat × Nat)
deriving DecidableEq, Repr

/-- The instructions. The first 18 are the commands of 30_encoding.md R80; the others are the elements of the emitted
DEFLATE stream (R84, R88, R94, R96), each carrying its extra-bits value where its row has extra bits. -/
inductive Instr where
  | reset
  | finish
  | rdacc
  | tokenize (input : List Byte) (window lookahead minMatch : Nat)
  | encStored (lits : List Byte) (isLast : Bool)
  | encStatic (toks : List Token) (isLast : Bool)
  | encode (toks : List Token)
  | fiveByteRepeat (tok : Token)
  | crc32 (input : List Byte)
  | crc32Cont (input : List Byte) (prior : U32)
  | mulraw (a b : Poly)
  | divmod (a b : Poly)
  | xgcd (a b : Poly)
  | minv (a : Poly)
  | divide (a b : Poly)
  | solveRank1 (data : List Byte) (offsets : List Nat)
  | solveSystem (files : List FileSpec)
  | bruteforce (data : List Byte) (offsets : List Nat)
  | hdrStoredNotlast
  | hdrStaticNotlast
  | hdrStoredLast
  | hdrStaticLast
  | eob
  | len257
  | len258
  | len259
  | len260
  | len261
  | len262
  | len263
  | len264
  | len265 (extra : BitVec 1)
  | len266 (extra : BitVec 1)
  | len267 (extra : BitVec 1)
  | len268 (extra : BitVec 1)
  | len269 (extra : BitVec 2)
  | len270 (extra : BitVec 2)
  | len271 (extra : BitVec 2)
  | len272 (extra : BitVec 2)
  | len273 (extra : BitVec 3)
  | len274 (extra : BitVec 3)
  | len275 (extra : BitVec 3)
  | len276 (extra : BitVec 3)
  | len277 (extra : BitVec 4)
  | len278 (extra : BitVec 4)
  | len279 (extra : BitVec 4)
  | len280 (extra : BitVec 4)
  | len281 (extra : BitVec 5)
  | len282 (extra : BitVec 5)
  | len283 (extra : BitVec 5)
  | len284 (extra : BitVec 5)
  | len285
  | dist0
  | dist1
  | dist2
  | dist3
  | dist4 (extra : BitVec 1)
  | dist5 (extra : BitVec 1)
  | dist6 (extra : BitVec 2)
  | dist7 (extra : BitVec 2)
  | dist8 (extra : BitVec 3)
  | dist9 (extra : BitVec 3)
  | dist10 (extra : BitVec 4)
  | dist11 (extra : BitVec 4)
  | dist12 (extra : BitVec 5)
  | dist13 (extra : BitVec 5)
  | dist14 (extra : BitVec 6)
  | dist15 (extra : BitVec 6)
  | dist16 (extra : BitVec 7)
  | dist17 (extra : BitVec 7)
  | dist18 (extra : BitVec 8)
  | dist19 (extra : BitVec 8)
  | dist20 (extra : BitVec 9)
  | dist21 (extra : BitVec 9)
  | dist22 (extra : BitVec 10)
  | dist23 (extra : BitVec 10)
  | dist24 (extra : BitVec 11)
  | dist25 (extra : BitVec 11)
  | dist26 (extra : BitVec 12)
  | dist27 (extra : BitVec 12)
  | dist28 (extra : BitVec 13)
  | dist29 (extra : BitVec 13)
deriving DecidableEq, Repr

/-- The operand record of a command (30_encoding.md R81): typed values passed whole, one field for each operand name of
R80. A command reads the fields R80 lists for it and no other. The values shown are those of an operand the host gives
none for: the defaults of 00_scope.md R6 for TOKENIZE's three parameters, and empty or zero elsewhere. -/
structure Operands where
  input     : List Byte := []
  window    : Nat := 32768
  lookahead : Nat := 258
  minMatch  : Nat := 3
  lits      : List Byte := []
  isLast    : Bool := false
  toks      : List Token := []
  tok       : Token := .rep 0 0
  prior     : U32 := 0
  a         : Poly := 0
  b         : Poly := 0
  data      : List Byte := []
  offsets   : List Nat := []
  files     : List FileSpec := []
deriving DecidableEq, Repr

/-- A command as the host issues it: an 8-bit opcode and its operands (30_encoding.md R81). -/
structure Command where
  op   : Byte
  args : Operands
deriving DecidableEq, Repr

/-- Which code a reader of the stream expects next (30_encoding.md R84, R101): a block header, a literal/length symbol
or a distance symbol. The three are separate codes. -/
inductive StreamContext where
  | header
  | litLen
  | dist
deriving DecidableEq, Repr

/-- What ENC or SOLV is asked to run: a command, or one element of the stream as its bits in stream order
(first bit first). Stream elements have no opcode; running one alone is the model's (log 1). -/
inductive Request where
  | command (c : Command)
  | element (ctx : StreamContext) (bits : List Bool)
deriving DecidableEq, Repr

/-- What arrives at an instance from outside: a request, or the power-on reset (70_reset_and_hazards.md R250). -/
inductive PortEvent where
  | request (r : Request)
  | powerOnReset
deriving DecidableEq, Repr

/-- Why a request is no instruction. -/
inductive Reject where
  /-- 30_encoding.md R104: the opcode is not listed in R80. -/
  | illegalCommand (op : Byte)
  /-- The bits end before the element does. -/
  | truncated
  /-- Bits are left over after the one element a request holds. -/
  | trailingBits
  /-- 30_encoding.md R105: BTYPE 10 or 11. -/
  | blockTypeNeverProduced
  /-- 30_encoding.md R105: a literal symbol 0..255. -/
  | literalSymbol
  /-- 30_encoding.md R105: literal/length symbol 286 or 287. -/
  | reservedLengthSymbol
  /-- 30_encoding.md R105: distance symbol 30 or 31. -/
  | reservedDistanceSymbol
  /-- 30_encoding.md R105: extra value 31 of symbol 284. -/
  | extraNeverProduced
deriving DecidableEq, Repr

end Sys2Proof
end

