-- ==== Sys2Proof/Decode.lean ====
section
/-! DEFINITION. The decoder, total on every request and rejecting by name, and after it the encoder. Commands are decoded
from their opcode (30_encoding.md R80), stream elements from their bits (R84, R88, R89, R94, R96, R101). -/

namespace Sys2Proof

open Sys2Proof.Machine

/-! ## Bit fields -/

/-- The first n bits read least significant first, and the rest (30_encoding.md R98). -/
def readLsb : Nat → List Bool → Option (Nat × List Bool)
  | 0, bs => some (0, bs)
  | _ + 1, [] => none
  | n + 1, b :: bs => (readLsb n bs).map fun (v, r) => (b.toNat + 2 * v, r)

/-- The first n bits read most significant first on top of `hi`, and the rest (30_encoding.md R98). -/
def readMsb : Nat → Nat → List Bool → Option (Nat × List Bool)
  | 0, hi, bs => some (hi, bs)
  | _ + 1, _, [] => none
  | n + 1, hi, b :: bs => readMsb n (2 * hi + b.toNat) bs

/-- The n low bits of v, least significant first. -/
def bitsLsb : Nat → Nat → List Bool
  | 0, _ => []
  | n + 1, v => v.testBit 0 :: bitsLsb n (v / 2)

/-- The n low bits of v, most significant first. -/
def bitsMsb : Nat → Nat → List Bool
  | 0, _ => []
  | n + 1, v => v.testBit n :: bitsMsb n v

/-! ## Operands that are sets and maps -/

/-- Insert into a strictly ascending list; a member stays once. -/
def insertOffset (x : Nat) : List Nat → List Nat
  | [] => [x]
  | y :: ys => if x < y then x :: y :: ys else if x = y then y :: ys else y :: insertOffset x ys

/-- The set a list of offsets denotes, in ascending order (log 10). -/
def canonSet (l : List Nat) : List Nat := l.foldr insertOffset []

/-- Insert a pair into a list with strictly ascending keys; a pair of the same key is replaced. -/
def insertSlot (p : Nat × Nat) : List (Nat × Nat) → List (Nat × Nat)
  | [] => [p]
  | q :: qs => if p.1 < q.1 then p :: q :: qs else if p.1 = q.1 then p :: qs else q :: insertSlot p qs

/-- The map a list of pairs denotes, in ascending order of offset; of two pairs with one offset the earlier stands
(log 10). -/
def canonMap (l : List (Nat × Nat)) : List (Nat × Nat) := l.foldr insertSlot []

/-- A file with its map in canonical form. -/
def canonFile (f : FileSpec) : FileSpec := { f with slots := canonMap f.slots }

/-! ## Commands -/

/-- Decode a command by its opcode (30_encoding.md R80); any other opcode is illegal (R104). -/
def decodeCommand (c : Command) : Except Reject Instr :=
  match c.op.toNat with
  | 0x00 => .ok .reset
  | 0x01 => .ok .finish
  | 0x02 => .ok .rdacc
  | 0x10 => .ok (.tokenize c.args.input c.args.window c.args.lookahead c.args.minMatch)
  | 0x20 => .ok (.encStored c.args.lits c.args.isLast)
  | 0x21 => .ok (.encStatic c.args.toks c.args.isLast)
  | 0x22 => .ok (.encode c.args.toks)
  | 0x23 => .ok (.fiveByteRepeat c.args.tok)
  | 0x30 => .ok (.crc32 c.args.input)
  | 0x31 => .ok (.crc32Cont c.args.input c.args.prior)
  | 0x40 => .ok (.mulraw c.args.a c.args.b)
  | 0x41 => .ok (.divmod c.args.a c.args.b)
  | 0x42 => .ok (.xgcd c.args.a c.args.b)
  | 0x43 => .ok (.minv c.args.a)
  | 0x44 => .ok (.divide c.args.a c.args.b)
  | 0x50 => .ok (.solveRank1 c.args.data (canonSet c.args.offsets))
  | 0x51 => .ok (.solveSystem (c.args.files.map canonFile))
  | 0x52 => .ok (.bruteforce c.args.data (canonSet c.args.offsets))
  | _ => .error (.illegalCommand c.op)

/-! ## Stream elements -/

/-- The length-symbol instruction of LEN_TABLE's row i with extra-bits value e. -/
def lengthInstr (i e : Nat) : Except Reject Instr :=
  match i with
  | 0 => .ok .len257
  | 1 => .ok .len258
  | 2 => .ok .len259
  | 3 => .ok .len260
  | 4 => .ok .len261
  | 5 => .ok .len262
  | 6 => .ok .len263
  | 7 => .ok .len264
  | 8 => .ok (.len265 (BitVec.ofNat 1 e))
  | 9 => .ok (.len266 (BitVec.ofNat 1 e))
  | 10 => .ok (.len267 (BitVec.ofNat 1 e))
  | 11 => .ok (.len268 (BitVec.ofNat 1 e))
  | 12 => .ok (.len269 (BitVec.ofNat 2 e))
  | 13 => .ok (.len270 (BitVec.ofNat 2 e))
  | 14 => .ok (.len271 (BitVec.ofNat 2 e))
  | 15 => .ok (.len272 (BitVec.ofNat 2 e))
  | 16 => .ok (.len273 (BitVec.ofNat 3 e))
  | 17 => .ok (.len274 (BitVec.ofNat 3 e))
  | 18 => .ok (.len275 (BitVec.ofNat 3 e))
  | 19 => .ok (.len276 (BitVec.ofNat 3 e))
  | 20 => .ok (.len277 (BitVec.ofNat 4 e))
  | 21 => .ok (.len278 (BitVec.ofNat 4 e))
  | 22 => .ok (.len279 (BitVec.ofNat 4 e))
  | 23 => .ok (.len280 (BitVec.ofNat 4 e))
  | 24 => .ok (.len281 (BitVec.ofNat 5 e))
  | 25 => .ok (.len282 (BitVec.ofNat 5 e))
  | 26 => .ok (.len283 (BitVec.ofNat 5 e))
  | 27 => if e = 31 then .error .extraNeverProduced else .ok (.len284 (BitVec.ofNat 5 e))
  | 28 => .ok .len285
  | _ => .error .reservedLengthSymbol

/-- The distance-symbol instruction of symbol j with extra-bits value e. -/
def distanceInstr (j e : Nat) : Except Reject Instr :=
  match j with
  | 0 => .ok .dist0
  | 1 => .ok .dist1
  | 2 => .ok .dist2
  | 3 => .ok .dist3
  | 4 => .ok (.dist4 (BitVec.ofNat 1 e))
  | 5 => .ok (.dist5 (BitVec.ofNat 1 e))
  | 6 => .ok (.dist6 (BitVec.ofNat 2 e))
  | 7 => .ok (.dist7 (BitVec.ofNat 2 e))
  | 8 => .ok (.dist8 (BitVec.ofNat 3 e))
  | 9 => .ok (.dist9 (BitVec.ofNat 3 e))
  | 10 => .ok (.dist10 (BitVec.ofNat 4 e))
  | 11 => .ok (.dist11 (BitVec.ofNat 4 e))
  | 12 => .ok (.dist12 (BitVec.ofNat 5 e))
  | 13 => .ok (.dist13 (BitVec.ofNat 5 e))
  | 14 => .ok (.dist14 (BitVec.ofNat 6 e))
  | 15 => .ok (.dist15 (BitVec.ofNat 6 e))
  | 16 => .ok (.dist16 (BitVec.ofNat 7 e))
  | 17 => .ok (.dist17 (BitVec.ofNat 7 e))
  | 18 => .ok (.dist18 (BitVec.ofNat 8 e))
  | 19 => .ok (.dist19 (BitVec.ofNat 8 e))
  | 20 => .ok (.dist20 (BitVec.ofNat 9 e))
  | 21 => .ok (.dist21 (BitVec.ofNat 9 e))
  | 22 => .ok (.dist22 (BitVec.ofNat 10 e))
  | 23 => .ok (.dist23 (BitVec.ofNat 10 e))
  | 24 => .ok (.dist24 (BitVec.ofNat 11 e))
  | 25 => .ok (.dist25 (BitVec.ofNat 11 e))
  | 26 => .ok (.dist26 (BitVec.ofNat 12 e))
  | 27 => .ok (.dist27 (BitVec.ofNat 12 e))
  | 28 => .ok (.dist28 (BitVec.ofNat 13 e))
  | 29 => .ok (.dist29 (BitVec.ofNat 13 e))
  | _ => .error .reservedDistanceSymbol

/-- Extra bits after a code, then the instruction `mk` makes of their value. -/
def withExtra (n : Nat) (mk : Nat → Except Reject Instr) (bs : List Bool) : Except Reject (Instr × List Bool) :=
  match readLsb n bs with
  | none => .error .truncated
  | some (e, rest) => (mk e).map fun i => (i, rest)

/-- A block header (30_encoding.md R84): BFINAL, then BTYPE least significant bit first. -/
def decodeHeader (bs : List Bool) : Except Reject (Instr × List Bool) :=
  match readLsb 3 bs with
  | none => .error .truncated
  | some (0, rest) => .ok (.hdrStoredNotlast, rest)
  | some (1, rest) => .ok (.hdrStoredLast, rest)
  | some (2, rest) => .ok (.hdrStaticNotlast, rest)
  | some (3, rest) => .ok (.hdrStaticLast, rest)
  | some _ => .error .blockTypeNeverProduced

/-- The element of a length symbol 257..285 whose code has been read; 286 and 287 are reserved (30_encoding.md R105). -/
def decodeLengthSymbol (symbol : Nat) (bs : List Bool) : Except Reject (Instr × List Bool) :=
  if 285 < symbol then .error .reservedLengthSymbol
  else withExtra (tableRow lenTable (symbol - 257)).extra (lengthInstr (symbol - 257)) bs

/-- A literal/length symbol (30_encoding.md R101): seven bits most significant first are a whole code when their value is
at most 0010111; otherwise an eighth is taken, and 11000000..11000111 are symbols 280..287. Every other code is a
literal's, never produced (R105). -/
def decodeLitLen (bs : List Bool) : Except Reject (Instr × List Bool) :=
  match readMsb 7 0 bs with
  | none => .error .truncated
  | some (v, rest) =>
    if v = 0 then .ok (.eob, rest)
    else if v ≤ 23 then decodeLengthSymbol (256 + v) rest
    else match readMsb 1 v rest with
      | none => .error .truncated
      | some (v8, rest8) =>
        if 0xC0 ≤ v8 ∧ v8 ≤ 0xC7 then decodeLengthSymbol (280 + (v8 - 0xC0)) rest8 else .error .literalSymbol

/-- A distance symbol (30_encoding.md R89, R96): five bits most significant first, then its extra bits. -/
def decodeDist (bs : List Bool) : Except Reject (Instr × List Bool) :=
  match readMsb 5 0 bs with
  | none => .error .truncated
  | some (j, rest) =>
    if 29 < j then .error .reservedDistanceSymbol
    else withExtra (tableRow distTable j).extra (distanceInstr j) rest

/-- The first element of a stream of bits, and the bits after it. -/
def decodeElement (ctx : StreamContext) (bs : List Bool) : Except Reject (Instr × List Bool) :=
  match ctx with
  | .header => decodeHeader bs
  | .litLen => decodeLitLen bs
  | .dist => decodeDist bs

/-- Decode a request: a command, or bits that are exactly one element. -/
def decode (r : Request) : Except Reject Instr :=
  match r with
  | .command c => decodeCommand c
  | .element ctx bs =>
    match decodeElement ctx bs with
    | .error e => .error e
    | .ok (i, []) => .ok i
    | .ok (_, _ :: _) => .error .trailingBits

/-! ## The encoder -/

/-- The bits of a code followed by n extra bits of value e, in stream order (30_encoding.md R90, R98). -/
def symbolBits (c : Code) (n e : Nat) : List Bool := bitsMsb c.bits c.value ++ bitsLsb n e

/-- The request of a length symbol: LEN_TABLE's row i with extra-bits value e. -/
def lengthRequest (i e : Nat) : Request :=
  .element .litLen (symbolBits (litLenCode (lenSymbol i)) (tableRow lenTable i).extra e)

/-- The request of a distance symbol j with extra-bits value e. -/
def distanceRequest (j e : Nat) : Request :=
  .element .dist (symbolBits (distCode j) (tableRow distTable j).extra e)

/-- The request of a block header: its value BFINAL + 2 * BTYPE put least significant bit first (30_encoding.md R84). -/
def headerRequest (isLast : Bool) (btype : Nat) : Request :=
  .element .header (bitsLsb 3 (isLast.toNat + 2 * btype))

/-- The request that stands for an instruction (30_encoding.md R80 for the opcodes, R84 to R97 for the elements). -/
def encode (i : Instr) : Request :=
  match i with
  | .reset => .command ⟨0x00, { }⟩
  | .finish => .command ⟨0x01, { }⟩
  | .rdacc => .command ⟨0x02, { }⟩
  | .tokenize input window lookahead minMatch =>
    .command ⟨0x10, { input := input, window := window, lookahead := lookahead, minMatch := minMatch }⟩
  | .encStored lits isLast => .command ⟨0x20, { lits := lits, isLast := isLast }⟩
  | .encStatic toks isLast => .command ⟨0x21, { toks := toks, isLast := isLast }⟩
  | .encode toks => .command ⟨0x22, { toks := toks }⟩
  | .fiveByteRepeat tok => .command ⟨0x23, { tok := tok }⟩
  | .crc32 input => .command ⟨0x30, { input := input }⟩
  | .crc32Cont input prior => .command ⟨0x31, { input := input, prior := prior }⟩
  | .mulraw a b => .command ⟨0x40, { a := a, b := b }⟩
  | .divmod a b => .command ⟨0x41, { a := a, b := b }⟩
  | .xgcd a b => .command ⟨0x42, { a := a, b := b }⟩
  | .minv a => .command ⟨0x43, { a := a }⟩
  | .divide a b => .command ⟨0x44, { a := a, b := b }⟩
  | .solveRank1 data offsets => .command ⟨0x50, { data := data, offsets := offsets }⟩
  | .solveSystem files => .command ⟨0x51, { files := files }⟩
  | .bruteforce data offsets => .command ⟨0x52, { data := data, offsets := offsets }⟩
  | .hdrStoredNotlast => headerRequest false 0
  | .hdrStaticNotlast => headerRequest false 1
  | .hdrStoredLast => headerRequest true 0
  | .hdrStaticLast => headerRequest true 1
  | .eob => .element .litLen (symbolBits (litLenCode eobSymbol) 0 0)
  | .len257 => lengthRequest 0 0
  | .len258 => lengthRequest 1 0
  | .len259 => lengthRequest 2 0
  | .len260 => lengthRequest 3 0
  | .len261 => lengthRequest 4 0
  | .len262 => lengthRequest 5 0
  | .len263 => lengthRequest 6 0
  | .len264 => lengthRequest 7 0
  | .len265 extra => lengthRequest 8 extra.toNat
  | .len266 extra => lengthRequest 9 extra.toNat
  | .len267 extra => lengthRequest 10 extra.toNat
  | .len268 extra => lengthRequest 11 extra.toNat
  | .len269 extra => lengthRequest 12 extra.toNat
  | .len270 extra => lengthRequest 13 extra.toNat
  | .len271 extra => lengthRequest 14 extra.toNat
  | .len272 extra => lengthRequest 15 extra.toNat
  | .len273 extra => lengthRequest 16 extra.toNat
  | .len274 extra => lengthRequest 17 extra.toNat
  | .len275 extra => lengthRequest 18 extra.toNat
  | .len276 extra => lengthRequest 19 extra.toNat
  | .len277 extra => lengthRequest 20 extra.toNat
  | .len278 extra => lengthRequest 21 extra.toNat
  | .len279 extra => lengthRequest 22 extra.toNat
  | .len280 extra => lengthRequest 23 extra.toNat
  | .len281 extra => lengthRequest 24 extra.toNat
  | .len282 extra => lengthRequest 25 extra.toNat
  | .len283 extra => lengthRequest 26 extra.toNat
  | .len284 extra => lengthRequest 27 extra.toNat
  | .len285 => lengthRequest 28 0
  | .dist0 => distanceRequest 0 0
  | .dist1 => distanceRequest 1 0
  | .dist2 => distanceRequest 2 0
  | .dist3 => distanceRequest 3 0
  | .dist4 extra => distanceRequest 4 extra.toNat
  | .dist5 extra => distanceRequest 5 extra.toNat
  | .dist6 extra => distanceRequest 6 extra.toNat
  | .dist7 extra => distanceRequest 7 extra.toNat
  | .dist8 extra => distanceRequest 8 extra.toNat
  | .dist9 extra => distanceRequest 9 extra.toNat
  | .dist10 extra => distanceRequest 10 extra.toNat
  | .dist11 extra => distanceRequest 11 extra.toNat
  | .dist12 extra => distanceRequest 12 extra.toNat
  | .dist13 extra => distanceRequest 13 extra.toNat
  | .dist14 extra => distanceRequest 14 extra.toNat
  | .dist15 extra => distanceRequest 15 extra.toNat
  | .dist16 extra => distanceRequest 16 extra.toNat
  | .dist17 extra => distanceRequest 17 extra.toNat
  | .dist18 extra => distanceRequest 18 extra.toNat
  | .dist19 extra => distanceRequest 19 extra.toNat
  | .dist20 extra => distanceRequest 20 extra.toNat
  | .dist21 extra => distanceRequest 21 extra.toNat
  | .dist22 extra => distanceRequest 22 extra.toNat
  | .dist23 extra => distanceRequest 23 extra.toNat
  | .dist24 extra => distanceRequest 24 extra.toNat
  | .dist25 extra => distanceRequest 25 extra.toNat
  | .dist26 extra => distanceRequest 26 extra.toNat
  | .dist27 extra => distanceRequest 27 extra.toNat
  | .dist28 extra => distanceRequest 28 extra.toNat
  | .dist29 extra => distanceRequest 29 extra.toNat

/-! ## The opcode table's words -/

/-- The element the bits of w begin with in context ctx, as a request of exactly its bits, if every later bit of w's
32 is 0. -/
def elementOfWord (ctx : StreamContext) (w : Nat) : Option Request :=
  match decodeElement ctx (bitsLsb 32 w) with
  | .error _ => none
  | .ok (_, rest) =>
    if rest.any id then none else some (.element ctx ((bitsLsb 32 w).take (32 - rest.length)))

/-- The request whose opcode-table word is w. The table's four formats share their words (log 7). A row of more than 8
bits is a distance symbol's, the only ones so wide; the others are tried in the table's order: command, block header,
literal/length symbol, distance symbol. A word of none of them is taken as a command's opcode. The operands of a command
are those of the empty record. -/
def requestOfWord (nbits w : Nat) : Request :=
  let cmd : Command := ⟨BitVec.ofNat 8 w, { }⟩
  let dist := elementOfWord .dist w
  if 8 < nbits ∧ dist.isSome then dist.getD (.command cmd)
  else if w < 256 ∧ (decodeCommand cmd).isOk then .command cmd
  else ((elementOfWord .header w).or ((elementOfWord .litLen w).or dist)).getD (.command cmd)

/-- The instruction the decoder reads from an opcode-table row's word. -/
def decodeTableWord (nbits w : Nat) : Option Instr := (decode (requestOfWord nbits w)).toOption

end Sys2Proof
end

