-- ==== Sys2Proof/Machine/ByteCodec.lean ====
section
/-! DEFINITION. The primitives of 40_bytecodec_bitwriter.md: little-endian bytes, bit reversal, and the BitWriter. -/

namespace Sys2Proof.Machine

/-- LE16 (R120). -/
def le16 (v : U16) : List Byte := [v.extractLsb' 0 8, v.extractLsb' 8 8]

/-- LE32 (R121). -/
def le32 (v : U32) : List Byte := [v.extractLsb' 0 8, v.extractLsb' 8 8, v.extractLsb' 16 8, v.extractLsb' 24 8]

/-- REV8 (R122). -/
def rev8 (v : Byte) : Byte := v.reverse

/-- REV32 (R123). -/
def rev32 (v : U32) : U32 := v.reverse

/-- REVN (R122): the reversal of an n-bit code within its n <= 8 bits, REV8(v) >> (8 - n). -/
def revN (v n : Nat) : Nat := (rev8 (BitVec.ofNat 8 v)).toNat >>> (8 - n)

/-- The BitWriter: ACC, CNT and the output of the running command. `width` is ACC_W; `cnt` may pass 7 inside PUTBITS
(10_state.md R23). -/
structure BitWriter where
  width : Nat
  acc   : Nat
  cnt   : Nat
  out   : List Byte
deriving DecidableEq, Repr

/-- One turn of PUTBITS' flush loop (R124): emit ACC[7:0], shift ACC right by 8, lower CNT by 8. -/
def BitWriter.flushByte (w : BitWriter) : BitWriter :=
  { w with out := w.out ++ [BitVec.ofNat 8 w.acc], acc := w.acc >>> 8, cnt := w.cnt - 8 }

/-- `k` turns of the flush loop. -/
def BitWriter.flushBytes : Nat → BitWriter → BitWriter
  | 0, w => w
  | k + 1, w => BitWriter.flushBytes k w.flushByte

/-- PUTBITS(v, n) (R124): the bits enter above the pending ones, within ACC's width; then "while CNT >= 8" runs CNT / 8
turns. -/
def BitWriter.putBits (v n : Nat) (w : BitWriter) : BitWriter :=
  BitWriter.flushBytes ((w.cnt + n) / 8)
    { w with acc := (w.acc ||| (v <<< w.cnt)) % 2 ^ w.width, cnt := w.cnt + n }

/-- PUTCODE(code, n) (R125). -/
def BitWriter.putCode (c : Code) (w : BitWriter) : BitWriter := w.putBits (revN c.value c.bits) c.bits

/-- ALIGN (R126). -/
def BitWriter.align (w : BitWriter) : BitWriter := if 0 < w.cnt then w.putBits 0 (8 - w.cnt) else w

/-- Append whole bytes on a byte boundary (42_static_huffman_encoder.md R151). -/
def BitWriter.append (bs : List Byte) (w : BitWriter) : BitWriter := { w with out := w.out ++ bs }

/-- An extra-bits field: absent when it has 0 bits (R152 of 42_static_huffman_encoder.md). -/
def BitWriter.putExtra (v n : Nat) (w : BitWriter) : BitWriter := if 0 < n then w.putBits v n else w

end Sys2Proof.Machine
end

