-- ==== Sys2Proof/Machine/State.lean ====
section
/-! DEFINITION. The state of one ZQG-CORE instance, what a command returns, and the ways a step can stop. -/

namespace Sys2Proof.Machine

/-- What a command returns to the host: the results column of 30_encoding.md R80, one form for each shape. -/
inductive Result where
  /-- FINISH, ENC_STORED, ENC_STATIC, ENCODE, FIVE_BYTE_REPEAT. -/
  | bytes (out : List Byte)
  /-- RDACC: the value of ACC and of CNT. -/
  | accumulator (acc : Nat) (cnt : BitVec 3)
  /-- TOKENIZE. -/
  | tokens (toks : List Token)
  /-- CRC32, CRC32_CONT. -/
  | crc (crc : U32)
  /-- MULRAW, MINV, DIVIDE. -/
  | poly (p : Poly)
  /-- DIVMOD. -/
  | quotRem (q r : Poly)
  /-- XGCD. -/
  | bezout (g s t : Poly)
  /-- SOLVE_RANK1. -/
  | solved (data : List Byte) (crc : U32)
  /-- SOLVE_SYSTEM. -/
  | crcs (crcs : List U32)
  /-- BRUTEFORCE. -/
  | searched (data : List Byte) (crc : U32) (found : Bool)
deriving DecidableEq, Repr

/-- Why the machine stops. Every fault the spec describes is taken instead (60_exceptions.md R224): it is a next state. -/
inductive Fault where
  /-- Raised by `step` alone, when the bits of a stream-element request are no row of the opcode table: the spec gives no
  such thing an effect (30_encoding.md R105 says the hardware never produces it). Safe: the hardware has no step here. -/
  | notAnElement (why : Reject)
deriving DecidableEq, Repr

/-- Why an instruction has no meaning. -/
inductive Refusal where
  /-- Raised by an arm of `exec` whose instruction has no meaning yet; no arm is left so. Safe. -/
  | notModelled (mnemonic : String)
deriving DecidableEq, Repr

/-- The state of one instance. ACC, CNT, STATUS, CAUSE and INFO are the whole of the spec's persistent state
(10_state.md R21); `params` is the configuration (70_reset_and_hazards.md R252); the last four fields are the model's. -/
structure State where
  /-- The parameters of 00_scope.md R6; no step changes them. -/
  params  : Config.Params
  /-- ACC (10_state.md R22), the value of a register of `params.accW` bits (log 4). -/
  acc     : Nat
  /-- CNT (10_state.md R23). -/
  cnt     : BitVec 3
  /-- STATUS (10_state.md R26). -/
  status  : BitVec 8
  /-- CAUSE (10_state.md R27). -/
  cause   : BitVec 8
  /-- INFO (10_state.md R27). -/
  info    : BitVec 64
  /-- The bytes emitted by stream elements run one by one (log 1). -/
  out     : List Byte
  /-- What the host has issued and the instance has not yet taken, oldest first (log 2). -/
  port    : List PortEvent
  /-- The result records returned so far, oldest first (log 2). -/
  results : List Result
  /-- How many free values have been drawn (log 3, log 6). -/
  draws   : Nat
deriving DecidableEq, Repr

/-- The state after power-on reset (10_state.md R36, 70_reset_and_hazards.md R250): ACC, CNT, STATUS, CAUSE and INFO are
0; the parameters have the defaults of 00_scope.md R6 (W, which has none, is 1: log 5); nothing issued, nothing returned. -/
def State.reset : State where
  params  := { }
  acc     := 0
  cnt     := 0
  status  := 0
  cause   := 0
  info    := 0
  out     := []
  port    := []
  results := []
  draws   := 0

end Sys2Proof.Machine
end

