-- ==== Sys2Proof/Machine/Flags.lean ====
section
/-! DEFINITION. The STATUS register's bits and the host's register reads. -/

namespace Sys2Proof.Machine

/-- STATUS bit masks (10_state.md R26). -/
def busyBit : BitVec 8 := 0x01#8
def faultBit : BitVec 8 := 0x02#8
def warnBit : BitVec 8 := 0x04#8
def foundBit : BitVec 8 := 0x08#8

/-- The bits of STATUS that are not reserved (R26: bits 7:4 read as 0). -/
def statusMask : BitVec 8 := 0x0F#8

/-- STATUS.BUSY. -/
def State.busy (s : State) : Bool := s.status.getLsbD 0

/-- STATUS.FAULT. -/
def State.faulted (s : State) : Bool := s.status.getLsbD 1

/-- STATUS.WARN. -/
def State.warned (s : State) : Bool := s.status.getLsbD 2

/-- STATUS.FOUND. -/
def State.found (s : State) : Bool := s.status.getLsbD 3

/-- Set the bits of a mask in STATUS. -/
def State.setStatus (mask : BitVec 8) (s : State) : State := { s with status := s.status ||| mask }

/-- Clear the bits of a mask in STATUS. -/
def State.clearStatus (mask : BitVec 8) (s : State) : State := { s with status := s.status &&& ~~~mask }

/-- The host's read of STATUS (46_arith_control_system.md R214): allowed at any time, no side effect; the reserved bits
read as 0. -/
def readStatus (s : State) : BitVec 8 := s.status &&& statusMask

/-- The host's read of CAUSE (R214). -/
def readCause (s : State) : BitVec 8 := s.cause

/-- The host's read of INFO (R214). -/
def readInfo (s : State) : BitVec 64 := s.info

end Sys2Proof.Machine
end

