-- ==== Sys2Proof/Machine/Ops.lean ====
section
/-! DEFINITION. The operations every meaning is written with: taking a fault, the warning, accepting or refusing a
command, returning a result, the accumulator, reset, and what the port holds. -/

namespace Sys2Proof.Machine

/-- The fatal faults (60_exceptions.md R221). -/
inductive Cause where
  | illegalCmd
  | badParam
  | tokenRange
  | literalInStatic
  | formatLimit
  | badOffset
  | polyOverflow
  | divZero
  | notInvertible
  | rankDeficient
deriving DecidableEq, Repr

/-- Their CAUSE codes (R221). -/
def Cause.code : Cause → BitVec 8
  | .illegalCmd => 0x01
  | .badParam => 0x02
  | .tokenRange => 0x03
  | .literalInStatic => 0x04
  | .formatLimit => 0x05
  | .badOffset => 0x06
  | .polyOverflow => 0x07
  | .divZero => 0x08
  | .notInvertible => 0x09
  | .rankDeficient => 0x0A

/-- What `raise` is given: the fault and the number for INFO. -/
structure Raise where
  cause : Cause
  info  : BitVec 64
deriving DecidableEq, Repr

/-- A number in an INFO field of w bits, zero-extended (R221); a free value when it does not fit (log 8). -/
def infoField (w v : Nat) : BitVec w := if v < 2 ^ w then BitVec.ofNat w v else (Config.freeInfo v).setWidth w

/-- INFO holding one number (R221). -/
def infoNat (v : Nat) : BitVec 64 := infoField 64 v

/-- INFO of E_BAD_OFFSET (R221): the offset in bits 47:0, the file's index in bits 63:48. -/
def infoOffset (file offset : Nat) : BitVec 64 := infoField 16 file ++ infoField 48 offset

/-- TAKING A FAULT: `raise` (60_exceptions.md R224). CAUSE and INFO are written, FAULT is set and BUSY cleared, nothing is
returned, and ACC and CNT are left undefined (R225: free values, log 3). Nothing is saved and control goes nowhere. -/
def raise (r : Raise) (s : State) : State :=
  { s with
    cause  := r.cause.code
    info   := r.info
    status := (s.status ||| faultBit) &&& ~~~busyBit
    acc    := Config.freeAcc s.draws % 2 ^ s.params.accW
    cnt    := Config.freeCnt s.draws
    draws  := s.draws + 1 }

/-- `warn` (R230): WARN is set; CAUSE and INFO are not written. -/
def warn (s : State) : State := s.setStatus warnBit

/-- The persistent registers at their reset values (40_bytecodec_bitwriter.md R127, 10_state.md R36): the RETURN FROM A
FAULT, since RESET is the only way out of the faulted state (60_exceptions.md R227). -/
def resetRegisters (s : State) : State := { s with acc := 0, cnt := 0, status := 0, cause := 0, info := 0 }

/-- Power-on reset (70_reset_and_hazards.md R250): the persistent registers as RESET leaves them, BUSY or not; what the
abandoned command had emitted is dropped. -/
def powerOnReset (s : State) : State := { resetRegisters s with out := [] }

/-- Return a result record to the host (20_memory.md R59: it appears when the command ends). -/
def respond (r : Result) (s : State) : State := { s with results := s.results ++ [r] }

/-- Run a command other than RESET, in the order of 60_exceptions.md R223: refused while BUSY (70_reset_and_hazards.md
R255) or in the faulted state (R226), with no result and no change; otherwise its body, or the fault the body raises. -/
def runCommand (s : State) (body : Except Raise State) : Host.Outcome State Fault Refusal :=
  if s.busy || s.faulted then .next s
  else match body with
    | .ok t => .next t
    | .error r => .next (raise r s)

/-- Run a command that only returns a value: "functions of their operands alone" (20_memory.md R59). -/
def runValue (s : State) (value : Except Raise Result) : Host.Outcome State Fault Refusal :=
  runCommand s (value.map fun r => respond r s)

/-- The accumulator as a BitWriter that appends to `out`. -/
def State.writer (s : State) (out : List Byte) : BitWriter := ⟨s.params.accW, s.acc, s.cnt.toNat, out⟩

/-- Keep a BitWriter's accumulator. -/
def State.storeAcc (w : BitWriter) (s : State) : State := { s with acc := w.acc, cnt := BitVec.ofNat 3 w.cnt }

/-- Run an encoder command: it starts from the carry, and returns exactly the bytes it emits
(42_static_huffman_encoder.md R150). -/
def runEncoder (s : State) (body : BitWriter → Except Raise BitWriter) : Host.Outcome State Fault Refusal :=
  runCommand s ((body (s.writer [])).map fun w => respond (.bytes w.out) (s.storeAcc w))

/-- Run one stream element: ENC puts its bits, and the bytes that fill go to `out` (40_bytecodec_bitwriter.md R124;
log 1). No element is put in the faulted state, because `raise` has ended the command that would put it (R224). DESIGN
CHOICE (log 1): BUSY is not tested, so an element requested alone runs while STATUS.BUSY = 1 too; R255 refuses commands
and leaves elements open, and inside an encoder command they are put while it runs. -/
def runElement (s : State) (put : BitWriter → BitWriter) : Host.Outcome State Fault Refusal :=
  if s.faulted then .next s
  else .next { s.storeAcc (put (s.writer s.out)) with out := (put (s.writer s.out)).out }

/-- A command whose opcode is not in the table (30_encoding.md R104): E_ILLEGAL_CMD with the opcode in INFO. -/
def runIllegal (op : Byte) (s : State) : Host.Outcome State Fault Refusal :=
  runCommand s (.error ⟨.illegalCmd, infoNat op.toNat⟩)

/-- The port's oldest entry, and the state without it. -/
def takePort (s : State) : Option (PortEvent × State) :=
  match s.port with
  | [] => none
  | e :: rest => some (e, { s with port := rest })

/-- The port with an opcode-table word's request as its oldest entry. -/
def issueWord (nbits w : Nat) (s : State) : State := { s with port := .request (requestOfWord nbits w) :: s.port }

end Sys2Proof.Machine
end

