-- ==== Sys2Proof/Machine/Operands.lean ====
section
/-! DEFINITION. The operand checks of the commands, in the order of 60_exceptions.md R223, and the slots of a buffer. -/

namespace Sys2Proof.Machine

/-- TOKENIZE's operand check (41_lz77_tokenizer.md R140): the first bound that fails, in the order window, lookahead,
minMatch. -/
def checkParams (window lookahead minMatch : Nat) : Option Raise :=
  if Config.maxDist < window then some ⟨.badParam, infoNat 1⟩
  else if Config.maxLen < lookahead then some ⟨.badParam, infoNat 2⟩
  else if minMatch < Config.minLen ∨ Config.maxLen < minMatch then some ⟨.badParam, infoNat 3⟩
  else none

/-- A Repeat's fields are in range (30_encoding.md R82), compared on all 32 bits (46_arith_control_system.md R210). -/
def legalRepeat (distance length : U32) : Bool :=
  decide (Config.minLen ≤ length.toNat) && decide (length.toNat ≤ Config.maxLen) &&
    decide (Config.minDist ≤ distance.toNat) && decide (distance.toNat ≤ Config.maxDist)

/-- The token check of ENC_STATIC (42_static_huffman_encoder.md R153), FIVE_BYTE_REPEAT (R158) and of a run of Repeats
in ENCODE (R156): ascending index from k; "is a Literal" before "is out of range" (60_exceptions.md R223). -/
def checkTokens : Nat → List Token → Option Raise
  | _, [] => none
  | k, .lit _ :: _ => some ⟨.literalInStatic, infoNat k⟩
  | k, .rep d l :: rest => if legalRepeat d l then checkTokens (k + 1) rest else some ⟨.tokenRange, infoNat k⟩

/-- The first offending offset of one buffer of n bytes (45_crc_solver.md R201, 60_exceptions.md R221): its slot runs
past the end, or it is less than 4 above the next lower offset `prev`, or its fileId is not below the number of files. -/
def firstBadSlot (n nFiles : Nat) : Option Nat → List (Nat × Nat) → Option Nat
  | _, [] => none
  | prev, (o, j) :: rest =>
    if n < o + 4 ∨ prev.any (fun p => decide (o < p + 4)) ∨ nFiles ≤ j then some o
    else firstBadSlot n nFiles (some o) rest

/-- The offset check of SOLVE_RANK1 and BRUTEFORCE (R201). -/
def checkOffsets (n : Nat) (offsets : List Nat) : Option Raise :=
  (firstBadSlot n 1 none (offsets.map fun o => (o, 0))).map fun o => ⟨.badOffset, infoOffset 0 o⟩

/-- The offset check of SOLVE_SYSTEM: files in list order, offsets ascending (R221). -/
def checkFiles (nFiles : Nat) : Nat → List FileSpec → Option Raise
  | _, [] => none
  | i, f :: rest =>
    match firstBadSlot f.data.length nFiles none f.slots with
    | some o => some ⟨.badOffset, infoOffset i o⟩
    | none => checkFiles nFiles (i + 1) rest

/-- Write bytes from index o on: MemWrite of 00_scope.md R11. -/
def writeBytes : List Byte → Nat → List Byte → List Byte
  | [], _, data => data
  | b :: bs, o, data => writeBytes bs (o + 1) (data.set o b)

/-- A buffer with LE32(c) at every slot (45_crc_solver.md R200, 20_memory.md R51). -/
def fillSlots (c : U32) (offsets : List Nat) (data : List Byte) : List Byte :=
  offsets.foldl (fun d o => writeBytes (le32 c) o d) data

/-- z: the buffer with every slot byte 0x00 (R200). -/
def zeroSlots (offsets : List Nat) (data : List Byte) : List Byte := fillSlots 0 offsets data

end Sys2Proof.Machine
end

