-- ==== Sys2Proof/Machine/Crc.lean ====
section
/-! DEFINITION. The CRC-32 unit (43_crc32.md). -/

namespace Sys2Proof.Machine

/-- One of the eight steps that generate a table entry (R171). -/
def crcStep (c : U32) : U32 := if c.getLsbD 0 then (c >>> 1) ^^^ Config.reflected else c >>> 1

/-- CRC_TABLE[i] (R171), a constant. -/
def crcTable (i : Byte) : U32 :=
  crcStep (crcStep (crcStep (crcStep (crcStep (crcStep (crcStep (crcStep (i.setWidth 32))))))))

/-- One byte of CRC_UPDATE (R172). -/
def crcByte (r : U32) (b : Byte) : U32 := crcTable ((r ^^^ b.setWidth 32).setWidth 8) ^^^ (r >>> 8)

/-- CRC_UPDATE(r, bytes) (R172). -/
def crcUpdate (r : U32) (bytes : List Byte) : U32 := bytes.foldl crcByte r

/-- CRC32 of a byte sequence (R173). -/
def crc32 (bytes : List Byte) : U32 := crcUpdate Config.crcInit bytes ^^^ Config.crcXorOut

/-- CRC32_CONT under either convention (R174). -/
def crc32Cont (conv : Config.CrcContConvention) (bytes : List Byte) (prior : U32) : U32 :=
  match conv with
  | .finalised => crcUpdate (prior ^^^ Config.crcXorOut) bytes ^^^ Config.crcXorOut
  | .raw => crcUpdate prior bytes

/-- CRC32 (R173). -/
def execCrc32 (input : List Byte) (s : State) : Host.Outcome State Fault Refusal := runValue s (.ok (.crc (crc32 input)))

/-- CRC32_CONT (R174). -/
def execCrc32Cont (input : List Byte) (prior : U32) (s : State) : Host.Outcome State Fault Refusal :=
  runValue s (.ok (.crc (crc32Cont s.params.crcCont input prior)))

end Sys2Proof.Machine
end

