-- ==== Sys2Proof/Machine/Encoder.lean ====
section
/-! DEFINITION. The static-Huffman encoder (42_static_huffman_encoder.md): ENC_STORED, ENC_STATIC, ENCODE,
FIVE_BYTE_REPEAT and the primitive EMIT_REPEAT. -/

namespace Sys2Proof.Machine

/-- The three header bits of a block (30_encoding.md R84): BFINAL, then BTYPE least significant bit first. -/
def BitWriter.putHeader (isLast : Bool) (btype : Nat) (w : BitWriter) : BitWriter :=
  (w.putBits isLast.toNat 1).putBits btype 2

/-- The end-of-block code, symbol 256 (30_encoding.md R86). -/
def BitWriter.putEob (w : BitWriter) : BitWriter := w.putCode (litLenCode eobSymbol)

/-- A length symbol: the code of LEN_TABLE's row i, then its extra bits (R152). -/
def BitWriter.putLength (i extra : Nat) (w : BitWriter) : BitWriter :=
  (w.putCode (litLenCode (lenSymbol i))).putExtra extra (tableRow lenTable i).extra

/-- A distance symbol: the code of symbol j, then its extra bits (R152). -/
def BitWriter.putDistance (j extra : Nat) (w : BitWriter) : BitWriter :=
  (w.putCode (distCode j)).putExtra extra (tableRow distTable j).extra

/-- EMIT_REPEAT(distance, length) (R152), its operands checked already. -/
def BitWriter.emitRepeat (distance length : Nat) (w : BitWriter) : BitWriter :=
  let i := rowFor lenTable length
  let j := rowFor distTable distance
  (w.putLength i (length - (tableRow lenTable i).base)).putDistance j (distance - (tableRow distTable j).base)

/-- tokbits(distance, length) (R152): the number of bits EMIT_REPEAT puts. -/
def tokBits (distance length : Nat) : Nat :=
  let i := rowFor lenTable length
  let j := rowFor distTable distance
  (litLenCode (lenSymbol i)).bits + (tableRow lenTable i).extra + (distCode j).bits + (tableRow distTable j).extra

/-- One token of a static block; a Literal never reaches it (R153). -/
def BitWriter.putToken (t : Token) (w : BitWriter) : BitWriter :=
  match t with
  | .lit _ => w
  | .rep d l => w.emitRepeat d.toNat l.toNat

/-- The bits of a static block (R153), its tokens checked already. -/
def BitWriter.putStaticBlock (toks : List Token) (isLast : Bool) (w : BitWriter) : BitWriter :=
  let body := (toks.foldl (fun w t => w.putToken t) (w.putHeader isLast 1)).putEob
  if isLast then body.align else body

/-- ENC_STORED's body (R151). -/
def storedBlock (lits : List Byte) (isLast : Bool) (w : BitWriter) : Except Raise BitWriter :=
  let n := lits.length
  if Config.maxStored < n then .error ⟨.formatLimit, infoNat n⟩
  else
    .ok ((w.putHeader isLast 0).align.append
      (le16 (BitVec.ofNat 16 n) ++ le16 (~~~BitVec.ofNat 16 n) ++ lits))

/-- ENC_STATIC's body (R153); `first` is the index of its first token in the command's own operand. -/
def staticBlock (first : Nat) (toks : List Token) (isLast : Bool) (w : BitWriter) : Except Raise BitWriter :=
  match checkTokens first toks with
  | some r => .error r
  | none => .ok (w.putStaticBlock toks isLast)

/-- ENC_STORED (R151). -/
def execEncStored (lits : List Byte) (isLast : Bool) (s : State) : Host.Outcome State Fault Refusal :=
  runEncoder s (storedBlock lits isLast)

/-- ENC_STATIC (R153). -/
def execEncStatic (toks : List Token) (isLast : Bool) (s : State) : Host.Outcome State Fault Refusal :=
  runEncoder s (staticBlock 0 toks isLast)

/-- The token is a Literal. -/
def Token.isLit : Token → Bool
  | .lit _ => true
  | .rep _ _ => false

/-- A Literal's byte. -/
def Token.byteOf : Token → Byte
  | .lit b => b
  | .rep _ _ => 0

/-- ENCODE's dispatch loop (R156) from token index `ti` on: one block per maximal run, isLast on the run that ends the
tokens. Each turn consumes at least one token, so as many turns as tokens are enough. -/
def encodeRuns : Nat → Nat → List Token → BitWriter → Except Raise BitWriter
  | 0, _, _, w => .ok w
  | _ + 1, _, [], w => .ok w
  | fuel + 1, ti, t :: rest, w =>
    let run := (t :: rest).takeWhile fun u => Token.isLit u == Token.isLit t
    let after := (t :: rest).dropWhile fun u => Token.isLit u == Token.isLit t
    let block :=
      if Token.isLit t then storedBlock (run.map Token.byteOf) after.isEmpty w
      else staticBlock ti run after.isEmpty w
    match block with
    | .error r => .error r
    | .ok w' => encodeRuns fuel (ti + run.length) after w'

/-- ENCODE (R156). With no tokens it returns no bytes and leaves (ACC, CNT) as they are. -/
def execEncode (toks : List Token) (s : State) : Host.Outcome State Fault Refusal :=
  runEncoder s (encodeRuns toks.length 0 toks)

/-- FITS5 (R158). -/
def fitsFive (rule : Config.FiveByteRule) (bits : Nat) : Bool :=
  match rule with
  | .ceil => decide (33 ≤ bits) && decide (bits ≤ 40)
  | .exact40 => decide (bits = 40)

/-- The first split length a = 3, 4, ..., L - 3 whose pair fits five bytes (R158). -/
def fiveByteSplit (rule : Config.FiveByteRule) (d l : Nat) : Option Nat :=
  (List.range' 3 (l - 5)).find? fun a => fitsFive rule (3 + tokBits d a + tokBits d (l - a) + 7)

/-- The bytes of the split pair: a static block from an empty scratch accumulator, then FINISH (R158). -/
def fiveByteBlock (width : Nat) (d : U32) (l a : Nat) : List Byte :=
  ((BitWriter.mk width 0 0 []).putStaticBlock
    [.rep d (BitVec.ofNat 32 a), .rep d (BitVec.ofNat 32 (l - a))] false).align.out

/-- The result of FIVE_BYTE_REPEAT on a Repeat in range: five bytes, or none when no split fits (R158). -/
def fiveByteResult (p : Config.Params) (d l : U32) : List Byte :=
  match fiveByteSplit p.fiveByte d.toNat l.toNat with
  | some a => fiveByteBlock p.accW d l.toNat a
  | none => []

/-- FIVE_BYTE_REPEAT (R158). It neither reads nor writes ACC and CNT. -/
def execFiveByteRepeat (tok : Token) (s : State) : Host.Outcome State Fault Refusal :=
  runValue s <|
    match checkTokens 0 [tok], tok with
    | some r, _ => .error r
    | none, .rep d l => .ok (.bytes (fiveByteResult s.params d l))
    | none, .lit _ => .ok (.bytes [])

end Sys2Proof.Machine
end

