-- ==== Sys2Proof/Machine/Elements.lean ====
section
/-! DEFINITION. The elements of the emitted DEFLATE stream, one meaning for each row of spec/opcode_table.json that has
no opcode: what ENC puts into the accumulator and the output for it (30_encoding.md R84, R88, R90, R94, R96, R98;
42_static_huffman_encoder.md R151 to R153). Log 1 says how one comes to run alone. -/

namespace Sys2Proof.Machine

/-- HDR_STORED_NOTLAST (30_encoding.md R84): BFINAL 0, BTYPE 00. -/
def execHdrStoredNotlast (s : State) : Host.Outcome State Fault Refusal := runElement s (BitWriter.putHeader false 0)

/-- HDR_STATIC_NOTLAST (R84): BFINAL 0, BTYPE 01. -/
def execHdrStaticNotlast (s : State) : Host.Outcome State Fault Refusal := runElement s (BitWriter.putHeader false 1)

/-- HDR_STORED_LAST (R84): BFINAL 1, BTYPE 00. -/
def execHdrStoredLast (s : State) : Host.Outcome State Fault Refusal := runElement s (BitWriter.putHeader true 0)

/-- HDR_STATIC_LAST (R84): BFINAL 1, BTYPE 01. -/
def execHdrStaticLast (s : State) : Host.Outcome State Fault Refusal := runElement s (BitWriter.putHeader true 1)

/-- EOB (R86, R88): seven zero bits. -/
def execEob (s : State) : Host.Outcome State Fault Refusal := runElement s BitWriter.putEob

/-- LEN_257 (R94): length 3. -/
def execLen257 (s : State) : Host.Outcome State Fault Refusal := runElement s (BitWriter.putLength 0 0)

/-- LEN_258 (R94): length 4. -/
def execLen258 (s : State) : Host.Outcome State Fault Refusal := runElement s (BitWriter.putLength 1 0)

/-- LEN_259 (R94): length 5. -/
def execLen259 (s : State) : Host.Outcome State Fault Refusal := runElement s (BitWriter.putLength 2 0)

/-- LEN_260 (R94): length 6. -/
def execLen260 (s : State) : Host.Outcome State Fault Refusal := runElement s (BitWriter.putLength 3 0)

/-- LEN_261 (R94): length 7. -/
def execLen261 (s : State) : Host.Outcome State Fault Refusal := runElement s (BitWriter.putLength 4 0)

/-- LEN_262 (R94): length 8. -/
def execLen262 (s : State) : Host.Outcome State Fault Refusal := runElement s (BitWriter.putLength 5 0)

/-- LEN_263 (R94): length 9. -/
def execLen263 (s : State) : Host.Outcome State Fault Refusal := runElement s (BitWriter.putLength 6 0)

/-- LEN_264 (R94): length 10. -/
def execLen264 (s : State) : Host.Outcome State Fault Refusal := runElement s (BitWriter.putLength 7 0)

/-- LEN_265 (R94): lengths 11..12, 1 extra bit. -/
def execLen265 (extra : BitVec 1) (s : State) : Host.Outcome State Fault Refusal :=
  runElement s (BitWriter.putLength 8 extra.toNat)

/-- LEN_266 (R94): lengths 13..14, 1 extra bit. -/
def execLen266 (extra : BitVec 1) (s : State) : Host.Outcome State Fault Refusal :=
  runElement s (BitWriter.putLength 9 extra.toNat)

/-- LEN_267 (R94): lengths 15..16, 1 extra bit. -/
def execLen267 (extra : BitVec 1) (s : State) : Host.Outcome State Fault Refusal :=
  runElement s (BitWriter.putLength 10 extra.toNat)

/-- LEN_268 (R94): lengths 17..18, 1 extra bit. -/
def execLen268 (extra : BitVec 1) (s : State) : Host.Outcome State Fault Refusal :=
  runElement s (BitWriter.putLength 11 extra.toNat)

/-- LEN_269 (R94): lengths 19..22, 2 extra bits. -/
def execLen269 (extra : BitVec 2) (s : State) : Host.Outcome State Fault Refusal :=
  runElement s (BitWriter.putLength 12 extra.toNat)

/-- LEN_270 (R94): lengths 23..26, 2 extra bits. -/
def execLen270 (extra : BitVec 2) (s : State) : Host.Outcome State Fault Refusal :=
  runElement s (BitWriter.putLength 13 extra.toNat)

/-- LEN_271 (R94): lengths 27..30, 2 extra bits. -/
def execLen271 (extra : BitVec 2) (s : State) : Host.Outcome State Fault Refusal :=
  runElement s (BitWriter.putLength 14 extra.toNat)

/-- LEN_272 (R94): lengths 31..34, 2 extra bits. -/
def execLen272 (extra : BitVec 2) (s : State) : Host.Outcome State Fault Refusal :=
  runElement s (BitWriter.putLength 15 extra.toNat)

/-- LEN_273 (R94): lengths 35..42, 3 extra bits. -/
def execLen273 (extra : BitVec 3) (s : State) : Host.Outcome State Fault Refusal :=
  runElement s (BitWriter.putLength 16 extra.toNat)

/-- LEN_274 (R94): lengths 43..50, 3 extra bits. -/
def execLen274 (extra : BitVec 3) (s : State) : Host.Outcome State Fault Refusal :=
  runElement s (BitWriter.putLength 17 extra.toNat)

/-- LEN_275 (R94): lengths 51..58, 3 extra bits. -/
def execLen275 (extra : BitVec 3) (s : State) : Host.Outcome State Fault Refusal :=
  runElement s (BitWriter.putLength 18 extra.toNat)

/-- LEN_276 (R94): lengths 59..66, 3 extra bits. -/
def execLen276 (extra : BitVec 3) (s : State) : Host.Outcome State Fault Refusal :=
  runElement s (BitWriter.putLength 19 extra.toNat)

/-- LEN_277 (R94): lengths 67..82, 4 extra bits. -/
def execLen277 (extra : BitVec 4) (s : State) : Host.Outcome State Fault Refusal :=
  runElement s (BitWriter.putLength 20 extra.toNat)

/-- LEN_278 (R94): lengths 83..98, 4 extra bits. -/
def execLen278 (extra : BitVec 4) (s : State) : Host.Outcome State Fault Refusal :=
  runElement s (BitWriter.putLength 21 extra.toNat)

/-- LEN_279 (R94): lengths 99..114, 4 extra bits. -/
def execLen279 (extra : BitVec 4) (s : State) : Host.Outcome State Fault Refusal :=
  runElement s (BitWriter.putLength 22 extra.toNat)

/-- LEN_280 (R94): lengths 115..130, 4 extra bits. -/
def execLen280 (extra : BitVec 4) (s : State) : Host.Outcome State Fault Refusal :=
  runElement s (BitWriter.putLength 23 extra.toNat)

/-- LEN_281 (R94): lengths 131..162, 5 extra bits. -/
def execLen281 (extra : BitVec 5) (s : State) : Host.Outcome State Fault Refusal :=
  runElement s (BitWriter.putLength 24 extra.toNat)

/-- LEN_282 (R94): lengths 163..194, 5 extra bits. -/
def execLen282 (extra : BitVec 5) (s : State) : Host.Outcome State Fault Refusal :=
  runElement s (BitWriter.putLength 25 extra.toNat)

/-- LEN_283 (R94): lengths 195..226, 5 extra bits. -/
def execLen283 (extra : BitVec 5) (s : State) : Host.Outcome State Fault Refusal :=
  runElement s (BitWriter.putLength 26 extra.toNat)

/-- LEN_284 (R94): lengths 227..257, 5 extra bits. -/
def execLen284 (extra : BitVec 5) (s : State) : Host.Outcome State Fault Refusal :=
  runElement s (BitWriter.putLength 27 extra.toNat)

/-- LEN_285 (R94): length 258. -/
def execLen285 (s : State) : Host.Outcome State Fault Refusal := runElement s (BitWriter.putLength 28 0)

/-- DIST_0 (R96): distance 1. -/
def execDist0 (s : State) : Host.Outcome State Fault Refusal := runElement s (BitWriter.putDistance 0 0)

/-- DIST_1 (R96): distance 2. -/
def execDist1 (s : State) : Host.Outcome State Fault Refusal := runElement s (BitWriter.putDistance 1 0)

/-- DIST_2 (R96): distance 3. -/
def execDist2 (s : State) : Host.Outcome State Fault Refusal := runElement s (BitWriter.putDistance 2 0)

/-- DIST_3 (R96): distance 4. -/
def execDist3 (s : State) : Host.Outcome State Fault Refusal := runElement s (BitWriter.putDistance 3 0)

/-- DIST_4 (R96): distances 5..6, 1 extra bit. -/
def execDist4 (extra : BitVec 1) (s : State) : Host.Outcome State Fault Refusal :=
  runElement s (BitWriter.putDistance 4 extra.toNat)

/-- DIST_5 (R96): distances 7..8, 1 extra bit. -/
def execDist5 (extra : BitVec 1) (s : State) : Host.Outcome State Fault Refusal :=
  runElement s (BitWriter.putDistance 5 extra.toNat)

/-- DIST_6 (R96): distances 9..12, 2 extra bits. -/
def execDist6 (extra : BitVec 2) (s : State) : Host.Outcome State Fault Refusal :=
  runElement s (BitWriter.putDistance 6 extra.toNat)

/-- DIST_7 (R96): distances 13..16, 2 extra bits. -/
def execDist7 (extra : BitVec 2) (s : State) : Host.Outcome State Fault Refusal :=
  runElement s (BitWriter.putDistance 7 extra.toNat)

/-- DIST_8 (R96): distances 17..24, 3 extra bits. -/
def execDist8 (extra : BitVec 3) (s : State) : Host.Outcome State Fault Refusal :=
  runElement s (BitWriter.putDistance 8 extra.toNat)

/-- DIST_9 (R96): distances 25..32, 3 extra bits. -/
def execDist9 (extra : BitVec 3) (s : State) : Host.Outcome State Fault Refusal :=
  runElement s (BitWriter.putDistance 9 extra.toNat)

/-- DIST_10 (R96): distances 33..48, 4 extra bits. -/
def execDist10 (extra : BitVec 4) (s : State) : Host.Outcome State Fault Refusal :=
  runElement s (BitWriter.putDistance 10 extra.toNat)

/-- DIST_11 (R96): distances 49..64, 4 extra bits. -/
def execDist11 (extra : BitVec 4) (s : State) : Host.Outcome State Fault Refusal :=
  runElement s (BitWriter.putDistance 11 extra.toNat)

/-- DIST_12 (R96): distances 65..96, 5 extra bits. -/
def execDist12 (extra : BitVec 5) (s : State) : Host.Outcome State Fault Refusal :=
  runElement s (BitWriter.putDistance 12 extra.toNat)

/-- DIST_13 (R96): distances 97..128, 5 extra bits. -/
def execDist13 (extra : BitVec 5) (s : State) : Host.Outcome State Fault Refusal :=
  runElement s (BitWriter.putDistance 13 extra.toNat)

/-- DIST_14 (R96): distances 129..192, 6 extra bits. -/
def execDist14 (extra : BitVec 6) (s : State) : Host.Outcome State Fault Refusal :=
  runElement s (BitWriter.putDistance 14 extra.toNat)

/-- DIST_15 (R96): distances 193..256, 6 extra bits. -/
def execDist15 (extra : BitVec 6) (s : State) : Host.Outcome State Fault Refusal :=
  runElement s (BitWriter.putDistance 15 extra.toNat)

/-- DIST_16 (R96): distances 257..384, 7 extra bits. -/
def execDist16 (extra : BitVec 7) (s : State) : Host.Outcome State Fault Refusal :=
  runElement s (BitWriter.putDistance 16 extra.toNat)

/-- DIST_17 (R96): distances 385..512, 7 extra bits. -/
def execDist17 (extra : BitVec 7) (s : State) : Host.Outcome State Fault Refusal :=
  runElement s (BitWriter.putDistance 17 extra.toNat)

/-- DIST_18 (R96): distances 513..768, 8 extra bits. -/
def execDist18 (extra : BitVec 8) (s : State) : Host.Outcome State Fault Refusal :=
  runElement s (BitWriter.putDistance 18 extra.toNat)

/-- DIST_19 (R96): distances 769..1024, 8 extra bits. -/
def execDist19 (extra : BitVec 8) (s : State) : Host.Outcome State Fault Refusal :=
  runElement s (BitWriter.putDistance 19 extra.toNat)

/-- DIST_20 (R96): distances 1025..1536, 9 extra bits. -/
def execDist20 (extra : BitVec 9) (s : State) : Host.Outcome State Fault Refusal :=
  runElement s (BitWriter.putDistance 20 extra.toNat)

/-- DIST_21 (R96): distances 1537..2048, 9 extra bits. -/
def execDist21 (extra : BitVec 9) (s : State) : Host.Outcome State Fault Refusal :=
  runElement s (BitWriter.putDistance 21 extra.toNat)

/-- DIST_22 (R96): distances 2049..3072, 10 extra bits. -/
def execDist22 (extra : BitVec 10) (s : State) : Host.Outcome State Fault Refusal :=
  runElement s (BitWriter.putDistance 22 extra.toNat)

/-- DIST_23 (R96): distances 3073..4096, 10 extra bits. -/
def execDist23 (extra : BitVec 10) (s : State) : Host.Outcome State Fault Refusal :=
  runElement s (BitWriter.putDistance 23 extra.toNat)

/-- DIST_24 (R96): distances 4097..6144, 11 extra bits. -/
def execDist24 (extra : BitVec 11) (s : State) : Host.Outcome State Fault Refusal :=
  runElement s (BitWriter.putDistance 24 extra.toNat)

/-- DIST_25 (R96): distances 6145..8192, 11 extra bits. -/
def execDist25 (extra : BitVec 11) (s : State) : Host.Outcome State Fault Refusal :=
  runElement s (BitWriter.putDistance 25 extra.toNat)

/-- DIST_26 (R96): distances 8193..12288, 12 extra bits. -/
def execDist26 (extra : BitVec 12) (s : State) : Host.Outcome State Fault Refusal :=
  runElement s (BitWriter.putDistance 26 extra.toNat)

/-- DIST_27 (R96): distances 12289..16384, 12 extra bits. -/
def execDist27 (extra : BitVec 12) (s : State) : Host.Outcome State Fault Refusal :=
  runElement s (BitWriter.putDistance 27 extra.toNat)

/-- DIST_28 (R96): distances 16385..24576, 13 extra bits. -/
def execDist28 (extra : BitVec 13) (s : State) : Host.Outcome State Fault Refusal :=
  runElement s (BitWriter.putDistance 28 extra.toNat)

/-- DIST_29 (R96): distances 24577..32768, 13 extra bits. -/
def execDist29 (extra : BitVec 13) (s : State) : Host.Outcome State Fault Refusal :=
  runElement s (BitWriter.putDistance 29 extra.toNat)

end Sys2Proof.Machine
end

