-- ==== Sys2Proof/Machine/Housekeeping.lean ====
section
/-! DEFINITION. RESET, FINISH and RDACC (40_bytecodec_bitwriter.md R127 to R129). -/

namespace Sys2Proof.Machine

/-- RESET (R127): accepted in the faulted state (60_exceptions.md R226), refused only while BUSY
(70_reset_and_hazards.md R250, R255). It returns nothing and discards any carry. -/
def execReset (s : State) : Host.Outcome State Fault Refusal :=
  if s.busy then .next s else .next (resetRegisters s)

/-- FINISH (R128): ALIGN, returning 0 or 1 byte. -/
def execFinish (s : State) : Host.Outcome State Fault Refusal := runEncoder s fun w => .ok w.align

/-- RDACC (R129): returns (ACC, CNT) and changes nothing. -/
def execRdacc (s : State) : Host.Outcome State Fault Refusal := runValue s (.ok (.accumulator s.acc s.cnt))

end Sys2Proof.Machine
end

