-- ==== Sys2Proof/Machine/Polynomial.lean ====
section
/-! DEFINITION. The GF(2) polynomial unit (44_gf2_poly.md). -/

namespace Sys2Proof.Machine

/-- deg(a), the index of the highest set bit (00_scope.md R11); every use tests a = 0 first. -/
def deg (a : Poly) : Nat := a.toNat.log2

/-- The carry-less product in 64 bits: the loop of R181. -/
def clmul (a b : Poly) : Poly :=
  (List.range 64).foldl (fun p i => if b.getLsbD i then p ^^^ (a <<< i) else p) 0

/-- `multiplyRaw` (R181): E_POLY_OVERFLOW when the true product needs a coefficient above x^63. -/
def multiplyRaw (a b : Poly) : Except Raise Poly :=
  if a ≠ 0 ∧ b ≠ 0 ∧ 63 < deg a + deg b then .error ⟨.polyOverflow, infoNat (deg a + deg b)⟩ else .ok (clmul a b)

/-- The division loop of R182; deg(r) strictly falls, so 64 turns are enough. -/
def divLoop (b : Poly) : Nat → Poly → Poly → Poly × Poly
  | 0, q, r => (q, r)
  | fuel + 1, q, r =>
    if r ≠ 0 ∧ deg b ≤ deg r then divLoop b fuel (q ^^^ ((1 : Poly) <<< (deg r - deg b))) (r ^^^ (b <<< (deg r - deg b)))
    else (q, r)

/-- Quotient and remainder by a non-zero divisor (R182). -/
def divPair (a b : Poly) : Poly × Poly := divLoop b 64 0 a

/-- `divmod` (R182). -/
def divideRaw (a b : Poly) : Except Raise (Poly × Poly) :=
  if b = 0 then .error ⟨.divZero, 0⟩ else .ok (divPair a b)

/-- The recursion of `xgcd` (R183). The second operand's degree strictly falls, so it is 0 after at most 64 calls. -/
def xgcdRec : Nat → Poly → Poly → Poly × Poly × Poly
  | 0, a, _ => (a, 1, 0)
  | fuel + 1, a, b =>
    if b = 0 then (a, 1, 0)
    else
      let qr := divPair a b
      let gst := xgcdRec fuel b qr.2
      (gst.1, gst.2.2, gst.2.1 ^^^ clmul qr.1 gst.2.2)

/-- `xgcd` (R183): (g, s, t). -/
def extendedGcd (a b : Poly) : Poly × Poly × Poly := xgcdRec 64 a b

/-- a mod G. -/
def modG (a : Poly) : Poly := (divPair a Config.G).2

/-- MULMOD(a, b) (R184). -/
def mulMod (a b : Poly) : Poly := modG (clmul a b)

/-- Square and multiply: `fuel` binary digits of k, lowest first. -/
def powLoop : Nat → Poly → Nat → Poly → Poly
  | 0, _, _, r => r
  | fuel + 1, x, k, r => powLoop fuel (mulMod x x) (k / 2) (if k % 2 = 1 then mulMod r x else r)

/-- XPOWMOD(k) = x^k mod G (R185: "computed by any method"). -/
def xPowMod (k : Nat) : Poly := powLoop (k.log2 + 1) 0x2 k 1

/-- `minv` (R186): the operand is reduced first; E_NOT_INVERTIBLE when it is 0 modulo G. -/
def modInverse (a : Poly) : Except Raise Poly :=
  if modG a = 0 then .error ⟨.notInvertible, 0⟩ else .ok (extendedGcd (modG a) Config.G).2.1

/-- `divide` (R187): division in the field. -/
def fieldDivide (a b : Poly) : Except Raise Poly := (modInverse b).map fun inv => mulMod (modG a) inv

/-- MULRAW (R181). -/
def execMulraw (a b : Poly) (s : State) : Host.Outcome State Fault Refusal := runValue s ((multiplyRaw a b).map .poly)

/-- DIVMOD (R182). -/
def execDivmod (a b : Poly) (s : State) : Host.Outcome State Fault Refusal :=
  runValue s ((divideRaw a b).map fun qr => .quotRem qr.1 qr.2)

/-- XGCD (R183). -/
def execXgcd (a b : Poly) (s : State) : Host.Outcome State Fault Refusal :=
  runValue s (.ok (.bezout (extendedGcd a b).1 (extendedGcd a b).2.1 (extendedGcd a b).2.2))

/-- MINV (R186). -/
def execMinv (a : Poly) (s : State) : Host.Outcome State Fault Refusal := runValue s ((modInverse a).map .poly)

/-- DIVIDE (R187). -/
def execDivide (a b : Poly) (s : State) : Host.Outcome State Fault Refusal := runValue s ((fieldDivide a b).map .poly)

end Sys2Proof.Machine
end

