-- ==== Sys2Proof/Machine/Solver.lean ====
section
/-! DEFINITION. The CRC constraint solver (45_crc_solver.md): SOLVE_RANK1 and SOLVE_SYSTEM. -/

namespace Sys2Proof.Machine

/-- A u32 in "implementation bit-order" as a polynomial: REV32, zero-extended (R200). -/
def toMath (c : U32) : Poly := (rev32 c).setWidth 64

/-- A polynomial of degree < 32 back in "implementation bit-order" (R203). -/
def toImpl (u : Poly) : U32 := rev32 (u.setWidth 32)

/-- K(n, o), the coefficient of a slot at offset o in a buffer of n bytes (R200). -/
def slotCoeff (n o : Nat) : Poly := xPowMod (8 * (n - o))

/-- S, the sum of the slots' coefficients (R200, R203). -/
def slotSum (n : Nat) (offsets : List Nat) : Poly := offsets.foldl (fun acc o => acc ^^^ slotCoeff n o) 0

/-- "basePolynomial" (R203): REV32 of the CRC of the buffer with its slots zeroed. -/
def basePoly (offsets : List Nat) (data : List Byte) : Poly := toMath (crc32 (zeroSlots offsets data))

/-- SOLVE_RANK1's value (R203), its offsets checked. -/
def solveOne (data : List Byte) (offsets : List Nat) : Except Raise (List Byte × U32) :=
  (fieldDivide (basePoly offsets data) (1 ^^^ slotSum data.length offsets)).map fun u =>
    (fillSlots (toImpl u) offsets (zeroSlots offsets data), toImpl u)

/-- SOLVE_RANK1 (R202, R203). -/
def execSolveRank1 (data : List Byte) (offsets : List Nat) (s : State) : Host.Outcome State Fault Refusal :=
  runValue s <|
    match checkOffsets data.length offsets with
    | some r => .error r
    | none => (solveOne data offsets).map fun v => .solved v.1 v.2

/-- The constraint matrix M (10_state.md R29): rows of polynomials, the constant in the last column. -/
abbrev Matrix := List (List Poly)

/-- M[r][c] (00_scope.md R11). -/
def entry (m : Matrix) (r c : Nat) : Poly := (m.getD r []).getD c 0

/-- Row i of M, the equation of file i among n files (R205). -/
def buildRow (n i : Nat) (f : FileSpec) : List Poly :=
  ((f.slots.foldl (fun row p => row.modify p.2 (· ^^^ slotCoeff f.data.length p.1)) (List.replicate (n + 1) 0)).modify i
    (· ^^^ 1)).set n (basePoly (f.slots.map Prod.fst) f.data)

/-- M before elimination (R205). -/
def buildMatrix (files : List FileSpec) : Matrix := files.mapIdx fun i f => buildRow files.length i f

/-- The least row at or below the diagonal with a non-zero entry in column k (R205). -/
def findPivot (m : Matrix) (n k : Nat) : Option Nat :=
  (List.range' k (n - k)).find? fun r => decide (entry m r k ≠ 0)

/-- Swap two rows. -/
def swapRows (m : Matrix) (k p : Nat) : Matrix := (m.set k (m.getD p [])).set p (m.getD k [])

/-- A row times a scalar, in the field. -/
def scaleRow (c : Poly) (row : List Poly) : List Poly := row.map fun x => mulMod x c

/-- Row r minus f times the pivot row (R205); unchanged when f = 0. -/
def clearRow (pivot row : List Poly) (f : Poly) : List Poly :=
  if f = 0 then row else List.zipWith (fun x y => x ^^^ mulMod f y) row pivot

/-- Column k of the elimination (R205): pivot, swap, scale, and clear the column in every other row. -/
def eliminateColumn (n k : Nat) (m : Matrix) : Except Raise Matrix :=
  match findPivot m n k with
  | none => .error ⟨.rankDeficient, infoNat k⟩
  | some p =>
    let m1 := swapRows m k p
    (modInverse (entry m1 k k)).map fun inv =>
      let pivot := scaleRow inv (m1.getD k [])
      (m1.set k pivot).mapIdx fun r row => if r = k then row else clearRow pivot row (row.getD k 0)

/-- Gauss-Jordan elimination over the columns of a list, in order (R205). -/
def eliminate (n : Nat) : List Nat → Matrix → Except Raise Matrix
  | [], m => .ok m
  | k :: ks, m =>
    match eliminateColumn n k m with
    | .error r => .error r
    | .ok m' => eliminate n ks m'

/-- SOLVE_SYSTEM's value (R205), its offsets checked. -/
def solveFiles (files : List FileSpec) : Except Raise (List U32) :=
  (eliminate files.length (List.range files.length) (buildMatrix files)).map fun m =>
    (List.range files.length).map fun i => toImpl (entry m i files.length)

/-- SOLVE_SYSTEM (R204, R205). -/
def execSolveSystem (files : List FileSpec) (s : State) : Host.Outcome State Fault Refusal :=
  runValue s <|
    match checkFiles files.length 0 files with
    | some r => .error r
    | none => (solveFiles files).map .crcs

end Sys2Proof.Machine
end

