-- ==== Sys2Proof/Machine/Lanes.lean ====
section
/-! DEFINITION. BRUTEFORCE and its lanes (45_crc_solver.md R206, R207; 20_memory.md R64 to R66). -/

namespace Sys2Proof.Machine

/-- valid(c) (R206): the buffer with LE32(c) at every slot has the CRC-32 c. -/
def validCandidate (data : List Byte) (offsets : List Nat) (c : U32) : Bool :=
  crc32 (fillSlots c offsets (zeroSlots offsets data)) == c

/-- The first candidate of lane w's sub-range, floor(w * 2^32 / W) (R206); lane w ends where lane w + 1 begins. -/
def laneStart (lanes w : Nat) : Nat := w * 2 ^ 32 / lanes

/-- A lane's scan as R206 words it: `count` candidates ascending from `cand`, stopping at the first valid one. -/
def scanCandidates (valid : U32 → Bool) : Nat → Nat → Option U32
  | 0, _ => none
  | count + 1, cand =>
    if valid (BitVec.ofNat 32 cand) then some (BitVec.ofNat 32 cand) else scanCandidates valid count (cand + 1)

/-- The candidates that are valid, by R207's three cases. -/
inductive ValidSet where
  | empty
  | only (c : U32)
  | every
deriving DecidableEq, Repr

/-- R207: with 1 + S not 0 exactly one candidate is valid, the one SOLVE_RANK1 returns; otherwise every one or none,
as the base polynomial is 0 or not. -/
def validSet (data : List Byte) (offsets : List Nat) : ValidSet :=
  match fieldDivide (basePoly offsets data) (1 ^^^ slotSum data.length offsets) with
  | .ok u => .only (toImpl u)
  | .error _ => if basePoly offsets data = 0 then .every else .empty

/-- What lane w's ascending scan finds: the least valid candidate of its sub-range. It is `scanCandidates` over the
sub-range, computed from R207's cases (Laws/Lanes.lean proves them equal), since 2^32 candidates cannot be tried one by
one where the model is run. -/
def laneFinds (v : ValidSet) (lanes w : Nat) : Option U32 :=
  let lo := laneStart lanes w
  let hi := laneStart lanes (w + 1)
  match v with
  | .empty => none
  | .only c => if lo ≤ c.toNat ∧ c.toNat < hi then some c else none
  | .every => if lo < hi then some (BitVec.ofNat 32 lo) else none

/-- The candidates of the lanes that match, in lane order. -/
def laneHits (v : ValidSet) (lanes : Nat) : List U32 := (List.range lanes).filterMap (laneFinds v lanes)

/-- RESULT: the candidate of one of the matching lanes, which one being a free value (20_memory.md R66; log 6). -/
def pickHit (draw : Nat) : List U32 → Option U32
  | [] => none
  | [c] => some c
  | c :: d :: cs => some ((c :: d :: cs).getD (Config.freeLane draw % (cs.length + 2)) c)

/-- BRUTEFORCE's search and return (R206), its offsets checked: FOUND is cleared, then set by a match; on exhaustion the
CRC is 0 and the warning is raised. -/
def searchLanes (data : List Byte) (offsets : List Nat) (s : State) : State :=
  match pickHit s.draws (laneHits (validSet data offsets) s.params.lanes) with
  | some c =>
    respond (.searched (fillSlots c offsets (zeroSlots offsets data)) c true)
      { (s.clearStatus foundBit).setStatus foundBit with draws := s.draws + 1 }
  | none => respond (.searched (zeroSlots offsets data) 0 false) (warn (s.clearStatus foundBit))

/-- BRUTEFORCE (R206). -/
def execBruteforce (data : List Byte) (offsets : List Nat) (s : State) : Host.Outcome State Fault Refusal :=
  runCommand s <|
    match checkOffsets data.length offsets with
    | some r => .error r
    | none => .ok (searchLanes data offsets s)

end Sys2Proof.Machine
end

