-- ==== Sys2Proof/Machine/Tokenizer.lean ====
section
/-! DEFINITION. The LZ77 tokenizer (41_lz77_tokenizer.md). -/

namespace Sys2Proof.Machine

/-- The number of leading bytes on which two sequences agree, at most `lim`: the inner loop of R141. -/
def commonLength : Nat → List Byte → List Byte → Nat
  | lim + 1, x :: xs, y :: ys => if x = y then commonLength lim xs ys + 1 else 0
  | _, _, _ => 0

/-- The match length of candidate distance d at `pos` (R141): cut at `maxlen`, and at d when a match may not overlap. -/
def matchLength (overlap : Bool) (input : List Byte) (pos maxlen d : Nat) : Nat :=
  commonLength (if overlap then maxlen else min maxlen d) (input.drop (pos - d)) (input.drop pos)

/-- (best_len, best_dist) at `pos` (R141): candidates nearest first; only a strictly longer match replaces the best. -/
def bestMatch (overlap : Bool) (input : List Byte) (window pos maxlen : Nat) : Nat × Nat :=
  (List.range' 1 (min window pos)).foldl
    (fun best d =>
      let l := matchLength overlap input pos maxlen d
      if best.1 < l then (l, d) else best)
    (0, 0)

/-- The scan from `pos` (R141). Each turn advances `pos`, so |in| turns are enough (R142(d)). -/
def scanTokens (overlap : Bool) (input : List Byte) (window lookahead minMatch : Nat) : Nat → Nat → List Token
  | 0, _ => []
  | fuel + 1, pos =>
    if pos < input.length then
      let best := bestMatch overlap input window pos (min lookahead (input.length - pos))
      if minMatch ≤ best.1 then
        .rep (BitVec.ofNat 32 best.2) (BitVec.ofNat 32 best.1) ::
          scanTokens overlap input window lookahead minMatch fuel (pos + best.1)
      else
        .lit (input.getD pos 0) :: scanTokens overlap input window lookahead minMatch fuel (pos + 1)
    else []

/-- The tokens of a whole input (R141). -/
def tokenize (overlap : Bool) (input : List Byte) (window lookahead minMatch : Nat) : List Token :=
  scanTokens overlap input window lookahead minMatch input.length 0

/-- TOKENIZE (R140, R141). -/
def execTokenize (input : List Byte) (window lookahead minMatch : Nat) (s : State) : Host.Outcome State Fault Refusal :=
  runValue s <|
    match checkParams window lookahead minMatch with
    | some r => .error r
    | none => .ok (.tokens (tokenize s.params.tokOverlap input window lookahead minMatch))

end Sys2Proof.Machine
end

