-- ==== Sys2Proof/Machine/Dispatch.lean ====
section
/-! DEFINITION. The dispatch of the instructions to their meanings. -/

namespace Sys2Proof.Machine

def exec (i : Instr) (s : State) : Host.Outcome State Fault Refusal :=
  match i with
  | .reset => Sys2Proof.Machine.execReset s
  | .finish => Sys2Proof.Machine.execFinish s
  | .rdacc => Sys2Proof.Machine.execRdacc s
  | .tokenize input window lookahead minMatch => Sys2Proof.Machine.execTokenize input window lookahead minMatch s
  | .encStored lits isLast => Sys2Proof.Machine.execEncStored lits isLast s
  | .encStatic toks isLast => Sys2Proof.Machine.execEncStatic toks isLast s
  | .encode toks => Sys2Proof.Machine.execEncode toks s
  | .fiveByteRepeat tok => Sys2Proof.Machine.execFiveByteRepeat tok s
  | .crc32 input => Sys2Proof.Machine.execCrc32 input s
  | .crc32Cont input prior => Sys2Proof.Machine.execCrc32Cont input prior s
  | .mulraw a b => Sys2Proof.Machine.execMulraw a b s
  | .divmod a b => Sys2Proof.Machine.execDivmod a b s
  | .xgcd a b => Sys2Proof.Machine.execXgcd a b s
  | .minv a => Sys2Proof.Machine.execMinv a s
  | .divide a b => Sys2Proof.Machine.execDivide a b s
  | .solveRank1 data offsets => Sys2Proof.Machine.execSolveRank1 data offsets s
  | .solveSystem files => Sys2Proof.Machine.execSolveSystem files s
  | .bruteforce data offsets => Sys2Proof.Machine.execBruteforce data offsets s
  | .hdrStoredNotlast => Sys2Proof.Machine.execHdrStoredNotlast s
  | .hdrStaticNotlast => Sys2Proof.Machine.execHdrStaticNotlast s
  | .hdrStoredLast => Sys2Proof.Machine.execHdrStoredLast s
  | .hdrStaticLast => Sys2Proof.Machine.execHdrStaticLast s
  | .eob => Sys2Proof.Machine.execEob s
  | .len257 => Sys2Proof.Machine.execLen257 s
  | .len258 => Sys2Proof.Machine.execLen258 s
  | .len259 => Sys2Proof.Machine.execLen259 s
  | .len260 => Sys2Proof.Machine.execLen260 s
  | .len261 => Sys2Proof.Machine.execLen261 s
  | .len262 => Sys2Proof.Machine.execLen262 s
  | .len263 => Sys2Proof.Machine.execLen263 s
  | .len264 => Sys2Proof.Machine.execLen264 s
  | .len265 extra => Sys2Proof.Machine.execLen265 extra s
  | .len266 extra => Sys2Proof.Machine.execLen266 extra s
  | .len267 extra => Sys2Proof.Machine.execLen267 extra s
  | .len268 extra => Sys2Proof.Machine.execLen268 extra s
  | .len269 extra => Sys2Proof.Machine.execLen269 extra s
  | .len270 extra => Sys2Proof.Machine.execLen270 extra s
  | .len271 extra => Sys2Proof.Machine.execLen271 extra s
  | .len272 extra => Sys2Proof.Machine.execLen272 extra s
  | .len273 extra => Sys2Proof.Machine.execLen273 extra s
  | .len274 extra => Sys2Proof.Machine.execLen274 extra s
  | .len275 extra => Sys2Proof.Machine.execLen275 extra s
  | .len276 extra => Sys2Proof.Machine.execLen276 extra s
  | .len277 extra => Sys2Proof.Machine.execLen277 extra s
  | .len278 extra => Sys2Proof.Machine.execLen278 extra s
  | .len279 extra => Sys2Proof.Machine.execLen279 extra s
  | .len280 extra => Sys2Proof.Machine.execLen280 extra s
  | .len281 extra => Sys2Proof.Machine.execLen281 extra s
  | .len282 extra => Sys2Proof.Machine.execLen282 extra s
  | .len283 extra => Sys2Proof.Machine.execLen283 extra s
  | .len284 extra => Sys2Proof.Machine.execLen284 extra s
  | .len285 => Sys2Proof.Machine.execLen285 s
  | .dist0 => Sys2Proof.Machine.execDist0 s
  | .dist1 => Sys2Proof.Machine.execDist1 s
  | .dist2 => Sys2Proof.Machine.execDist2 s
  | .dist3 => Sys2Proof.Machine.execDist3 s
  | .dist4 extra => Sys2Proof.Machine.execDist4 extra s
  | .dist5 extra => Sys2Proof.Machine.execDist5 extra s
  | .dist6 extra => Sys2Proof.Machine.execDist6 extra s
  | .dist7 extra => Sys2Proof.Machine.execDist7 extra s
  | .dist8 extra => Sys2Proof.Machine.execDist8 extra s
  | .dist9 extra => Sys2Proof.Machine.execDist9 extra s
  | .dist10 extra => Sys2Proof.Machine.execDist10 extra s
  | .dist11 extra => Sys2Proof.Machine.execDist11 extra s
  | .dist12 extra => Sys2Proof.Machine.execDist12 extra s
  | .dist13 extra => Sys2Proof.Machine.execDist13 extra s
  | .dist14 extra => Sys2Proof.Machine.execDist14 extra s
  | .dist15 extra => Sys2Proof.Machine.execDist15 extra s
  | .dist16 extra => Sys2Proof.Machine.execDist16 extra s
  | .dist17 extra => Sys2Proof.Machine.execDist17 extra s
  | .dist18 extra => Sys2Proof.Machine.execDist18 extra s
  | .dist19 extra => Sys2Proof.Machine.execDist19 extra s
  | .dist20 extra => Sys2Proof.Machine.execDist20 extra s
  | .dist21 extra => Sys2Proof.Machine.execDist21 extra s
  | .dist22 extra => Sys2Proof.Machine.execDist22 extra s
  | .dist23 extra => Sys2Proof.Machine.execDist23 extra s
  | .dist24 extra => Sys2Proof.Machine.execDist24 extra s
  | .dist25 extra => Sys2Proof.Machine.execDist25 extra s
  | .dist26 extra => Sys2Proof.Machine.execDist26 extra s
  | .dist27 extra => Sys2Proof.Machine.execDist27 extra s
  | .dist28 extra => Sys2Proof.Machine.execDist28 extra s
  | .dist29 extra => Sys2Proof.Machine.execDist29 extra s

end Sys2Proof.Machine
end

