-- ==== Sys2Proof/Machine/Step.lean ====
section
/-! DEFINITION. One step: the port's oldest entry is taken and run. -/

namespace Sys2Proof.Machine

/-- Run a request: the decoded instruction; the fault of an undefined opcode (30_encoding.md R104); or the stop for bits
that are no stream element (log 1). -/
def runRequest (r : Request) (s : State) : Host.Outcome State Fault Refusal :=
  match decode r with
  | .ok i => exec i s
  | .error (.illegalCommand op) => runIllegal op s
  | .error why => .fault (.notAnElement why)

/-- One step (20_memory.md R62: commands take effect in the order the host issues them, one at a time). With nothing
issued the instance is idle and holds its state (60_exceptions.md R245). -/
def step (s : State) : Host.Outcome State Fault Refusal :=
  match takePort s with
  | none => .next s
  | some (.powerOnReset, s') => .next (powerOnReset s')
  | some (.request r, s') => runRequest r s'

/-- The state whose very next step runs the instruction of an opcode-table word: its request is the port's oldest. -/
def State.withFetchWord (s : State) (nbits w : Nat) : State := issueWord nbits w s

end Sys2Proof.Machine
end

