-- ==== Sys2Proof/Safety.lean ====
section
/-! DEFINITION. What the claims are said with: the invariant of a run, the entry into a fault, the bits of a byte stream,
what tokens and streams stand for, and when CRCs are self-consistent. -/

namespace Sys2Proof.Machine

/-! ## States -/

/-- What holds in every state a run reaches, and what every step keeps. -/
structure Inv (s : State) : Prop where
  /-- ACC is a register of ACC_W bits (10_state.md R22). -/
  accFits : s.acc < 2 ^ s.params.accW
  /-- Every bit of ACC at or above CNT is zero (10_state.md R24), unless a fault has left ACC and CNT undefined. -/
  carryOnly : s.faulted = false → s.acc < 2 ^ s.cnt.toNat
  /-- STATUS bits 7:4 are always 0 (10_state.md R26). -/
  reservedZero : s.status &&& 0xF0#8 = 0
  /-- Between two commands nothing is running (10_state.md R26, 20_memory.md R59). -/
  idle : s.busy = false
  /-- CAUSE and INFO are 0 when FAULT = 0 (10_state.md R27). -/
  noCause : s.faulted = false → s.cause = 0 ∧ s.info = 0
  /-- CAUSE holds a code of 60_exceptions.md R221 when FAULT = 1; 0x0B to 0xFF are never produced. -/
  someCause : s.faulted = true → 1 ≤ s.cause.toNat ∧ s.cause.toNat ≤ 10

/-- The instance accepts any command: it is not BUSY and not in the faulted state. -/
abbrev State.ready (s : State) : Prop := s.busy = false ∧ s.faulted = false

/-- The accumulator holds its pending bits and no other (10_state.md R24). -/
abbrev State.carryClean (s : State) : Prop := s.acc < 2 ^ s.cnt.toNat

/-- From s to t a command raised the fault of CAUSE code `code` with INFO `info`: 60_exceptions.md R224. Nothing is said
of ACC and CNT, which R225 leaves undefined, nor of the model's own counter of free values. -/
structure FaultEntry (code : BitVec 8) (info : BitVec 64) (s t : State) : Prop where
  cause   : t.cause = code
  info    : t.info = info
  status  : t.status = (s.status ||| 0x02#8) &&& 0xFE#8
  results : t.results = s.results
  out     : t.out = s.out
  port    : t.port = s.port
  params  : t.params = s.params

/-- The instruction is an element of the stream, not a command. -/
def isElement (i : Instr) : Bool :=
  match encode i with
  | .command _ => false
  | .element _ _ => true

/-- The encoder commands, which read and write the accumulator (20_memory.md R59). -/
inductive WritesCarry : Instr → Prop where
  | encStored (lits : List Byte) (isLast : Bool) : WritesCarry (.encStored lits isLast)
  | encStatic (toks : List Token) (isLast : Bool) : WritesCarry (.encStatic toks isLast)
  | encode (toks : List Token) : WritesCarry (.encode toks)
  | finish : WritesCarry .finish

/-- The commands whose results are functions of their operands alone (20_memory.md R59), and of the configuration. RDACC,
which R59 lists with them, returns the accumulator. -/
inductive OperandsOnly : Instr → Prop where
  | tokenize (input : List Byte) (window lookahead minMatch : Nat) :
    OperandsOnly (.tokenize input window lookahead minMatch)
  | fiveByteRepeat (tok : Token) : OperandsOnly (.fiveByteRepeat tok)
  | crc32 (input : List Byte) : OperandsOnly (.crc32 input)
  | crc32Cont (input : List Byte) (prior : U32) : OperandsOnly (.crc32Cont input prior)
  | mulraw (a b : Poly) : OperandsOnly (.mulraw a b)
  | divmod (a b : Poly) : OperandsOnly (.divmod a b)
  | xgcd (a b : Poly) : OperandsOnly (.xgcd a b)
  | minv (a : Poly) : OperandsOnly (.minv a)
  | divide (a b : Poly) : OperandsOnly (.divide a b)
  | solveRank1 (data : List Byte) (offsets : List Nat) : OperandsOnly (.solveRank1 data offsets)
  | solveSystem (files : List FileSpec) : OperandsOnly (.solveSystem files)

/-- From s to t the records `added` were returned, and no earlier record changed. -/
def Returned (added : List Result) (s t : State) : Prop := t.results = s.results ++ added

/-- The state after the n bits of v, least significant first, have gone into the accumulator above the pending ones and
every whole byte has gone to `out` (40_bytecodec_bitwriter.md R124). -/
def State.afterField (v n : Nat) (s : State) : State :=
  { s with
    acc := (s.acc ||| v <<< s.cnt.toNat) >>> (8 * ((s.cnt.toNat + n) / 8))
    cnt := BitVec.ofNat 3 (s.cnt.toNat + n)
    out := s.out ++ (List.range ((s.cnt.toNat + n) / 8)).map fun k =>
      BitVec.ofNat 8 ((s.acc ||| v <<< s.cnt.toNat) >>> (8 * k)) }

/-! ## Tokens -/

/-- A Repeat whose fields are in range (30_encoding.md R82). -/
def legalToken : Token → Prop
  | .lit _ => False
  | .rep d l => 3 ≤ l.toNat ∧ l.toNat ≤ 258 ∧ 1 ≤ d.toNat ∧ d.toNat ≤ 32768

/-- Copy `length` bytes, one at a time, each from d bytes back (30_encoding.md R82); none when that reaches before the
start. -/
def copyBack (d : Nat) : Nat → List Byte → Option (List Byte)
  | 0, out => some out
  | length + 1, out => if d = 0 ∨ out.length < d then none else copyBack d length (out ++ [out.getD (out.length - d) 0])

/-- Expand tokens in order after `out` (41_lz77_tokenizer.md R142(b)). -/
def expandFrom : List Byte → List Token → Option (List Byte)
  | out, [] => some out
  | out, .lit b :: rest => expandFrom (out ++ [b]) rest
  | out, .rep d l :: rest => (copyBack d.toNat l.toNat out).bind fun o => expandFrom o rest

/-- What a token sequence stands for. -/
def expand (toks : List Token) : Option (List Byte) := expandFrom [] toks

/-- How many bytes a token stands for. -/
def tokenSpan : Token → Nat
  | .lit _ => 1
  | .rep _ l => l.toNat

/-- A match of length l at distance d is open to the scan at `pos` (41_lz77_tokenizer.md R141): within the window and the
lookahead, not overlapping unless TOK_OVERLAP, and equal byte for byte. -/
def Matches (overlap : Bool) (input : List Byte) (window lookahead pos d l : Nat) : Prop :=
  1 ≤ d ∧ d ≤ min window pos ∧ l ≤ min lookahead (input.length - pos) ∧ (overlap = true ∨ l ≤ d) ∧
    ∀ k < l, input[pos - d + k]? = input[pos + k]?

/-- The tokens are those of R141's greedy scan from `pos`: a Repeat is a longest open match and of those the nearest; a
Literal stands where no open match reaches minMatch; they end where the input ends. -/
def GreedyFrom (overlap : Bool) (input : List Byte) (window lookahead minMatch : Nat) : Nat → List Token → Prop
  | pos, [] => pos = input.length
  | pos, .lit b :: rest =>
    input[pos]? = some b ∧ (∀ d l, Matches overlap input window lookahead pos d l → l < minMatch) ∧
      GreedyFrom overlap input window lookahead minMatch (pos + 1) rest
  | pos, .rep d l :: rest =>
    Matches overlap input window lookahead pos d.toNat l.toNat ∧ minMatch ≤ l.toNat ∧
      (∀ d' l', Matches overlap input window lookahead pos d' l' → l' ≤ l.toNat ∧ (l' = l.toNat → d.toNat ≤ d')) ∧
      GreedyFrom overlap input window lookahead minMatch (pos + l.toNat) rest

/-- ENCODE accepts the tokens (42_static_huffman_encoder.md R156): every Repeat is in range and no run of Literals is
longer than a stored block. -/
def Encodable (toks : List Token) : Prop :=
  (∀ d l, Token.rep d l ∈ toks → legalToken (.rep d l)) ∧
    ∀ before run after, toks = before ++ List.map Token.lit run ++ after → run.length ≤ 65535

/-! ## The bits of a stream -/

/-- The bits of bytes in stream order (00_scope.md R10). -/
def bitsOf (bytes : List Byte) : List Bool := bytes.flatMap fun b => bitsLsb 8 b.toNat

/-- The pending bits, oldest first (10_state.md R22). -/
def State.carryBits (s : State) : List Bool := bitsLsb s.cnt.toNat s.acc

/-- The bits of a stream element; a command has none. -/
def elementBits (i : Instr) : List Bool :=
  match encode i with
  | .command _ => []
  | .element _ bits => bits

/-- The element that spells a length: the row of 30_encoding.md R95 with the extra bits of the difference. -/
def lengthElement (l : Nat) : Instr :=
  match lengthInstr (rowFor lenTable l) (l - (tableRow lenTable (rowFor lenTable l)).base) with
  | .ok i => i
  | .error _ => .eob

/-- The element that spells a distance (30_encoding.md R97). -/
def distanceElement (d : Nat) : Instr :=
  match distanceInstr (rowFor distTable d) (d - (tableRow distTable (rowFor distTable d)).base) with
  | .ok i => i
  | .error _ => .eob

/-- The elements of a token of a static block (30_encoding.md R90). -/
def tokenElements : Token → List Instr
  | .lit _ => []
  | .rep d l => [lengthElement l.toNat, distanceElement d.toNat]

/-- The elements of a static block, its padding apart (30_encoding.md R86). -/
def blockElements (toks : List Token) (isLast : Bool) : List Instr :=
  (if isLast then Instr.hdrStaticLast else Instr.hdrStaticNotlast) :: (toks.flatMap tokenElements ++ [Instr.eob])

/-- The bits of a static block, its padding apart. -/
def blockBits (toks : List Token) (isLast : Bool) : List Bool := (blockElements toks isLast).flatMap elementBits

/-- The padding to a byte boundary after n bits (40_bytecodec_bitwriter.md R126): 0 to 7 zero bits. -/
def padding (n : Nat) : List Bool := List.replicate ((8 - n % 8) % 8) false

/-- Run elements one after the other; nothing when one does not answer a next state. -/
def runElements : List Instr → State → Option State
  | [], s => some s
  | i :: rest, s =>
    match exec i s with
    | .next t => runElements rest t
    | .fault _ => none
    | .refused _ => none

/-! ## A checking decoder -/

/-- The length or distance a symbol and its extra bits stand for: the "lengths covered" and "distances covered" of
30_encoding.md R94 and R96. -/
def spelled : Instr → Option Nat
  | .len257 => some 3
  | .len258 => some 4
  | .len259 => some 5
  | .len260 => some 6
  | .len261 => some 7
  | .len262 => some 8
  | .len263 => some 9
  | .len264 => some 10
  | .len265 extra => some (11 + extra.toNat)
  | .len266 extra => some (13 + extra.toNat)
  | .len267 extra => some (15 + extra.toNat)
  | .len268 extra => some (17 + extra.toNat)
  | .len269 extra => some (19 + extra.toNat)
  | .len270 extra => some (23 + extra.toNat)
  | .len271 extra => some (27 + extra.toNat)
  | .len272 extra => some (31 + extra.toNat)
  | .len273 extra => some (35 + extra.toNat)
  | .len274 extra => some (43 + extra.toNat)
  | .len275 extra => some (51 + extra.toNat)
  | .len276 extra => some (59 + extra.toNat)
  | .len277 extra => some (67 + extra.toNat)
  | .len278 extra => some (83 + extra.toNat)
  | .len279 extra => some (99 + extra.toNat)
  | .len280 extra => some (115 + extra.toNat)
  | .len281 extra => some (131 + extra.toNat)
  | .len282 extra => some (163 + extra.toNat)
  | .len283 extra => some (195 + extra.toNat)
  | .len284 extra => some (227 + extra.toNat)
  | .len285 => some 258
  | .dist0 => some 1
  | .dist1 => some 2
  | .dist2 => some 3
  | .dist3 => some 4
  | .dist4 extra => some (5 + extra.toNat)
  | .dist5 extra => some (7 + extra.toNat)
  | .dist6 extra => some (9 + extra.toNat)
  | .dist7 extra => some (13 + extra.toNat)
  | .dist8 extra => some (17 + extra.toNat)
  | .dist9 extra => some (25 + extra.toNat)
  | .dist10 extra => some (33 + extra.toNat)
  | .dist11 extra => some (49 + extra.toNat)
  | .dist12 extra => some (65 + extra.toNat)
  | .dist13 extra => some (97 + extra.toNat)
  | .dist14 extra => some (129 + extra.toNat)
  | .dist15 extra => some (193 + extra.toNat)
  | .dist16 extra => some (257 + extra.toNat)
  | .dist17 extra => some (385 + extra.toNat)
  | .dist18 extra => some (513 + extra.toNat)
  | .dist19 extra => some (769 + extra.toNat)
  | .dist20 extra => some (1025 + extra.toNat)
  | .dist21 extra => some (1537 + extra.toNat)
  | .dist22 extra => some (2049 + extra.toNat)
  | .dist23 extra => some (3073 + extra.toNat)
  | .dist24 extra => some (4097 + extra.toNat)
  | .dist25 extra => some (6145 + extra.toNat)
  | .dist26 extra => some (8193 + extra.toNat)
  | .dist27 extra => some (12289 + extra.toNat)
  | .dist28 extra => some (16385 + extra.toNat)
  | .dist29 extra => some (24577 + extra.toNat)
  | .reset => none
  | .finish => none
  | .rdacc => none
  | .tokenize _ _ _ _ => none
  | .encStored _ _ => none
  | .encStatic _ _ => none
  | .encode _ => none
  | .fiveByteRepeat _ => none
  | .crc32 _ => none
  | .crc32Cont _ _ => none
  | .mulraw _ _ => none
  | .divmod _ _ => none
  | .xgcd _ _ => none
  | .minv _ => none
  | .divide _ _ => none
  | .solveRank1 _ _ => none
  | .solveSystem _ => none
  | .bruteforce _ _ => none
  | .hdrStoredNotlast => none
  | .hdrStaticNotlast => none
  | .hdrStoredLast => none
  | .hdrStaticLast => none
  | .eob => none

/-- n whole bytes of a stream. -/
def readBytes : Nat → List Bool → Option (List Byte × List Bool)
  | 0, bs => some ([], bs)
  | n + 1, bs =>
    (readLsb 8 bs).bind fun p => (readBytes n p.2).map fun q => (BitVec.ofNat 8 p.1 :: q.1, q.2)

/-- A stored block after its header (30_encoding.md R85), in a stream of whole bytes whose unread bits are `bs`. -/
def inflateStored (out : List Byte) (bs : List Bool) : Option (List Byte × List Bool) :=
  (readLsb 16 (bs.drop (bs.length % 8))).bind fun len =>
    (readLsb 16 len.2).bind fun nlen =>
      if len.1 + nlen.1 = 65535 then (readBytes len.1 nlen.2).map fun p => (out ++ p.1, p.2) else none

/-- The Repeats of a static block after its header, up to its end-of-block code (30_encoding.md R86, R101). -/
def inflateRepeats : Nat → List Byte → List Bool → Option (List Byte × List Bool)
  | 0, _, _ => none
  | fuel + 1, out, bs =>
    match decodeElement .litLen bs with
    | .error _ => none
    | .ok (.eob, rest) => some (out, rest)
    | .ok (li, rest) =>
      match decodeElement .dist rest with
      | .error _ => none
      | .ok (di, rest') =>
        (spelled li).bind fun l => (spelled di).bind fun d => (copyBack d l out).bind fun o => inflateRepeats fuel o rest'

/-- The blocks of a stream up to its final one (30_encoding.md R83, R84). -/
def inflateBlocks : Nat → List Byte → List Bool → Option (List Byte)
  | 0, _, _ => none
  | fuel + 1, out, bs =>
    match decodeElement .header bs with
    | .ok (.hdrStoredLast, rest) => (inflateStored out rest).map Prod.fst
    | .ok (.hdrStaticLast, rest) => (inflateRepeats rest.length out rest).map Prod.fst
    | .ok (.hdrStoredNotlast, rest) => (inflateStored out rest).bind fun p => inflateBlocks fuel p.1 p.2
    | .ok (.hdrStaticNotlast, rest) => (inflateRepeats rest.length out rest).bind fun p => inflateBlocks fuel p.1 p.2
    | _ => none

/-- What a DEFLATE stream of stored and static blocks decodes to. It is no part of the hardware, which never decodes
(30_encoding.md R101); claims of round trip are said with it. -/
def inflate (bytes : List Byte) : Option (List Byte) := inflateBlocks ((bitsOf bytes).length + 1) [] (bitsOf bytes)

/-! ## Polynomials and checksums -/

/-- n is the degree of a: the index of its highest set bit (00_scope.md R11). -/
def IsDegree (a : Poly) (n : Nat) : Prop := a.getLsbD n = true ∧ ∀ m, n < m → a.getLsbD m = false

/-- The carry-less product with no bound on its width. -/
def exactProduct (a b : Poly) : Nat :=
  (List.range 64).foldl (fun p i => if b.getLsbD i then p ^^^ (a.toNat <<< i) else p) 0

/-- Offsets in ascending order whose slots lie in a buffer of n bytes and do not overlap (45_crc_solver.md R201). -/
def SlotsFit (n : Nat) (offsets : List Nat) : Prop :=
  (∀ o ∈ offsets, o + 4 ≤ n) ∧ offsets.Pairwise fun a b => a + 4 ≤ b

/-- An index lies in one of the slots. -/
def Covered (offsets : List Nat) (p : Nat) : Prop := ∃ o ∈ offsets, o ≤ p ∧ p < o + 4

/-- The maps of all files pass the check of R201. -/
def FilesFit (files : List FileSpec) : Prop :=
  ∀ f ∈ files, SlotsFit f.data.length (f.slots.map Prod.fst) ∧ ∀ p ∈ f.slots, p.2 < files.length

/-- D': a file with LE32 of the named CRC at every slot (45_crc_solver.md R204). -/
def completeFile (crcs : List U32) (f : FileSpec) : List Byte :=
  f.slots.foldl (fun d p => writeBytes (le32 (crcs.getD p.2 0)) p.1 d) f.data

/-- The CRCs are those of the completed files (45_crc_solver.md R204). -/
def Consistent (files : List FileSpec) (crcs : List U32) : Prop :=
  crcs.length = files.length ∧ ∀ (i : Nat) (f : FileSpec), files[i]? = some f → crcs[i]? = some (Machine.crc32 (completeFile crcs f))

/-- M[i][j] before elimination (45_crc_solver.md R205): the coefficient, in file i's equation, of the CRC of file j. -/
def systemCoeff (f : FileSpec) (i j : Nat) : Poly :=
  slotSum f.data.length ((f.slots.filter fun p => p.2 == j).map Prod.fst) ^^^ (if i = j then 1 else 0)

/-- Columns 0 to k of the system are linearly dependent over the field: not all zero, some multiples u of them sum to
zero in every row. Row operations keep this, so the least such k is the first column that R205's elimination leaves
without a non-zero entry at or below the diagonal. -/
def ColumnsDependent (files : List FileSpec) (k : Nat) : Prop :=
  ∃ u : Nat → U32, (∃ j ≤ k, u j ≠ 0) ∧ ∀ (i : Nat) (f : FileSpec), files[i]? = some f →
    (List.range (k + 1)).foldl (fun acc j => acc ^^^ mulMod (systemCoeff f i j) ((u j).setWidth 64)) 0 = 0

/-- valid(c) of 45_crc_solver.md R206: the buffer with LE32(c) at every slot has the CRC-32 c. -/
def SelfConsistent (data : List Byte) (offsets : List Nat) (c : U32) : Prop :=
  Machine.crc32 (fillSlots c offsets data) = c

end Sys2Proof.Machine
end

