-- ==== Sys2Proof/WellFormed.lean ====
section
/-! DEFINITION. Which instructions are operands a host can form and encodings the hardware produces. -/

namespace Sys2Proof

/-- Strictly ascending: the canonical listing of a set of offsets (log 10). -/
def ascending : List Nat → Bool
  | [] => true
  | [_] => true
  | x :: y :: r => decide (x < y) && ascending (y :: r)

/-- A file's map is listed by strictly ascending offset (log 10). -/
def FileSpec.wellFormed (f : FileSpec) : Bool := ascending (f.slots.map Prod.fst)

/-- A set operand is a set, a map operand a map, and symbol 284 never has extra value 31 (30_encoding.md R94, R105).
Everything else an `Instr` can hold is a legal request; operands the spec faults are well-formed and fault when run. -/
def Instr.wellFormed : Instr → Bool
  | .solveRank1 _ offsets => ascending offsets
  | .solveSystem files => files.all FileSpec.wellFormed
  | .bruteforce _ offsets => ascending offsets
  | .len284 extra => decide (extra ≠ 31)
  | .reset => true
  | .finish => true
  | .rdacc => true
  | .tokenize _ _ _ _ => true
  | .encStored _ _ => true
  | .encStatic _ _ => true
  | .encode _ => true
  | .fiveByteRepeat _ => true
  | .crc32 _ => true
  | .crc32Cont _ _ => true
  | .mulraw _ _ => true
  | .divmod _ _ => true
  | .xgcd _ _ => true
  | .minv _ => true
  | .divide _ _ => true
  | .hdrStoredNotlast => true
  | .hdrStaticNotlast => true
  | .hdrStoredLast => true
  | .hdrStaticLast => true
  | .eob => true
  | .len257 => true
  | .len258 => true
  | .len259 => true
  | .len260 => true
  | .len261 => true
  | .len262 => true
  | .len263 => true
  | .len264 => true
  | .len265 _ => true
  | .len266 _ => true
  | .len267 _ => true
  | .len268 _ => true
  | .len269 _ => true
  | .len270 _ => true
  | .len271 _ => true
  | .len272 _ => true
  | .len273 _ => true
  | .len274 _ => true
  | .len275 _ => true
  | .len276 _ => true
  | .len277 _ => true
  | .len278 _ => true
  | .len279 _ => true
  | .len280 _ => true
  | .len281 _ => true
  | .len282 _ => true
  | .len283 _ => true
  | .len285 => true
  | .dist0 => true
  | .dist1 => true
  | .dist2 => true
  | .dist3 => true
  | .dist4 _ => true
  | .dist5 _ => true
  | .dist6 _ => true
  | .dist7 _ => true
  | .dist8 _ => true
  | .dist9 _ => true
  | .dist10 _ => true
  | .dist11 _ => true
  | .dist12 _ => true
  | .dist13 _ => true
  | .dist14 _ => true
  | .dist15 _ => true
  | .dist16 _ => true
  | .dist17 _ => true
  | .dist18 _ => true
  | .dist19 _ => true
  | .dist20 _ => true
  | .dist21 _ => true
  | .dist22 _ => true
  | .dist23 _ => true
  | .dist24 _ => true
  | .dist25 _ => true
  | .dist26 _ => true
  | .dist27 _ => true
  | .dist28 _ => true
  | .dist29 _ => true

end Sys2Proof
end

