-- ==== Sys2Proof/Certificates/Slice0/Obligations.lean ====
section
/-! DEFINITION. The statements for the provers, each from the rules of spec/ its docstring cites. -/

open Sys2Proof Sys2Proof.Machine

/-! ## Reset and a step -/

/-- At power-on ACC, CNT, STATUS, CAUSE and INFO are 0 and the instance is ready: not BUSY and not in the faulted
state. The parameters have the defaults of R6; W, which has none there, is 1 by the model's choice (log 5).
(10_state.md R36, 70_reset_and_hazards.md R250, 70_reset_and_hazards.md R251, 00_scope.md R6.) -/
def Obligations.ResetValues : Prop :=
  State.reset.acc = 0 ∧ State.reset.cnt = 0 ∧ State.reset.status = 0x00#8 ∧ State.reset.cause = 0x00#8 ∧
    State.reset.info = 0 ∧ State.reset.ready ∧ State.reset.params.accW = 32 ∧ State.reset.params.tokOverlap = true ∧
    State.reset.params.fiveByte = .ceil ∧ State.reset.params.crcCont = .finalised ∧
    State.reset.params.lanes = 1

/-- The state after reset meets the invariant Inv that every step keeps (O3). (10_state.md R24, 10_state.md R36.) -/
def Obligations.ResetMeetsInvariant : Prop :=
  Inv State.reset

/-- From every state that meets Inv, a step that answers a next state answers one that meets Inv: ACC within its
width; no bit of ACC at or above CNT unless faulted; STATUS bits 7:4 zero; BUSY 0; CAUSE and INFO 0 while FAULT is 0;
CAUSE 1 to 10 while FAULT is 1. (10_state.md R22, 10_state.md R24, 10_state.md R26, 10_state.md R27, 60_exceptions.md
R221.) -/
def Obligations.StepKeepsInvariant : Prop :=
  ∀ s t : State, Inv s → step s = .next t → Inv t

/-- An idle instance holds ACC, CNT, STATUS, CAUSE and INFO until the next command: with an empty port (log 2) a step
changes nothing. (60_exceptions.md R245.) -/
def Obligations.StepIdle : Prop :=
  ∀ s : State, s.port = [] → step s = .next s

/-- When the oldest entry of the port is a request that decodes to instruction i, step is exec i on the state without
that entry (log 2 for the port). (30_encoding.md R81, 20_memory.md R62.) -/
def Obligations.StepRunsDecodedInstruction : Prop :=
  ∀ (s : State) (r : Request) (rest : List PortEvent) (i : Instr),
    s.port = .request r :: rest → decode r = .ok i → step s = exec i { s with port := rest }

/-- The power-on reset may strike at any time: BUSY or faulted, ACC, CNT, STATUS, CAUSE and INFO become 0, no record
is returned and the configuration stays. (That the bytes of stream elements run alone are dropped is the model's
choice, log 1.) (70_reset_and_hazards.md R250, 10_state.md R36.) -/
def Obligations.StepPowerOnReset : Prop :=
  ∀ (s : State) (rest : List PortEvent), s.port = .powerOnReset :: rest →
    step s = .next { s with acc := 0, cnt := 0, status := 0, cause := 0, info := 0, out := [], port := rest }

/-- For every opcode not listed in R80, a step of a ready instance that meets it enters the fault of code 0x01 with
the zero-extended opcode in INFO. (30_encoding.md R104.) -/
def Obligations.IllegalOpcodeFaults : Prop :=
  ∀ (s : State) (op : Byte) (args : Operands) (rest : List PortEvent),
    s.ready → s.port = .request (.command ⟨op, args⟩) :: rest →
    op.toNat ∉ [0x00, 0x01, 0x02, 0x10, 0x20, 0x21, 0x22, 0x23, 0x30, 0x31, 0x40, 0x41, 0x42, 0x43, 0x44, 0x50, 0x51,
      0x52] →
    ∃ t, step s = .next t ∧ FaultEntry 0x01#8 (op.setWidth 64) { s with port := rest } t

/-! ## Faults, refusals and the warning -/

/-- Raising a fault writes the fault's code to CAUSE and its number to INFO, sets STATUS.FAULT and clears STATUS.BUSY,
changes no other STATUS bit, and returns no record; the ten codes are 0x01 to 0x0A. ACC and CNT are not constrained.
(60_exceptions.md R224.) -/
def Obligations.RaiseEntersFault : Prop :=
  (∀ (r : Raise) (s : State), FaultEntry r.cause.code r.info s (raise r s) ∧ (raise r s).faulted = true ∧
      (raise r s).busy = false ∧ (raise r s).warned = s.warned ∧ (raise r s).found = s.found) ∧
    Cause.code .illegalCmd = 0x01#8 ∧ Cause.code .badParam = 0x02#8 ∧ Cause.code .tokenRange = 0x03#8 ∧
    Cause.code .literalInStatic = 0x04#8 ∧ Cause.code .formatLimit = 0x05#8 ∧ Cause.code .badOffset = 0x06#8 ∧
    Cause.code .polyOverflow = 0x07#8 ∧ Cause.code .divZero = 0x08#8 ∧ Cause.code .notInvertible = 0x09#8 ∧
    Cause.code .rankDeficient = 0x0A#8

/-- A number below 2^64 stands in INFO as it is; for E_BAD_OFFSET the offset stands in bits 47:0 and the file's index
in bits 63:48. (What a field holds when the number does not fit it is a free value, log 8.) (60_exceptions.md R221.)
-/
def Obligations.InfoHoldsTheNumber : Prop :=
  (∀ v < 2 ^ 64, infoNat v = BitVec.ofNat 64 v) ∧
    ∀ file < 2 ^ 16, ∀ offset < 2 ^ 48, infoOffset file offset = BitVec.ofNat 64 (file * 2 ^ 48 + offset)

/-- In the faulted state every command but RESET, and every undefined opcode, is refused: no record and no change,
CAUSE and INFO included. Reads stay allowed: at any time, the faulted state included, STATUS reads with its bits 3:0
as they are and bits 7:4 as 0 (10_state.md R26), CAUSE and INFO as they are; FAULT then reads 1. (60_exceptions.md
R226.) -/
def Obligations.FaultedStateRefusesCommands : Prop :=
  ∀ s : State,
    readStatus s = s.status &&& 0x0F#8 ∧ readCause s = s.cause ∧ readInfo s = s.info ∧
    (s.faulted = true →
      (∀ i : Instr, isElement i = false → i ≠ .reset → exec i s = .next s) ∧
      (∀ op : Byte, runIllegal op s = .next s) ∧ (readStatus s).getLsbD 1 = true)

/-- A command met while STATUS.BUSY is 1 is not started, returns nothing and changes no state, RESET included, and it
raises no fault. (70_reset_and_hazards.md R255, 70_reset_and_hazards.md R250.) -/
def Obligations.BusyRefusesCommands : Prop :=
  ∀ s : State, s.busy = true →
    (∀ i : Instr, isElement i = false → exec i s = .next s) ∧ ∀ op : Byte, runIllegal op s = .next s

/-- If FAULT is 1 before a step and 0 after it, the step took a RESET command or the power-on reset. (60_exceptions.md
R227, 70_reset_and_hazards.md R250.) -/
def Obligations.OnlyResetLeavesTheFaultedState : Prop :=
  ∀ s t : State, s.faulted = true → step s = .next t → t.faulted = false →
    (∃ rest, s.port = .powerOnReset :: rest) ∨
      ∃ args rest, s.port = .request (.command ⟨0x00#8, args⟩) :: rest

/-- An instruction other than BRUTEFORCE and RESET leaves FOUND and WARN as they were, a fault included; and no
instruction but RESET clears WARN. (10_state.md R26, 60_exceptions.md R230.) -/
def Obligations.FoundAndWarnChangeOnlyByBruteforceAndReset : Prop :=
  ∀ (i : Instr) (s t : State), i ≠ .reset → exec i s = .next t →
    ((∀ data offsets, i ≠ .bruteforce data offsets) → t.found = s.found ∧ t.warned = s.warned) ∧
      (s.warned = true → t.warned = true)

/-! ## The whole machine -/

/-- Whatever an instruction does, the parameters stay as they are, what the host has issued stays (log 2), and the
records returned so far stand: at most one record is added. RESET adds none. That a stream element run alone adds none
is the model's choice (log 1: nothing is returned to the host for it), and so is the port, which an instruction leaves
as it is (log 2). (70_reset_and_hazards.md R252, 60_exceptions.md R224, 20_memory.md R59.) -/
def Obligations.ConfigurationAndPastResultsStay : Prop :=
  ∀ (i : Instr) (s t : State), exec i s = .next t →
    t.params = s.params ∧ t.port = s.port ∧ (t.results = s.results ∨ ∃ r, t.results = s.results ++ [r]) ∧
      (isElement i = true ∨ i = .reset → t.results = s.results)

/-- From every state, every instruction answers a next state: a fault the spec describes is taken, and a refused
command leaves the state. In the faulted state every instruction but RESET leaves the state unchanged; for stream
elements, which R226 does not name, that is the model's reading (log 1). Where each instruction completes with its own
effect is said by the statements about it. (60_exceptions.md R224, 60_exceptions.md R226, 70_reset_and_hazards.md
R255.) -/
def Obligations.EveryInstructionAnswersANextState : Prop :=
  ∀ (i : Instr) (s : State), (∃ t, exec i s = .next t) ∧ (s.faulted = true → i ≠ .reset → exec i s = .next s)

/-- A command that is neither RESET nor one of ENC_STORED, ENC_STATIC, ENCODE and FINISH leaves ACC and CNT as they
were, unless it raises a fault; and it leaves the bytes of elements run alone, a field `out` that exists only by the
model's choice (log 1), as they were, a fault included. (70_reset_and_hazards.md R256, 10_state.md R22, 20_memory.md
R59.) -/
def Obligations.AccumulatorWrittenOnlyByEncoder : Prop :=
  ∀ (i : Instr) (s t : State), isElement i = false → ¬ WritesCarry i → i ≠ .reset → exec i s = .next t →
    t.out = s.out ∧ (t.faulted = true ∨ (t.acc = s.acc ∧ t.cnt = s.cnt))

/-- Two ready states with the same clean ACC and CNT, whatever else they hold (the configuration included): an encoder
command returns the same record from both, or faults in both with the same CAUSE and INFO, and when it does not fault
leaves the same ACC and CNT. (42_static_huffman_encoder.md R159, 42_static_huffman_encoder.md R150.) -/
def Obligations.EncoderBytesDependOnCarryAlone : Prop :=
  ∀ (i : Instr) (s s' t t' : State), WritesCarry i → s.ready → s'.ready → s.carryClean → s.acc = s'.acc → s.cnt = s'.cnt →
    exec i s = .next t → exec i s' = .next t' →
    (∃ r, Returned [r] s t ∧ Returned [r] s' t' ∧ t.acc = t'.acc ∧ t.cnt = t'.cnt) ∨
      ∃ code info, FaultEntry code info s t ∧ FaultEntry code info s' t'

/-- Two ready states with the same configuration, whatever else they hold: TOKENIZE, FIVE_BYTE_REPEAT, CRC32,
CRC32_CONT, MULRAW, DIVMOD, XGCD, MINV, DIVIDE, SOLVE_RANK1 and SOLVE_SYSTEM return the same record from both and
change nothing else, or fault in both with the same CAUSE and INFO. (20_memory.md R59.) -/
def Obligations.OtherResultsDependOnOperandsAlone : Prop :=
  ∀ (i : Instr) (s s' t t' : State), OperandsOnly i → s.ready → s'.ready → s.params = s'.params →
    exec i s = .next t → exec i s' = .next t' →
    (∃ r, t = { s with results := s.results ++ [r] } ∧ t' = { s' with results := s'.results ++ [r] }) ∨
      ∃ code info, FaultEntry code info s t ∧ FaultEntry code info s' t'

/-! ## Encodings and tables -/

/-- For every well-formed instruction, with every operand and every value of its extra bits, decode of encode is the
instruction. (30_encoding.md R80, 30_encoding.md R84, 30_encoding.md R88, 30_encoding.md R89, 30_encoding.md R94,
30_encoding.md R96.) -/
def Obligations.DecodeOfEncode : Prop :=
  ∀ i : Instr, i.wellFormed = true → decode (encode i) = .ok i

/-- Bits that decode to an element in a context are exactly that element's encoding, and the element is well-formed:
no two bit strings of one context decode to one element, and extra value 31 of symbol 284 is never decoded.
(30_encoding.md R84, 30_encoding.md R94, 30_encoding.md R96, 30_encoding.md R101.) -/
def Obligations.EncodeOfDecodedElement : Prop :=
  ∀ (ctx : StreamContext) (bits : List Bool) (i : Instr), decode (.element ctx bits) = .ok i →
    encode i = .element ctx bits ∧ i.wellFormed = true

/-- The codes are such that a reader finds where an element ends: an element's bits followed by any further bits
decode to the element and leave those bits. (30_encoding.md R101, 30_encoding.md R84.) -/
def Obligations.ElementReadFromAStream : Prop :=
  ∀ (i : Instr) (ctx : StreamContext) (bits rest : List Bool), i.wellFormed = true → encode i = .element ctx bits →
    decodeElement ctx (bits ++ rest) = .ok (i, rest)

/-- Opcodes of R80 and the bits of R84, R88 and of the worked example R91, written out, decode to the instructions
they stand for. (30_encoding.md R80, 30_encoding.md R84, 30_encoding.md R88, 30_encoding.md R91, 30_encoding.md R94,
30_encoding.md R96.) -/
def Obligations.SampleWordsDecode : Prop :=
  decode (.command ⟨0x00#8, { }⟩) = .ok .reset ∧
    decode (.command ⟨0x20#8, { lits := [0x77#8], isLast := true }⟩) = .ok (.encStored [0x77#8] true) ∧
    decode (.command ⟨0x41#8, { a := 0x1B#64, b := 0x7#64 }⟩) = .ok (.divmod 0x1B#64 0x7#64) ∧
    decode (.command ⟨0x52#8, { data := [1, 2, 3, 4], offsets := [0] }⟩) = .ok (.bruteforce [1, 2, 3, 4] [0]) ∧
    decode (.element .header [true, true, false]) = .ok .hdrStaticLast ∧
    decode (.element .litLen [false, false, false, false, false, false, false]) = .ok .eob ∧
    decode (.element .litLen [false, false, false, true, false, false, true, true]) = .ok (.len265 1) ∧
    decode (.element .dist [false, true, false, false, false, true, true, true]) = .ok (.dist8 7)

/-- Each encoding that the hardware never produces is rejected by its name, whatever bits follow. (30_encoding.md
R105, 30_encoding.md R84, 30_encoding.md R88.) -/
def Obligations.NeverProducedBitsRejected : Prop :=
  ∀ rest : List Bool,
    (∀ bfinal, decodeElement .header (bfinal :: false :: true :: rest) = .error .blockTypeNeverProduced) ∧
    (∀ bfinal, decodeElement .header (bfinal :: true :: true :: rest) = .error .blockTypeNeverProduced) ∧
    (∀ v, 0xC6 ≤ v → v ≤ 0xC7 → decodeElement .litLen (bitsMsb 8 v ++ rest) = .error .reservedLengthSymbol) ∧
    (∀ v, 0x30 ≤ v → v ≤ 0xBF → decodeElement .litLen (bitsMsb 8 v ++ rest) = .error .literalSymbol) ∧
    (∀ v, 0xC8 ≤ v → v ≤ 0xFF → decodeElement .litLen (bitsMsb 8 v ++ rest) = .error .literalSymbol) ∧
    (∀ v, 30 ≤ v → v ≤ 31 → decodeElement .dist (bitsMsb 5 v ++ rest) = .error .reservedDistanceSymbol) ∧
    decodeElement .litLen (bitsMsb 8 0xC4 ++ bitsLsb 5 31 ++ rest) = .error .extraNeverProduced

/-- For every length 3 to 258 and every distance 1 to 32768 the selected row has the largest base that is at most the
value, the difference fits the row's extra bits, and the element so spelled stands for the value; no length is spelled
by extra value 31 of symbol 284. (30_encoding.md R95, 30_encoding.md R97, 30_encoding.md R94, 30_encoding.md R96.) -/
def Obligations.RowSelection : Prop :=
  (∀ v, 3 ≤ v → v ≤ 258 → rowFor lenTable v < 29 ∧ (tableRow lenTable (rowFor lenTable v)).base ≤ v ∧
      (∀ k < 29, (tableRow lenTable k).base ≤ v → k ≤ rowFor lenTable v) ∧
      v - (tableRow lenTable (rowFor lenTable v)).base < 2 ^ (tableRow lenTable (rowFor lenTable v)).extra ∧
      spelled (lengthElement v) = some v ∧ (lengthElement v).wellFormed = true) ∧
    ∀ v, 1 ≤ v → v ≤ 32768 → rowFor distTable v < 30 ∧ (tableRow distTable (rowFor distTable v)).base ≤ v ∧
      (∀ k < 30, (tableRow distTable k).base ≤ v → k ≤ rowFor distTable v) ∧
      v - (tableRow distTable (rowFor distTable v)).base < 2 ^ (tableRow distTable (rowFor distTable v)).extra ∧
      spelled (distanceElement v) = some v ∧ (distanceElement v).wellFormed = true

/-! ## Stream elements -/

/-- Out of the faulted state, with ACC within its width, HDR_STORED_NOTLAST, HDR_STATIC_NOTLAST, HDR_STORED_LAST,
HDR_STATIC_LAST and EOB complete: they put the 3-bit fields 0, 2, 1, 3 and seven zero bits. The next state is the
whole of it: ACC, CNT and the emitted bytes are those of PUTBITS with that field, and nothing else changes. That an
element runs alone, that BUSY does not stop it and that it emits to `out` are the model's choices (log 1).
(30_encoding.md R84, 30_encoding.md R86, 40_bytecodec_bitwriter.md R124.) -/
def Obligations.HeadersAndEobPutTheirBits : Prop :=
  ∀ s : State, s.faulted = false → s.acc < 2 ^ s.params.accW →
    exec .hdrStoredNotlast s = .next (s.afterField 0 3) ∧
    exec .hdrStaticNotlast s = .next (s.afterField 2 3) ∧
    exec .hdrStoredLast s = .next (s.afterField 1 3) ∧
    exec .hdrStaticLast s = .next (s.afterField 3 3) ∧
    exec .eob s = .next (s.afterField 0 7)

/-- Out of the faulted state, with ACC within its width, LEN_257 to LEN_264 and LEN_285 complete: they put the code of
R94, its first bit lowest in the field. The next state is the whole of it: ACC, CNT and the emitted bytes are those of
PUTBITS with that field, and nothing else changes. That an element runs alone, that BUSY does not stop it and that it
emits to `out` are the model's choices (log 1). (30_encoding.md R94, 30_encoding.md R98, 40_bytecodec_bitwriter.md
R125.) -/
def Obligations.LengthSymbolsWithoutExtraPutTheirCode : Prop :=
  ∀ s : State, s.faulted = false → s.acc < 2 ^ s.params.accW →
    exec .len257 s = .next (s.afterField 64 7) ∧
    exec .len258 s = .next (s.afterField 32 7) ∧
    exec .len259 s = .next (s.afterField 96 7) ∧
    exec .len260 s = .next (s.afterField 16 7) ∧
    exec .len261 s = .next (s.afterField 80 7) ∧
    exec .len262 s = .next (s.afterField 48 7) ∧
    exec .len263 s = .next (s.afterField 112 7) ∧
    exec .len264 s = .next (s.afterField 8 7) ∧
    exec .len285 s = .next (s.afterField 163 8)

/-- Out of the faulted state, with ACC within its width, LEN_265 to LEN_284 complete for every extra-bits value (31 of
LEN_284 apart, which R94 excludes): they put the code of R94, its first bit lowest, and above it the extra bits. The
next state is the whole of it: ACC, CNT and the emitted bytes are those of PUTBITS with that field, and nothing else
changes. That an element runs alone, that BUSY does not stop it and that it emits to `out` are the model's choices
(log 1). (30_encoding.md R94, 30_encoding.md R98, 40_bytecodec_bitwriter.md R124, 40_bytecodec_bitwriter.md R125.) -/
def Obligations.LengthSymbolsWithExtraPutCodeAndExtra : Prop :=
  ∀ s : State, s.faulted = false → s.acc < 2 ^ s.params.accW →
    (∀ extra : BitVec 1, exec (.len265 extra) s = .next (s.afterField (72 + 2 ^ 7 * extra.toNat) 8)) ∧
    (∀ extra : BitVec 1, exec (.len266 extra) s = .next (s.afterField (40 + 2 ^ 7 * extra.toNat) 8)) ∧
    (∀ extra : BitVec 1, exec (.len267 extra) s = .next (s.afterField (104 + 2 ^ 7 * extra.toNat) 8)) ∧
    (∀ extra : BitVec 1, exec (.len268 extra) s = .next (s.afterField (24 + 2 ^ 7 * extra.toNat) 8)) ∧
    (∀ extra : BitVec 2, exec (.len269 extra) s = .next (s.afterField (88 + 2 ^ 7 * extra.toNat) 9)) ∧
    (∀ extra : BitVec 2, exec (.len270 extra) s = .next (s.afterField (56 + 2 ^ 7 * extra.toNat) 9)) ∧
    (∀ extra : BitVec 2, exec (.len271 extra) s = .next (s.afterField (120 + 2 ^ 7 * extra.toNat) 9)) ∧
    (∀ extra : BitVec 2, exec (.len272 extra) s = .next (s.afterField (4 + 2 ^ 7 * extra.toNat) 9)) ∧
    (∀ extra : BitVec 3, exec (.len273 extra) s = .next (s.afterField (68 + 2 ^ 7 * extra.toNat) 10)) ∧
    (∀ extra : BitVec 3, exec (.len274 extra) s = .next (s.afterField (36 + 2 ^ 7 * extra.toNat) 10)) ∧
    (∀ extra : BitVec 3, exec (.len275 extra) s = .next (s.afterField (100 + 2 ^ 7 * extra.toNat) 10)) ∧
    (∀ extra : BitVec 3, exec (.len276 extra) s = .next (s.afterField (20 + 2 ^ 7 * extra.toNat) 10)) ∧
    (∀ extra : BitVec 4, exec (.len277 extra) s = .next (s.afterField (84 + 2 ^ 7 * extra.toNat) 11)) ∧
    (∀ extra : BitVec 4, exec (.len278 extra) s = .next (s.afterField (52 + 2 ^ 7 * extra.toNat) 11)) ∧
    (∀ extra : BitVec 4, exec (.len279 extra) s = .next (s.afterField (116 + 2 ^ 7 * extra.toNat) 11)) ∧
    (∀ extra : BitVec 4, exec (.len280 extra) s = .next (s.afterField (3 + 2 ^ 8 * extra.toNat) 12)) ∧
    (∀ extra : BitVec 5, exec (.len281 extra) s = .next (s.afterField (131 + 2 ^ 8 * extra.toNat) 13)) ∧
    (∀ extra : BitVec 5, exec (.len282 extra) s = .next (s.afterField (67 + 2 ^ 8 * extra.toNat) 13)) ∧
    (∀ extra : BitVec 5, exec (.len283 extra) s = .next (s.afterField (195 + 2 ^ 8 * extra.toNat) 13)) ∧
    (∀ extra : BitVec 5, extra ≠ 31 → exec (.len284 extra) s = .next (s.afterField (35 + 2 ^ 8 * extra.toNat) 13))

/-- Out of the faulted state, with ACC within its width, DIST_0 to DIST_3 complete: they put the code of R96, its
first bit lowest in the field. The next state is the whole of it: ACC, CNT and the emitted bytes are those of PUTBITS
with that field, and nothing else changes. That an element runs alone, that BUSY does not stop it and that it emits to
`out` are the model's choices (log 1). (30_encoding.md R96, 30_encoding.md R98, 40_bytecodec_bitwriter.md R125.) -/
def Obligations.DistanceSymbolsWithoutExtraPutTheirCode : Prop :=
  ∀ s : State, s.faulted = false → s.acc < 2 ^ s.params.accW →
    exec .dist0 s = .next (s.afterField 0 5) ∧
    exec .dist1 s = .next (s.afterField 16 5) ∧
    exec .dist2 s = .next (s.afterField 8 5) ∧
    exec .dist3 s = .next (s.afterField 24 5)

/-- Out of the faulted state, with ACC within its width, DIST_4 to DIST_29 complete for every extra-bits value: they
put the code of R96, its first bit lowest, and above it the extra bits. The next state is the whole of it: ACC, CNT
and the emitted bytes are those of PUTBITS with that field, and nothing else changes. That an element runs alone, that
BUSY does not stop it and that it emits to `out` are the model's choices (log 1). (30_encoding.md R96, 30_encoding.md
R98, 40_bytecodec_bitwriter.md R124, 40_bytecodec_bitwriter.md R125.) -/
def Obligations.DistanceSymbolsWithExtraPutCodeAndExtra : Prop :=
  ∀ s : State, s.faulted = false → s.acc < 2 ^ s.params.accW →
    (∀ extra : BitVec 1, exec (.dist4 extra) s = .next (s.afterField (4 + 2 ^ 5 * extra.toNat) 6)) ∧
    (∀ extra : BitVec 1, exec (.dist5 extra) s = .next (s.afterField (20 + 2 ^ 5 * extra.toNat) 6)) ∧
    (∀ extra : BitVec 2, exec (.dist6 extra) s = .next (s.afterField (12 + 2 ^ 5 * extra.toNat) 7)) ∧
    (∀ extra : BitVec 2, exec (.dist7 extra) s = .next (s.afterField (28 + 2 ^ 5 * extra.toNat) 7)) ∧
    (∀ extra : BitVec 3, exec (.dist8 extra) s = .next (s.afterField (2 + 2 ^ 5 * extra.toNat) 8)) ∧
    (∀ extra : BitVec 3, exec (.dist9 extra) s = .next (s.afterField (18 + 2 ^ 5 * extra.toNat) 8)) ∧
    (∀ extra : BitVec 4, exec (.dist10 extra) s = .next (s.afterField (10 + 2 ^ 5 * extra.toNat) 9)) ∧
    (∀ extra : BitVec 4, exec (.dist11 extra) s = .next (s.afterField (26 + 2 ^ 5 * extra.toNat) 9)) ∧
    (∀ extra : BitVec 5, exec (.dist12 extra) s = .next (s.afterField (6 + 2 ^ 5 * extra.toNat) 10)) ∧
    (∀ extra : BitVec 5, exec (.dist13 extra) s = .next (s.afterField (22 + 2 ^ 5 * extra.toNat) 10)) ∧
    (∀ extra : BitVec 6, exec (.dist14 extra) s = .next (s.afterField (14 + 2 ^ 5 * extra.toNat) 11)) ∧
    (∀ extra : BitVec 6, exec (.dist15 extra) s = .next (s.afterField (30 + 2 ^ 5 * extra.toNat) 11)) ∧
    (∀ extra : BitVec 7, exec (.dist16 extra) s = .next (s.afterField (1 + 2 ^ 5 * extra.toNat) 12)) ∧
    (∀ extra : BitVec 7, exec (.dist17 extra) s = .next (s.afterField (17 + 2 ^ 5 * extra.toNat) 12)) ∧
    (∀ extra : BitVec 8, exec (.dist18 extra) s = .next (s.afterField (9 + 2 ^ 5 * extra.toNat) 13)) ∧
    (∀ extra : BitVec 8, exec (.dist19 extra) s = .next (s.afterField (25 + 2 ^ 5 * extra.toNat) 13)) ∧
    (∀ extra : BitVec 9, exec (.dist20 extra) s = .next (s.afterField (5 + 2 ^ 5 * extra.toNat) 14)) ∧
    (∀ extra : BitVec 9, exec (.dist21 extra) s = .next (s.afterField (21 + 2 ^ 5 * extra.toNat) 14)) ∧
    (∀ extra : BitVec 10, exec (.dist22 extra) s = .next (s.afterField (13 + 2 ^ 5 * extra.toNat) 15)) ∧
    (∀ extra : BitVec 10, exec (.dist23 extra) s = .next (s.afterField (29 + 2 ^ 5 * extra.toNat) 15)) ∧
    (∀ extra : BitVec 11, exec (.dist24 extra) s = .next (s.afterField (3 + 2 ^ 5 * extra.toNat) 16)) ∧
    (∀ extra : BitVec 11, exec (.dist25 extra) s = .next (s.afterField (19 + 2 ^ 5 * extra.toNat) 16)) ∧
    (∀ extra : BitVec 12, exec (.dist26 extra) s = .next (s.afterField (11 + 2 ^ 5 * extra.toNat) 17)) ∧
    (∀ extra : BitVec 12, exec (.dist27 extra) s = .next (s.afterField (27 + 2 ^ 5 * extra.toNat) 17)) ∧
    (∀ extra : BitVec 13, exec (.dist28 extra) s = .next (s.afterField (7 + 2 ^ 5 * extra.toNat) 18)) ∧
    (∀ extra : BitVec 13, exec (.dist29 extra) s = .next (s.afterField (23 + 2 ^ 5 * extra.toNat) 18))

/-! ## Housekeeping commands -/

/-- Not BUSY, RESET completes in every state, the faulted one included: the five registers become 0, nothing else
changes and no record is returned. (40_bytecodec_bitwriter.md R127.) -/
def Obligations.ResetClearsEverything : Prop :=
  ∀ s : State, s.busy = false →
    exec .reset s = .next { s with acc := 0, cnt := 0, status := 0, cause := 0, info := 0 }

/-- FINISH completes on a ready instance with a clean accumulator: it returns the one byte of the pending bits, zero-
padded, and leaves ACC and CNT 0; with CNT = 0 it returns the empty sequence and changes nothing else. In the faulted
state it is refused. (40_bytecodec_bitwriter.md R128.) -/
def Obligations.FinishPadsAndReturns : Prop :=
  ∀ s : State, (s.ready → s.carryClean →
      exec .finish s = .next { s with
        acc := 0, cnt := 0,
        results := s.results ++ [.bytes (if s.cnt = 0 then [] else [BitVec.ofNat 8 s.acc])] }) ∧
    (s.faulted = true → exec .finish s = .next s)

/-- On a ready instance RDACC completes: the record (ACC, CNT) is returned and no register changes. In the faulted
state it is refused. (40_bytecodec_bitwriter.md R129.) -/
def Obligations.RdaccReturnsTheAccumulator : Prop :=
  ∀ s : State, (s.ready → exec .rdacc s = .next { s with results := s.results ++ [.accumulator s.acc s.cnt] }) ∧
    (s.faulted = true → exec .rdacc s = .next s)

/-! ## The tokenizer -/

/-- On a ready instance with operands in range, TOKENIZE returns tokens that are those of the greedy scan under either
setting of TOK_OVERLAP, each field within 32 bits, and changes nothing else. (41_lz77_tokenizer.md R141.) -/
def Obligations.TokenizeIsGreedy : Prop :=
  ∀ (input : List Byte) (window lookahead minMatch : Nat) (s : State), s.ready →
    window ≤ 32768 → lookahead ≤ 258 → 3 ≤ minMatch → minMatch ≤ 258 →
    ∃ toks, exec (.tokenize input window lookahead minMatch) s = .next { s with results := s.results ++ [.tokens toks] } ∧
      GreedyFrom s.params.tokOverlap input window lookahead minMatch 0 toks

/-- On a ready instance with operands in range: the tokens TOKENIZE returns expand to the input exactly (so no Repeat
reaches before its start), every Repeat has 1 <= distance <= window and minMatch <= length <= lookahead, and there are
at most as many tokens as bytes; no register changes. (41_lz77_tokenizer.md R142.) -/
def Obligations.TokenizeReconstructsTheInput : Prop :=
  ∀ (input : List Byte) (window lookahead minMatch : Nat) (s t : State), s.ready →
    window ≤ 32768 → lookahead ≤ 258 → 3 ≤ minMatch → minMatch ≤ 258 →
    exec (.tokenize input window lookahead minMatch) s = .next t →
    ∃ toks, t = { s with results := s.results ++ [.tokens toks] } ∧ expand toks = some input ∧
      toks.length ≤ input.length ∧
      ∀ d l, Token.rep d l ∈ toks →
        1 ≤ d.toNat ∧ d.toNat ≤ min window 32768 ∧ minMatch ≤ l.toNat ∧ l.toNat ≤ min lookahead 258

/-- On a ready instance: window > 32768 raises E_BAD_PARAM with INFO 1; else lookahead > 258 with INFO 2; else
minMatch < 3 or > 258 with INFO 3; else TOKENIZE returns tokens and changes nothing else, only Literals when the
window is 0 or lookahead < minMatch. The operands' defaults are 32768, 258, 3. (41_lz77_tokenizer.md R140.) -/
def Obligations.TokenizeChecksItsBounds : Prop :=
  ∀ (input : List Byte) (window lookahead minMatch : Nat) (s : State), s.ready →
    ∃ t, exec (.tokenize input window lookahead minMatch) s = .next t ∧
      (if 32768 < window then FaultEntry 0x02#8 1 s t
       else if 258 < lookahead then FaultEntry 0x02#8 2 s t
       else if minMatch < 3 ∨ 258 < minMatch then FaultEntry 0x02#8 3 s t
       else ∃ toks, t = { s with results := s.results ++ [.tokens toks] } ∧
         (window = 0 ∨ lookahead < minMatch → toks = input.map Token.lit)) ∧
      ({ } : Operands).window = 32768 ∧ ({ } : Operands).lookahead = 258 ∧ ({ } : Operands).minMatch = 3

/-! ## The encoder -/

/-- On a ready instance with a clean accumulator and at most 65535 bytes, ENC_STORED completes: the first byte holds
the carry and the last-flag above it, a zero byte follows when 6 or 7 bits were pending, then LEN and its complement
in little-endian order and the bytes verbatim; ACC and CNT become 0 and nothing else changes. More than 65535 bytes
raise E_FORMAT_LIMIT with their number in INFO: no byte is returned and the block is not split.
(42_static_huffman_encoder.md R151, 30_encoding.md R85, 30_encoding.md R99, 60_exceptions.md R221.) -/
def Obligations.EncStoredEmitsTheBlock : Prop :=
  ∀ (lits : List Byte) (isLast : Bool) (s : State), s.ready →
    (65535 < lits.length →
      ∃ t, exec (.encStored lits isLast) s = .next t ∧ FaultEntry 0x05#8 (infoNat lits.length) s t) ∧
    (s.carryClean → lits.length ≤ 65535 → exec (.encStored lits isLast) s = .next { s with
      acc := 0, cnt := 0,
      results := s.results ++ [.bytes
        (BitVec.ofNat 8 (s.acc + isLast.toNat * 2 ^ s.cnt.toNat) :: (if s.cnt.toNat ≤ 5 then [] else [0x00#8]) ++
          [BitVec.ofNat 8 (lits.length % 256), BitVec.ofNat 8 (lits.length / 256),
           BitVec.ofNat 8 ((65535 - lits.length) % 256), BitVec.ofNat 8 ((65535 - lits.length) / 256)] ++ lits)] })

/-- On a ready instance with a clean accumulator and Repeats in range, ENC_STATIC completes: the bytes returned and
the bits left pending are the bits that were pending followed by the block's, zero-padded to a byte when isLast; so
with c bits pending and B in the block it returns (c+B) div 8 bytes, or ceil((c+B)/8), and leaves CNT = (c+B) mod 8,
or 0, with ACC = 0; nothing else changes. (42_static_huffman_encoder.md R153, 42_static_huffman_encoder.md R152,
42_static_huffman_encoder.md R150, 30_encoding.md R86, 30_encoding.md R90.) -/
def Obligations.EncStaticEmitsTheBlock : Prop :=
  ∀ (toks : List Token) (isLast : Bool) (s : State), s.ready → s.carryClean → (∀ t ∈ toks, legalToken t) →
    ∃ out t, exec (.encStatic toks isLast) s = .next t ∧
      t = { s with
        acc := 0, cnt := BitVec.ofNat 3 (if isLast then 0 else s.cnt.toNat + (blockBits toks isLast).length),
        results := s.results ++ [.bytes out] } ∧
      bitsOf out ++ t.carryBits = s.carryBits ++ blockBits toks isLast ++
        (if isLast then padding (s.cnt.toNat + (blockBits toks isLast).length) else []) ∧
      out.length = (s.cnt.toNat + (blockBits toks isLast).length + (if isLast then 7 else 0)) / 8

/-- On a ready instance with a clean accumulator, ENC_STATIC of Repeats in range with isLast = 0 returns the bytes,
and leaves the ACC and CNT, that header, length and distance symbols and EOB give when run one after the other (log 1
for running them alone). (42_static_huffman_encoder.md R153, 42_static_huffman_encoder.md R152, 30_encoding.md R86.)
-/
def Obligations.EncStaticIsItsElements : Prop :=
  ∀ (toks : List Token) (s : State), s.ready → s.carryClean → s.out = [] → (∀ t ∈ toks, legalToken t) →
    ∃ u, runElements (blockElements toks false) s = some u ∧
      exec (.encStatic toks false) s = .next { s with
        acc := u.acc, cnt := u.cnt, results := s.results ++ [.bytes u.out] }

/-- On a ready instance, the first token that is a Literal raises E_LITERAL_IN_STATIC, the first Repeat out of range
E_TOKEN_RANGE, whichever stands first, with its index in INFO; all tokens before it are legal.
(42_static_huffman_encoder.md R153, 60_exceptions.md R221, 60_exceptions.md R223.) -/
def Obligations.EncStaticRefusesTokens : Prop :=
  ∀ (before after : List Token) (tok : Token) (isLast : Bool) (s : State), s.ready →
    (∀ t ∈ before, legalToken t) → ¬ legalToken tok →
    ∃ t, exec (.encStatic (before ++ tok :: after) isLast) s = .next t ∧
      FaultEntry (if Token.isLit tok then 0x04#8 else 0x03#8) (infoNat before.length) s t

/-- On a ready instance with a clean accumulator, ENCODE of a non-empty sequence whose Repeats are in range and whose
runs of Literals have at most 65535 bytes completes, leaves ACC and CNT 0 and changes nothing else; of the empty
sequence it returns the empty sequence and leaves ACC and CNT as they are. (42_static_huffman_encoder.md R156,
42_static_huffman_encoder.md R159.) -/
def Obligations.EncodeCompletes : Prop :=
  ∀ (toks : List Token) (s : State), s.ready → s.carryClean → Encodable toks →
    (toks = [] → exec (.encode toks) s = .next { s with results := s.results ++ [.bytes []] }) ∧
    (toks ≠ [] → ∃ out, exec (.encode toks) s = .next { s with
      acc := 0, cnt := 0, results := s.results ++ [.bytes out] })

/-- On a ready instance with a clean accumulator, for encodable tokens split after their first maximal run: the block
of that run, isLast exactly when nothing follows, then ENCODE of the rest from the carry the block left, return
between them what ENCODE of the whole returns, and leave the same ACC and CNT. (42_static_huffman_encoder.md R156,
30_encoding.md R108.) -/
def Obligations.EncodeAlternatesBlocks : Prop :=
  ∀ (run rest : List Token) (s : State), s.ready → s.carryClean → Encodable (run ++ rest) → run ≠ [] →
    (∀ t ∈ run, ∀ u ∈ run, Token.isLit t = Token.isLit u) →
    (∀ t ∈ run, ∀ u ∈ rest.head?, Token.isLit t ≠ Token.isLit u) →
    ∃ block out u v,
      exec (if run.all Token.isLit then .encStored (run.map Token.byteOf) rest.isEmpty
            else .encStatic run rest.isEmpty) s = .next u ∧
      Returned [.bytes block] s u ∧ exec (.encode rest) u = .next v ∧ Returned [.bytes out] u v ∧
      exec (.encode (run ++ rest)) s = .next { s with
        acc := v.acc, cnt := v.cnt, results := s.results ++ [.bytes (block ++ out)] }

/-- On a ready instance with ACC = CNT = 0, the bytes ENCODE returns for a non-empty encodable sequence are a stream
of stored and static blocks that a checking decoder, which knows only the format, decodes to exactly the expansion of
the tokens (and rejects when a Repeat reaches before the start). (42_static_huffman_encoder.md R156, 30_encoding.md
R83, 30_encoding.md R85, 30_encoding.md R86, 30_encoding.md R101.) -/
def Obligations.EncodedStreamInflates : Prop :=
  ∀ (toks : List Token) (s t : State) (out : List Byte), s.ready → s.acc = 0 → s.cnt = 0 → Encodable toks → toks ≠ [] →
    exec (.encode toks) s = .next t → Returned [.bytes out] s t → inflate out = expand toks

/-- For a non-empty input: TOKENIZE with operands in range, then ENCODE of the tokens from an empty accumulator, gives
bytes that decode to the input exactly, whenever the tokens are encodable (no run of more than 65535 Literals).
(41_lz77_tokenizer.md R142, 42_static_huffman_encoder.md R156.) -/
def Obligations.TokenizeEncodeRoundTrip : Prop :=
  ∀ (input : List Byte) (window lookahead minMatch : Nat) (s t u : State) (toks : List Token) (out : List Byte),
    s.ready → s.acc = 0 → s.cnt = 0 → input ≠ [] → window ≤ 32768 → lookahead ≤ 258 → 3 ≤ minMatch → minMatch ≤ 258 →
    exec (.tokenize input window lookahead minMatch) s = .next t → Returned [.tokens toks] s t → Encodable toks →
    exec (.encode toks) t = .next u → Returned [.bytes out] t u → inflate out = some input

/-- On a ready instance: the first Repeat out of range raises E_TOKEN_RANGE with its index in ENCODE's own operand,
and a maximal run of n > 65535 Literals raises E_FORMAT_LIMIT with n, when every token and run before is in order; no
byte of any block is returned. (42_static_huffman_encoder.md R156, 60_exceptions.md R221, 60_exceptions.md R223.) -/
def Obligations.EncodeRefusesTokens : Prop :=
  ∀ (before after : List Token) (s : State), s.ready → Encodable before →
    (∀ d l, ¬ legalToken (.rep d l) →
      ∃ t, exec (.encode (before ++ .rep d l :: after)) s = .next t ∧ FaultEntry 0x03#8 (infoNat before.length) s t) ∧
    (∀ run : List Byte, 65535 < run.length → (∀ u ∈ before.getLast?, Token.isLit u = false) →
      (∀ u ∈ after.head?, Token.isLit u = false) →
      ∃ t, exec (.encode (before ++ run.map Token.lit ++ after)) s = .next t ∧
        FaultEntry 0x05#8 (infoNat run.length) s t)

/-- On a ready instance FIVE_BYTE_REPEAT of a Repeat in range completes and changes no register: with a the least
first half from 3 to L - 3 for which the static block of the two halves has 33 to 40 bits (exactly 40 under exact40),
it returns that block zero-padded to five bytes; when there is none it returns the empty sequence.
(42_static_huffman_encoder.md R158.) -/
def Obligations.FiveByteRepeatSplits : Prop :=
  ∀ (d l : U32) (s : State), s.ready → legalToken (.rep d l) →
    ∃ out, exec (.fiveByteRepeat (.rep d l)) s = .next { s with results := s.results ++ [.bytes out] } ∧
      let halves := fun a : Nat => blockBits [.rep d (BitVec.ofNat 32 a), .rep d (BitVec.ofNat 32 (l.toNat - a))] false
      let fits := fun a : Nat => 3 ≤ a ∧ a + 3 ≤ l.toNat ∧
        (if s.params.fiveByte = .ceil then 33 ≤ (halves a).length ∧ (halves a).length ≤ 40 else (halves a).length = 40)
      (∃ a, fits a ∧ (∀ b, fits b → a ≤ b) ∧ out.length = 5 ∧ bitsOf out = halves a ++ padding (halves a).length) ∨
        (out = [] ∧ ∀ a, ¬ fits a)

/-- On a ready instance a Literal raises E_LITERAL_IN_STATIC and a Repeat out of range E_TOKEN_RANGE, each with INFO
0. (42_static_huffman_encoder.md R158, 60_exceptions.md R221.) -/
def Obligations.FiveByteRepeatRefusesTokens : Prop :=
  ∀ (tok : Token) (s : State), s.ready → ¬ legalToken tok →
    ∃ t, exec (.fiveByteRepeat tok) s = .next t ∧ FaultEntry (if Token.isLit tok then 0x04#8 else 0x03#8) 0 s t

/-! ## The CRC unit -/

/-- On a ready instance CRC32 completes and changes no register: REV32 of the CRC it returns is the sum, modulo G, of
each byte reversed times x^(8(n-1-k)+32) and of F x^(8n), plus F. (43_crc32.md R173, 43_crc32.md R175, 43_crc32.md
R170.) -/
def Obligations.Crc32ReturnsTheRemainder : Prop :=
  ∀ (input : List Byte) (s : State), s.ready →
    ∃ crc, exec (.crc32 input) s = .next { s with results := s.results ++ [.crc crc] } ∧
      (rev32 crc).setWidth 64 =
        (List.range input.length).foldl (fun p k => p ^^^
          mulMod ((rev8 (input.getD k 0)).setWidth 64) (xPowMod (8 * (input.length - 1 - k) + 32))) 0 ^^^
        mulMod 0xFFFFFFFF#64 (xPowMod (8 * input.length)) ^^^ 0xFFFFFFFF#64

/-- On a ready instance CRC32_CONT completes and changes no register: under `finalised` its result on (b, CRC32(a)) is
CRC32(a ++ b) and CRC32(in) is its result on (in, 0); under `raw` it is CRC_UPDATE(prior, in) and CRC32(in) is its
result on (in, 0xFFFFFFFF) complemented; the empty sequence returns prior under both. (43_crc32.md R174.) -/
def Obligations.Crc32ContResumes : Prop :=
  ∀ (b : List Byte) (prior : U32) (s : State), s.ready →
    ∃ crc, exec (.crc32Cont b prior) s = .next { s with results := s.results ++ [.crc crc] } ∧
      (b = [] → crc = prior) ∧
      (s.params.crcCont = .finalised →
        crc = crcUpdate (prior ^^^ 0xFFFFFFFF#32) b ^^^ 0xFFFFFFFF#32 ∧
        (∀ a, prior = Machine.crc32 a → crc = Machine.crc32 (a ++ b)) ∧ (prior = 0 → crc = Machine.crc32 b)) ∧
      (s.params.crcCont = .raw →
        crc = crcUpdate prior b ∧ (prior = 0xFFFFFFFF#32 → Machine.crc32 b = crc ^^^ 0xFFFFFFFF#32))

/-! ## The polynomial unit -/

/-- On a ready instance, two operands of degrees m and n with m + n > 63 raise E_POLY_OVERFLOW with m + n in INFO; on
all other operands MULRAW completes with the exact carry-less product and changes no register. (44_gf2_poly.md R181.)
-/
def Obligations.MulrawIsTheProduct : Prop :=
  ∀ (a b : Poly) (s : State), s.ready →
    (∀ m n, IsDegree a m → IsDegree b n → 63 < m + n →
      ∃ t, exec (.mulraw a b) s = .next t ∧ FaultEntry 0x07#8 (BitVec.ofNat 64 (m + n)) s t) ∧
    ((∀ m n, IsDegree a m → IsDegree b n → m + n ≤ 63) →
      ∃ p, exec (.mulraw a b) s = .next { s with results := s.results ++ [.poly p] } ∧ p.toNat = exactProduct a b)

/-- On a ready instance a zero divisor raises E_DIV_ZERO with INFO 0; every other operand pair completes with q and r
such that a is the product of q and b plus r and r is 0 or of smaller degree than b, and no other pair has this; no
register changes. (44_gf2_poly.md R182.) -/
def Obligations.DivmodIsLongDivision : Prop :=
  ∀ (a b : Poly) (s : State), s.ready →
    (b = 0 → ∃ t, exec (.divmod a b) s = .next t ∧ FaultEntry 0x08#8 0 s t) ∧
    (b ≠ 0 → ∃ q r, exec (.divmod a b) s = .next { s with results := s.results ++ [.quotRem q r] } ∧
      exactProduct q b ^^^ r.toNat = a.toNat ∧ (∀ m n, IsDegree r m → IsDegree b n → m < n) ∧
      ∀ q' r' : Poly, exactProduct q' b ^^^ r'.toNat = a.toNat → (∀ m n, IsDegree r' m → IsDegree b n → m < n) →
        q' = q ∧ r' = r)

/-- On a ready instance XGCD completes on all operands and changes no register; its values are (a, 1, 0) for b = 0,
and for b not 0, with q and r the division of a by b and (g, s', t') the values for b and r, they are (g, t', s' plus
q times t'). (44_gf2_poly.md R183.) -/
def Obligations.XgcdFollowsTheRecursion : Prop :=
  ∀ (a b : Poly) (s : State), s.ready →
    exec (.xgcd a b) s = .next { s with results := s.results ++
      [.bezout (extendedGcd a b).1 (extendedGcd a b).2.1 (extendedGcd a b).2.2] } ∧
    (b = 0 → extendedGcd a b = (a, 1, 0)) ∧
    (b ≠ 0 → extendedGcd a b =
      ((extendedGcd b (divPair a b).2).1, (extendedGcd b (divPair a b).2).2.2,
        (extendedGcd b (divPair a b).2).2.1 ^^^ clmul (divPair a b).1 (extendedGcd b (divPair a b).2).2.2))

/-- For all operands the values g, s, t of XGCD satisfy s a plus t b = g exactly (products of unbounded width), and g
divides a and b: g is a greatest common divisor. (44_gf2_poly.md R183.) -/
def Obligations.XgcdIsBezout : Prop :=
  ∀ (a b : Poly) (s t' : State) (g x y : Poly), s.ready → exec (.xgcd a b) s = .next t' → Returned [.bezout g x y] s t' →
    exactProduct x a ^^^ exactProduct y b = g.toNat ∧ (∃ u, exactProduct g u = a.toNat) ∧ ∃ u, exactProduct g u = b.toNat

/-- On a ready instance an operand that G divides raises E_NOT_INVERTIBLE with INFO 0; every other completes with the
one element of degree below 32 whose product with the reduced operand is 1 modulo G; no register changes.
(44_gf2_poly.md R186.) -/
def Obligations.MinvIsTheInverse : Prop :=
  ∀ (a : Poly) (s : State), s.ready →
    ((divPair a Config.G).2 = 0 → ∃ t, exec (.minv a) s = .next t ∧ FaultEntry 0x09#8 0 s t) ∧
    ((divPair a Config.G).2 ≠ 0 → ∃ inv, exec (.minv a) s = .next { s with results := s.results ++ [.poly inv] } ∧
      inv.toNat < 2 ^ 32 ∧ mulMod inv (divPair a Config.G).2 = 1 ∧
      ∀ v : Poly, v.toNat < 2 ^ 32 → mulMod v (divPair a Config.G).2 = 1 → v = inv)

/-- On a ready instance a divisor that G divides raises E_NOT_INVERTIBLE with INFO 0; otherwise DIVIDE completes with
the one q of degree below 32 whose product with b mod G is a mod G; no register changes. (44_gf2_poly.md R187.) -/
def Obligations.DivideIsFieldDivision : Prop :=
  ∀ (a b : Poly) (s : State), s.ready →
    ((divPair b Config.G).2 = 0 → ∃ t, exec (.divide a b) s = .next t ∧ FaultEntry 0x09#8 0 s t) ∧
    ((divPair b Config.G).2 ≠ 0 → ∃ q, exec (.divide a b) s = .next { s with results := s.results ++ [.poly q] } ∧
      q.toNat < 2 ^ 32 ∧ mulMod q (divPair b Config.G).2 = (divPair a Config.G).2 ∧
      ∀ v : Poly, v.toNat < 2 ^ 32 → mulMod v (divPair b Config.G).2 = (divPair a Config.G).2 → v = q)

/-! ## The solver -/

/-- On a ready instance with slots that fit (listed ascending, log 10): when 1 + S is not 0, SOLVE_RANK1 completes and
changes no register; the buffer it returns equals the operand outside the slots, holds LE32 of the returned CRC in
every slot, and has that CRC; no other CRC is self-consistent. When 1 + S = 0 it raises E_NOT_INVERTIBLE with INFO 0.
(45_crc_solver.md R202, 45_crc_solver.md R203, 45_crc_solver.md R207.) -/
def Obligations.SolveRank1IsAFixedPoint : Prop :=
  ∀ (data : List Byte) (offsets : List Nat) (s : State), s.ready → SlotsFit data.length offsets →
    (1 ^^^ slotSum data.length offsets ≠ 0 →
      ∃ d c, exec (.solveRank1 data offsets) s = .next { s with results := s.results ++ [.solved d c] } ∧
        Machine.crc32 d = c ∧ d.length = data.length ∧ (∀ p, ¬ Covered offsets p → d[p]? = data[p]?) ∧
        (∀ o ∈ offsets, ∀ k < 4, d[o + k]? = some (c.extractLsb' (8 * k) 8)) ∧
        ∀ c', SelfConsistent data offsets c' → c' = c) ∧
    (1 ^^^ slotSum data.length offsets = 0 →
      ∃ t, exec (.solveRank1 data offsets) s = .next t ∧ FaultEntry 0x09#8 0 s t)

/-- For slots that fit: when 1 + S is not 0 exactly one CRC is self-consistent; when 1 + S = 0 and the CRC of the
buffer with zeroed slots is not 0, none is; when both are 0 every one is. (45_crc_solver.md R207.) -/
def Obligations.SelfConsistentCrcCount : Prop :=
  ∀ (data : List Byte) (offsets : List Nat), SlotsFit data.length offsets →
    (1 ^^^ slotSum data.length offsets ≠ 0 → ∃ c, ∀ c', SelfConsistent data offsets c' ↔ c' = c) ∧
    (1 ^^^ slotSum data.length offsets = 0 → rev32 (Machine.crc32 (fillSlots 0 offsets data)) ≠ 0 →
      ∀ c, ¬ SelfConsistent data offsets c) ∧
    (1 ^^^ slotSum data.length offsets = 0 → rev32 (Machine.crc32 (fillSlots 0 offsets data)) = 0 →
      ∀ c, SelfConsistent data offsets c)

/-- On a ready instance with maps that fit: when exactly one list of CRCs is that of the files completed with it,
SOLVE_SYSTEM completes with that list and changes no register; otherwise it raises E_RANK_DEFICIENT with the number k
of a column in INFO, the least k below N such that columns 0 to k of the matrix of R205 are linearly dependent over
the field: so the first column that is left without a pivot. (infoNat k is k for k below 2^64, log 8; maps are listed
ascending, log 10.) (45_crc_solver.md R204, 45_crc_solver.md R205, 45_crc_solver.md R207, 60_exceptions.md R221,
60_exceptions.md R223.) -/
def Obligations.SolveSystemSolvesTheFiles : Prop :=
  ∀ (files : List FileSpec) (s : State), s.ready → FilesFit files →
    (∀ crcs, Consistent files crcs → (∀ other, Consistent files other → other = crcs) →
      exec (.solveSystem files) s = .next { s with results := s.results ++ [.crcs crcs] }) ∧
    ((¬ ∃ crcs, Consistent files crcs ∧ ∀ other, Consistent files other → other = crcs) →
      ∃ k t, k < files.length ∧ ColumnsDependent files k ∧ (∀ j < k, ¬ ColumnsDependent files j) ∧
        exec (.solveSystem files) s = .next t ∧ FaultEntry 0x0A#8 (infoNat k) s t)

/-- On a ready instance with slots that fit, when some CRC is self-consistent BRUTEFORCE completes: the CRC returned
is self-consistent, the buffer returned holds it in every slot, FOUND becomes 1 and no other register changes. That
the CRC is the least self-consistent one of a lane's sub-range is the model's choice (log 6, DESIGN CHOICE): R206 also
allows any valid CRC, and R66 leaves open which; which lane is a free value (log 6). (45_crc_solver.md R206,
20_memory.md R66.) -/
def Obligations.BruteforceFindsAValidCrc : Prop :=
  ∀ (data : List Byte) (offsets : List Nat) (s : State), s.ready → SlotsFit data.length offsets →
    (∃ c, SelfConsistent data offsets c) →
    ∃ c w t, exec (.bruteforce data offsets) s = .next t ∧ SelfConsistent data offsets c ∧ w < s.params.lanes ∧
      w * 2 ^ 32 / s.params.lanes ≤ c.toNat ∧ c.toNat < (w + 1) * 2 ^ 32 / s.params.lanes ∧
      (∀ c' : U32, w * 2 ^ 32 / s.params.lanes ≤ c'.toNat → c'.toNat < c.toNat → ¬ SelfConsistent data offsets c') ∧
      t = { s with
        status := s.status ||| 0x08#8, results := s.results ++ [.searched (fillSlots c offsets data) c true],
        draws := t.draws }

/-- On a ready instance with slots that fit and no self-consistent CRC, BRUTEFORCE completes with CRC 0, zeroed slots
and found = 0; FOUND becomes 0, WARN becomes 1, and no other register changes: exhaustion is not a fault.
(45_crc_solver.md R206, 60_exceptions.md R230.) -/
def Obligations.BruteforceExhausts : Prop :=
  ∀ (data : List Byte) (offsets : List Nat) (s : State), s.ready → SlotsFit data.length offsets →
    (∀ c, ¬ SelfConsistent data offsets c) →
    exec (.bruteforce data offsets) s = .next { s with
      status := (s.status &&& 0xF7#8) ||| 0x04#8,
      results := s.results ++ [.searched (fillSlots 0 offsets data) 0 false] }

/-- On a ready instance, the first offset whose slot runs past the buffer or starts less than 4 above the offset
before it (for SOLVE_SYSTEM, or whose fileId is not below the number of files) raises E_BAD_OFFSET with the file's
index and the offset in INFO, in SOLVE_RANK1, BRUTEFORCE and SOLVE_SYSTEM alike. Offsets are listed ascending (log
10). An offset of 2^48 or more, or a file's index of 2^16 or more, leaves a free value in its field of INFO (log 8).
That BRUTEFORCE's fault leaves FOUND as it was is the model's reading (log 9, DEDUCED), where R26 could be read as
clearing it first. (45_crc_solver.md R201, 60_exceptions.md R221, 60_exceptions.md R223.) -/
def Obligations.SolversCheckOffsets : Prop :=
  ∀ s : State, s.ready →
    (∀ (data : List Byte) (before after : List Nat) (o : Nat), SlotsFit data.length before →
      (data.length < o + 4 ∨ ∃ p ∈ before.getLast?, o < p + 4) →
      (∃ t, exec (.solveRank1 data (before ++ o :: after)) s = .next t ∧ FaultEntry 0x06#8 (infoOffset 0 o) s t) ∧
      ∃ t, exec (.bruteforce data (before ++ o :: after)) s = .next t ∧ FaultEntry 0x06#8 (infoOffset 0 o) s t) ∧
    ∀ (fb fa : List FileSpec) (f : FileSpec) (before after : List (Nat × Nat)) (o j : Nat),
      f.slots = before ++ (o, j) :: after →
      (∀ g ∈ fb, SlotsFit g.data.length (g.slots.map Prod.fst) ∧ ∀ p ∈ g.slots, p.2 < (fb ++ f :: fa).length) →
      SlotsFit f.data.length (before.map Prod.fst) → (∀ p ∈ before, p.2 < (fb ++ f :: fa).length) →
      (f.data.length < o + 4 ∨ (∃ p ∈ before.getLast?, o < p.1 + 4) ∨ (fb ++ f :: fa).length ≤ j) →
      ∃ t, exec (.solveSystem (fb ++ f :: fa)) s = .next t ∧ FaultEntry 0x06#8 (infoOffset fb.length o) s t
end

