-- ==== Sys2Proof/Laws/BitWriter.lean ====
section
/-! SUPPORT. PUTBITS, PUTCODE and ALIGN in terms of the bits of the stream (40_bytecodec_bitwriter.md R124 to R126): each
appends its field to the bits already there and keeps the accumulator clean (10_state.md R24). -/

namespace Sys2Proof.Laws

open Sys2Proof.Machine

/-! ## Bits of numbers -/

@[simp] theorem length_bitsLsb (n : Nat) : ∀ v, (bitsLsb n v).length = n := by
  induction n with
  | zero => intro v; rfl
  | succ n ih => intro v; rw [bitsLsb, List.length_cons, ih]

theorem bitsLsb_add (m : Nat) : ∀ n v, bitsLsb (m + n) v = bitsLsb m v ++ bitsLsb n (v >>> m) := by
  induction m with
  | zero => intro n v; simp [bitsLsb]
  | succ m ih =>
    intro n v
    rw [show m + 1 + n = (m + n) + 1 by omega, bitsLsb, bitsLsb, ih, List.cons_append, Nat.add_comm m 1,
      Nat.shiftRight_add, Nat.shiftRight_one]

theorem bitsLsb_congr (n : Nat) : ∀ {v u : Nat}, (∀ i < n, v.testBit i = u.testBit i) → bitsLsb n v = bitsLsb n u := by
  induction n with
  | zero => intro v u _; rfl
  | succ n ih =>
    intro v u h
    rw [bitsLsb, bitsLsb, h 0 (by omega), ih fun i hi => ?_]
    rw [Nat.testBit_div_two, Nat.testBit_div_two]
    exact h (i + 1) (by omega)

theorem bitsLsb_mod (n v : Nat) {k : Nat} (h : n ≤ k) : bitsLsb n (v % 2 ^ k) = bitsLsb n v :=
  bitsLsb_congr n fun i hi => by rw [Nat.testBit_mod_two_pow]; simp [show i < k by omega]

theorem bitsLsb_zero (n : Nat) : bitsLsb n 0 = List.replicate n false := by
  induction n with
  | zero => rfl
  | succ n ih => rw [bitsLsb, ih]; rfl

/-- A field put above c pending bits: the pending bits, then the field. -/
theorem bitsLsb_or_shift {c acc : Nat} (n v : Nat) (h : acc < 2 ^ c) :
    bitsLsb (c + n) (acc ||| v <<< c) = bitsLsb c acc ++ bitsLsb n v := by
  rw [bitsLsb_add]
  congr 1
  · exact bitsLsb_congr c fun i hi => by
      rw [Nat.testBit_or, Nat.testBit_shiftLeft]; simp [show ¬ c ≤ i by omega]
  · exact bitsLsb_congr n fun i _ => by
      rw [Nat.testBit_shiftRight, Nat.testBit_or, Nat.testBit_shiftLeft,
        Nat.testBit_lt_two_pow (lt_of_lt_of_le h (Nat.pow_le_pow_right (by omega) (by omega)))]
      simp

theorem or_shift_lt {c acc n v : Nat} (h : acc < 2 ^ c) (hv : v < 2 ^ n) : acc ||| v <<< c < 2 ^ (c + n) := by
  apply Nat.or_lt_two_pow
  · exact lt_of_lt_of_le h (Nat.pow_le_pow_right (by omega) (by omega))
  · rw [Nat.shiftLeft_eq, Nat.pow_add, Nat.mul_comm (2 ^ c)]
    exact Nat.mul_lt_mul_of_pos_right hv (Nat.two_pow_pos _)

theorem bitsOf_append (a b : List Byte) : bitsOf (a ++ b) = bitsOf a ++ bitsOf b := by
  rw [bitsOf, List.flatMap_append]; rfl

theorem bitsOf_singleton (b : Byte) : bitsOf [b] = bitsLsb 8 b.toNat := by simp [bitsOf]

@[simp] theorem length_bitsOf (bs : List Byte) : (bitsOf bs).length = 8 * bs.length := by
  induction bs with
  | nil => rfl
  | cons b bs ih =>
    rw [show b :: bs = [b] ++ bs from rfl, bitsOf_append, List.length_append, ih, bitsOf_singleton, length_bitsLsb,
      List.length_append, List.length_singleton]
    omega

/-! ## The stream behind a BitWriter -/

/-- All the bits put so far: those of the bytes emitted, then the pending ones. -/
def stream (w : BitWriter) : List Bool := bitsOf w.out ++ bitsLsb w.cnt w.acc

/-- The accumulator holds its pending bits and no other, fewer than eight of them, in a register of at least 32 bits
(10_state.md R24). -/
structure Clean (w : BitWriter) : Prop where
  wide  : 32 ≤ w.width
  few   : w.cnt < 8
  clean : w.acc < 2 ^ w.cnt

theorem flushBytes_spec (k : Nat) : ∀ w : BitWriter, 8 * k ≤ w.cnt →
    stream (BitWriter.flushBytes k w) = stream w ∧
    (BitWriter.flushBytes k w).cnt = w.cnt - 8 * k ∧
    (BitWriter.flushBytes k w).acc = w.acc >>> (8 * k) ∧
    (BitWriter.flushBytes k w).width = w.width ∧
    (BitWriter.flushBytes k w).out.length = w.out.length + k := by
  induction k with
  | zero => intro w _; simp [BitWriter.flushBytes]
  | succ k ih =>
    intro w h
    obtain ⟨h1, h2, h3, h4, h5⟩ := ih w.flushByte (by simp only [BitWriter.flushByte]; omega)
    rw [BitWriter.flushBytes]
    refine ⟨h1.trans ?_, h2.trans ?_, h3.trans ?_, h4, h5.trans ?_⟩
    · obtain ⟨c, hc⟩ : ∃ c, w.cnt = 8 + c := ⟨w.cnt - 8, by omega⟩
      simp only [stream, BitWriter.flushByte]
      rw [hc, bitsLsb_add, Nat.add_sub_cancel_left, bitsOf_append, bitsOf_singleton, BitVec.toNat_ofNat,
        bitsLsb_mod _ _ (le_refl 8), List.append_assoc]
    · simp only [BitWriter.flushByte]; omega
    · simp only [BitWriter.flushByte]
      rw [← Nat.shiftRight_add, show 8 + 8 * k = 8 * (k + 1) by omega]
    · simp only [BitWriter.flushByte, List.length_append, List.length_singleton]; omega

/-- Everything PUTBITS does (R124), for a field that fits above the pending bits. -/
theorem putBits_spec {w : BitWriter} (hw : Clean w) {v n : Nat} (hn : n ≤ 16) (hv : v < 2 ^ n) :
    stream (w.putBits v n) = stream w ++ bitsLsb n v ∧ Clean (w.putBits v n) ∧
    (w.putBits v n).cnt = (w.cnt + n) % 8 ∧ (w.putBits v n).width = w.width ∧
    (w.putBits v n).acc = (w.acc ||| v <<< w.cnt) >>> (8 * ((w.cnt + n) / 8)) ∧
    (w.putBits v n).out.length = w.out.length + (w.cnt + n) / 8 := by
  obtain ⟨h32, h8, hc⟩ := hw
  have hlt := or_shift_lt hc hv
  have hmod : (w.acc ||| v <<< w.cnt) % 2 ^ w.width = w.acc ||| v <<< w.cnt :=
    Nat.mod_eq_of_lt (lt_of_lt_of_le hlt (Nat.pow_le_pow_right (by omega) (by omega)))
  obtain ⟨h1, h2, h3, h4, h5⟩ := flushBytes_spec ((w.cnt + n) / 8)
    { w with acc := (w.acc ||| (v <<< w.cnt)) % 2 ^ w.width, cnt := w.cnt + n } (by show _ ≤ w.cnt + n; omega)
  simp only [hmod] at h1 h2 h3 h4 h5
  have hcnt : (w.putBits v n).cnt = (w.cnt + n) % 8 := by
    rw [BitWriter.putBits, hmod]; exact h2.trans (by omega)
  have hacc : (w.putBits v n).acc = (w.acc ||| v <<< w.cnt) >>> (8 * ((w.cnt + n) / 8)) := by
    rw [BitWriter.putBits, hmod]; exact h3
  have hwid : (w.putBits v n).width = w.width := by rw [BitWriter.putBits, hmod]; exact h4
  refine ⟨?_, ⟨by rw [hwid]; exact h32, by rw [hcnt]; omega, ?_⟩, hcnt, hwid, hacc, ?_⟩
  · rw [BitWriter.putBits, hmod]
    refine h1.trans ?_
    simp only [stream]
    rw [bitsLsb_or_shift n v hc, List.append_assoc]
  · rw [hacc, hcnt, Nat.shiftRight_eq_div_pow]
    apply Nat.div_lt_of_lt_mul
    rw [← Nat.pow_add, show 8 * ((w.cnt + n) / 8) + (w.cnt + n) % 8 = w.cnt + n by omega]
    exact hlt
  · rw [BitWriter.putBits, hmod]; exact h5

/-- Two adjacent fields are one: the lower one's bits, then the higher one's. -/
theorem bitsLsb_two_fields {m v : Nat} (n u : Nat) (h : v < 2 ^ m) :
    bitsLsb (m + n) (v + 2 ^ m * u) = bitsLsb m v ++ bitsLsb n u := by
  rw [← bitsLsb_or_shift n u h, Nat.shiftLeft_eq, Nat.mul_comm u, Nat.add_comm v, Nat.two_pow_add_eq_or_of_lt h,
    Nat.lor_comm]

/-- Everything ALIGN does (R126): the padding, and an empty accumulator. -/
theorem align_spec {w : BitWriter} (hw : Clean w) :
    stream w.align = stream w ++ padding w.cnt ∧ Clean w.align ∧ w.align.cnt = 0 ∧ w.align.acc = 0 ∧
    w.align.width = w.width ∧ w.align.out.length = w.out.length + (w.cnt + 7) / 8 := by
  have hw' := hw
  obtain ⟨h32, h8, hc⟩ := hw
  unfold BitWriter.align
  by_cases h : 0 < w.cnt
  · rw [if_pos h]
    obtain ⟨h1, h2, h3, h4, -, h5⟩ := putBits_spec hw' (v := 0) (n := 8 - w.cnt) (by omega) (Nat.two_pow_pos _)
    have h0 : (w.putBits 0 (8 - w.cnt)).cnt = 0 := by rw [h3]; omega
    refine ⟨?_, h2, h0, ?_, h4, ?_⟩
    · rw [h1, bitsLsb_zero, padding, show (8 - w.cnt % 8) % 8 = 8 - w.cnt by omega]
    · have := h2.clean; rw [h0] at this; omega
    · rw [h5]; congr 1; omega
  · have h0 : w.cnt = 0 := by omega
    rw [if_neg h]
    refine ⟨?_, hw', h0, ?_, rfl, ?_⟩
    · rw [h0]; simp [padding]
    · rw [h0] at hc; omega
    · rw [h0]; rfl

/-! ## Codes -/

/-- The reversal of a code puts its most significant bit first (R122, R125). -/
theorem bitsLsb_revN : ∀ n ∈ [5, 7, 8], ∀ v < 2 ^ n, bitsLsb n (revN v n) = bitsMsb n v ∧ revN v n < 2 ^ n := by
  decide +kernel

end Sys2Proof.Laws
end

