-- ==== Sys2Proof/Laws/Gf2.lean ====
section
/-! SUPPORT. The polynomial unit's words as polynomials over GF(2): what xor, shift, the carry-less product, division and
the extended Euclidean recursion do (44_gf2_poly.md R181 to R184). -/

namespace Sys2Proof.Laws

open Sys2Proof.Machine Polynomial

/-- The polynomial a word stands for: bit i is the coefficient of x^i (00_scope.md R12). -/
noncomputable def polyOf {w : Nat} (a : BitVec w) : (ZMod 2)[X] :=
  ∑ i ∈ Finset.range w, if a.getLsbD i then X ^ i else 0

theorem coeff_polyOf {w : Nat} (a : BitVec w) (i : Nat) : (polyOf a).coeff i = if a.getLsbD i then 1 else 0 := by
  have h : ∀ j, (if a.getLsbD j then (X ^ j : (ZMod 2)[X]) else 0).coeff i = if i = j then (if a.getLsbD i then 1 else 0) else 0 := by
    intro j
    by_cases hij : i = j
    · subst hij; by_cases h : a.getLsbD i <;> simp [h]
    · by_cases h : a.getLsbD j <;> simp [h, coeff_X_pow, hij]
  simp only [polyOf, finsetSum_coeff, h, Finset.sum_ite_eq, Finset.mem_range]
  by_cases hi : i < w
  · simp [hi]
  · simp [hi, BitVec.getLsbD_of_ge a i (by omega)]

theorem polyOf_inj {w : Nat} {a b : BitVec w} (h : polyOf a = polyOf b) : a = b := by
  apply BitVec.eq_of_getLsbD_eq
  intro i hi
  have := congrArg (fun p => coeff p i) h
  simp only [coeff_polyOf] at this
  by_cases ha : a.getLsbD i <;> by_cases hb : b.getLsbD i <;> simp_all

theorem polyOf_zero {w : Nat} : polyOf (0 : BitVec w) = 0 := by
  ext i; simp [coeff_polyOf]

@[simp] theorem polyOf_ofNat_zero {w : Nat} : polyOf (0#w) = 0 := polyOf_zero

theorem polyOf_xor {w : Nat} (a b : BitVec w) : polyOf (a ^^^ b) = polyOf a + polyOf b := by
  ext i
  simp only [coeff_polyOf, coeff_add, BitVec.getLsbD_xor]
  by_cases ha : a.getLsbD i <;> by_cases hb : b.getLsbD i <;> simp [ha, hb]
  exact (by decide : (0 : ZMod 2) = 1 + 1)

theorem polyOf_eq_zero {w : Nat} {a : BitVec w} : polyOf a = 0 ↔ a = 0 :=
  ⟨fun h => polyOf_inj (h.trans polyOf_zero.symm), fun h => by subst h; exact polyOf_zero⟩

theorem char_two_self (p : (ZMod 2)[X]) : p + p = 0 := by
  have h : (2 : (ZMod 2)[X]) = 0 := by
    exact CharTwo.two_eq_zero
  rw [← two_mul, h, zero_mul]

/-- The degree of a non-zero word is the index of its highest set bit (00_scope.md R11). -/
theorem natDegree_polyOf {a : Poly} (h : a ≠ 0) : (polyOf a).natDegree = deg a := by
  have hn : a.toNat ≠ 0 := fun h0 => h (BitVec.eq_of_toNat_eq (by simpa using h0))
  apply natDegree_eq_of_le_of_coeff_ne_zero
  · rw [natDegree_le_iff_coeff_eq_zero]
    intro i hi
    rw [coeff_polyOf, BitVec.getLsbD, Nat.testBit_lt_two_pow]
    · simp
    · exact (Nat.log2_lt hn).1 (by simpa [deg] using hi)
  · rw [coeff_polyOf, BitVec.getLsbD, deg, Nat.testBit_log2 hn]
    simp

theorem deg_lt (a : Poly) : deg a < 64 := by
  by_cases h : a.toNat = 0
  · simp [deg, h]
  · exact (Nat.log2_lt h).2 a.isLt

theorem monic_polyOf {w : Nat} {a : BitVec w} (h : a ≠ 0) : (polyOf a).Monic := by
  have h0 : polyOf a ≠ 0 := fun h' => h (polyOf_eq_zero.1 h')
  have : (polyOf a).leadingCoeff ≠ 0 := leadingCoeff_ne_zero.2 h0
  rw [Monic]
  generalize (polyOf a).leadingCoeff = c at this
  revert this; revert c; decide

/-- A word shifted left without losing a bit is the polynomial times a power of x. -/
theorem polyOf_shiftLeft {w : Nat} (a : BitVec w) (s : Nat) (h : ∀ i, w ≤ i + s → a.getLsbD i = false) :
    polyOf (a <<< s) = polyOf a * X ^ s := by
  ext i
  rw [coeff_polyOf, coeff_mul_X_pow', BitVec.getLsbD_shiftLeft]
  by_cases hs : s ≤ i
  · by_cases hi : i < w
    · simp [hi, hs, coeff_polyOf, Nat.not_lt.2 hs]
    · have := h (i - s) (by omega)
      simp [hi, hs, coeff_polyOf, this]
  · simp [hs, Nat.lt_of_not_le hs]

theorem getLsbD_eq_false_of_deg_lt {a : Poly} {i : Nat} (h : deg a < i) : a.getLsbD i = false := by
  by_cases h0 : a = 0
  · simp [h0]
  · by_contra hb
    have := le_natDegree_of_ne_zero (p := polyOf a) (n := i) (by simp [coeff_polyOf, hb])
    rw [natDegree_polyOf h0] at this; omega

theorem polyOf_shiftLeft_deg {a : Poly} {s : Nat} (h : deg a + s < 64) : polyOf (a <<< s) = polyOf a * X ^ s :=
  polyOf_shiftLeft a s fun _ hi => getLsbD_eq_false_of_deg_lt (by omega)

theorem polyOf_one : polyOf (1 : Poly) = 1 := by
  ext i
  rw [coeff_polyOf, coeff_one]
  by_cases h : i = 0
  · subst h; simp
  · have : (1#64).getLsbD i = false := by
      rw [BitVec.getLsbD_one]; simp [h]
    simp [h, this]

theorem polyOf_one_shiftLeft {s : Nat} (h : s < 64) : polyOf ((1 : Poly) <<< s) = X ^ s := by
  rw [polyOf_shiftLeft_deg (by rw [show deg 1 = 0 from by decide]; omega), polyOf_one, one_mul]

/-! ## The carry-less product -/

/-- MULRAW's loop (R181) gives the product when its degree fits the register. -/
theorem polyOf_clmul {a b : Poly} (h : a = 0 ∨ b = 0 ∨ deg a + deg b ≤ 63) :
    polyOf (clmul a b) = polyOf a * polyOf b := by
  have key : ∀ n ≤ 64, ∀ acc : Poly,
      polyOf ((List.range n).foldl (fun p i => if b.getLsbD i then p ^^^ (a <<< i) else p) acc)
        = polyOf acc + polyOf a * ∑ i ∈ Finset.range n, if b.getLsbD i then X ^ i else 0 := by
    intro n hn
    induction n with
    | zero => intro acc; simp
    | succ n ih =>
      intro acc
      rw [List.range_succ, List.foldl_append, Finset.sum_range_succ, mul_add, ← add_assoc]
      simp only [List.foldl_cons, List.foldl_nil]
      rw [← ih (by omega) acc]
      by_cases hb : b.getLsbD n
      · simp only [hb, if_true]
        rw [polyOf_xor]
        congr 1
        rcases h with h | h | h
        · rw [h]; simp
        · simp [h] at hb
        · apply polyOf_shiftLeft_deg
          have : ¬ deg b < n := fun h' => by simp [getLsbD_eq_false_of_deg_lt h'] at hb
          omega
      · simp [hb]
  have := key 64 (le_refl _) 0
  rw [polyOf_zero, zero_add] at this
  exact this

/-! ## Division -/

/-- The top bit of two words of the same degree cancels. -/
theorem deg_xor_lt {a b : Poly} (ha : a ≠ 0) (hb : b ≠ 0) (h : deg a = deg b) (hx : a ^^^ b ≠ 0) :
    deg (a ^^^ b) < deg a := by
  rw [← natDegree_polyOf hx, ← natDegree_polyOf ha, polyOf_xor]
  have hd : (polyOf a).degree = (polyOf b).degree := by
    rw [degree_eq_natDegree (polyOf_eq_zero.not.2 ha), degree_eq_natDegree (polyOf_eq_zero.not.2 hb),
      natDegree_polyOf ha, natDegree_polyOf hb, h]
  have hsub : polyOf a + polyOf b = polyOf a - polyOf b := by
    rw [sub_eq_add_neg, ← add_right_inj (polyOf b), eq_comm]
    have := char_two_self (polyOf b)
    rw [← add_left_inj (polyOf b)] at this
    have hneg : -polyOf b = polyOf b := by
      rw [neg_eq_iff_add_eq_zero]; exact char_two_self _
    rw [hneg]
  have hlt := degree_sub_lt_left hd (polyOf_eq_zero.not.2 ha)
    (by rw [(monic_polyOf ha).leadingCoeff, (monic_polyOf hb).leadingCoeff])
  rw [← hsub] at hlt
  have hne : polyOf a + polyOf b ≠ 0 := by rw [← polyOf_xor]; exact polyOf_eq_zero.not.2 hx
  exact natDegree_lt_natDegree hne hlt

theorem shiftLeft_ne_zero {b : Poly} {s : Nat} (hb : b ≠ 0) (h : deg b + s < 64) : b <<< s ≠ 0 := by
  intro h0
  have := polyOf_shiftLeft_deg h
  rw [h0] at this
  have h2 : polyOf b * X ^ s = 0 := by rw [← this]; exact polyOf_zero
  rcases mul_eq_zero.1 h2 with h3 | h3
  · exact hb (polyOf_eq_zero.1 h3)
  · exact (pow_ne_zero _ X_ne_zero) h3

theorem deg_shiftLeft {b : Poly} {s : Nat} (hb : b ≠ 0) (h : deg b + s < 64) : deg (b <<< s) = deg b + s := by
  rw [← natDegree_polyOf (shiftLeft_ne_zero hb h), polyOf_shiftLeft_deg h,
    natDegree_mul_X_pow _ (polyOf_eq_zero.not.2 hb), natDegree_polyOf hb]

/-- What the division loop (R182) keeps and what it ends with, given turns enough. -/
theorem divLoop_spec {b : Poly} (hb : b ≠ 0) : ∀ (fuel : Nat) (q r : Poly), (r ≠ 0 → deg r < fuel) →
    polyOf (divLoop b fuel q r).1 * polyOf b + polyOf (divLoop b fuel q r).2 = polyOf q * polyOf b + polyOf r ∧
      ((divLoop b fuel q r).2 = 0 ∨ deg (divLoop b fuel q r).2 < deg b) := by
  intro fuel
  induction fuel with
  | zero =>
    intro q r h
    have : r = 0 := by by_contra h0; exact absurd (h h0) (by omega)
    simp [divLoop, this]
  | succ fuel ih =>
    intro q r h
    rw [divLoop]
    split
    · next hc =>
      obtain ⟨hr, hd⟩ := hc
      have hs : deg b + (deg r - deg b) < 64 := by have := deg_lt r; omega
      have heq : deg (b <<< (deg r - deg b)) = deg r := by rw [deg_shiftLeft hb hs]; omega
      have := ih (q ^^^ ((1 : Poly) <<< (deg r - deg b))) (r ^^^ (b <<< (deg r - deg b))) (by
        intro hx
        have h1 := deg_xor_lt hr (shiftLeft_ne_zero hb hs) heq.symm hx
        have := h hr
        omega)
      refine ⟨this.1.trans ?_, this.2⟩
      rw [polyOf_xor, polyOf_xor, polyOf_shiftLeft_deg hs, polyOf_one_shiftLeft (by omega)]
      have hz := char_two_self (polyOf b * X ^ (deg r - deg b))
      linear_combination hz
    · next hc =>
      refine ⟨by dsimp only, ?_⟩
      by_cases hr : r = 0
      · exact .inl hr
      · exact .inr (by simp only [not_and] at hc; have := hc hr; dsimp only; omega)

/-- DIVMOD (R182): a = q * b + r with r = 0 or deg(r) < deg(b). -/
theorem divPair_spec {a b : Poly} (hb : b ≠ 0) :
    polyOf (divPair a b).1 * polyOf b + polyOf (divPair a b).2 = polyOf a ∧
      ((divPair a b).2 = 0 ∨ deg (divPair a b).2 < deg b) := by
  have h := divLoop_spec hb 64 0 a fun _ => deg_lt a
  unfold divPair
  rw [polyOf_zero, zero_mul, zero_add] at h
  exact h

/-- The quotient's degree: 0 when the dividend is of smaller degree, else the difference. -/
theorem divPair_quotient_deg {a b : Poly} (hb : b ≠ 0) (hq : (divPair a b).1 ≠ 0) :
    a ≠ 0 ∧ deg (divPair a b).1 + deg b = deg a := by
  obtain ⟨h, hr⟩ := divPair_spec (a := a) hb
  have hqb : polyOf (divPair a b).1 * polyOf b ≠ 0 := mul_ne_zero (polyOf_eq_zero.not.2 hq) (polyOf_eq_zero.not.2 hb)
  have hdeg : (polyOf (divPair a b).2).degree < (polyOf (divPair a b).1 * polyOf b).degree := by
    rcases hr with hr | hr
    · rw [hr, polyOf_zero, degree_zero]; exact bot_lt_iff_ne_bot.2 (degree_ne_bot.2 hqb)
    · by_cases h0 : (divPair a b).2 = 0
      · rw [h0, polyOf_zero, degree_zero]; exact bot_lt_iff_ne_bot.2 (degree_ne_bot.2 hqb)
      · rw [degree_eq_natDegree (polyOf_eq_zero.not.2 h0), degree_eq_natDegree hqb,
          natDegree_mul (polyOf_eq_zero.not.2 hq) (polyOf_eq_zero.not.2 hb), natDegree_polyOf h0, natDegree_polyOf hq,
          natDegree_polyOf hb]
        exact_mod_cast (by omega)
  have hd := degree_add_eq_left_of_degree_lt hdeg
  rw [h] at hd
  have ha : a ≠ 0 := by
    intro h0
    rw [polyOf_eq_zero.2 h0, degree_zero] at hd
    exact hqb (degree_eq_bot.1 hd.symm)
  refine ⟨ha, ?_⟩
  have := natDegree_eq_of_degree_eq hd
  rw [natDegree_mul (polyOf_eq_zero.not.2 hq) (polyOf_eq_zero.not.2 hb), natDegree_polyOf ha, natDegree_polyOf hq,
    natDegree_polyOf hb] at this
  omega

end Sys2Proof.Laws
end

