-- ==== Sys2Proof/Laws/Field.lean ====
section
/-! SUPPORT. The extended Euclidean recursion (44_gf2_poly.md R183) and the field of R180: G is irreducible, so division
modulo G has one answer. -/

namespace Sys2Proof.Laws

open Sys2Proof.Machine Polynomial

/-- natDegree and deg agree on every word: both are 0 on 0. -/
theorem natDegree_polyOf' (a : Poly) : (polyOf a).natDegree = deg a := by
  by_cases h : a = 0
  · subst h; rw [polyOf_zero, natDegree_zero]; decide
  · exact natDegree_polyOf h

theorem deg_xor_le (a b : Poly) : deg (a ^^^ b) ≤ max (deg a) (deg b) := by
  rw [← natDegree_polyOf', ← natDegree_polyOf', ← natDegree_polyOf', polyOf_xor]
  exact natDegree_add_le _ _

theorem deg_clmul_le {a b : Poly} (h : a = 0 ∨ b = 0 ∨ deg a + deg b ≤ 63) : deg (clmul a b) ≤ deg a + deg b := by
  rw [← natDegree_polyOf', ← natDegree_polyOf', ← natDegree_polyOf', polyOf_clmul h]
  exact natDegree_mul_le

theorem clmul_eq_zero {a b : Poly} (h : a = 0 ∨ b = 0) : clmul a b = 0 := by
  apply polyOf_eq_zero.1
  rcases h with h | h
  · rw [polyOf_clmul (.inl h), polyOf_eq_zero.2 h, zero_mul]
  · rw [polyOf_clmul (.inr (.inl h)), polyOf_eq_zero.2 h, mul_zero]

/-- What the recursion of `xgcd` gives (R183): a Bezout identity, a common divisor, and coefficients small enough that no
product overflows. -/
theorem xgcdRec_spec : ∀ (fuel : Nat) (a b : Poly), (b ≠ 0 → deg b < fuel) →
    polyOf (xgcdRec fuel a b).2.1 * polyOf a + polyOf (xgcdRec fuel a b).2.2 * polyOf b = polyOf (xgcdRec fuel a b).1 ∧
    polyOf (xgcdRec fuel a b).1 ∣ polyOf a ∧ polyOf (xgcdRec fuel a b).1 ∣ polyOf b ∧
    (b ≠ 0 → (xgcdRec fuel a b).2.1 ≠ 0 → deg (xgcdRec fuel a b).2.1 + deg (xgcdRec fuel a b).1 < deg b) ∧
    (b ≠ 0 → deg b < deg a → deg (xgcdRec fuel a b).2.2 + deg (xgcdRec fuel a b).1 < deg a) := by
  intro fuel
  induction fuel with
  | zero =>
    intro a b h
    have hb : b = 0 := by by_contra h0; exact absurd (h h0) (by omega)
    subst hb
    refine ⟨?_, dvd_rfl, ?_, fun h => absurd rfl h, fun h => absurd rfl h⟩
    · simp only [xgcdRec]; rw [polyOf_one, polyOf_zero, one_mul, mul_zero, add_zero]
    · rw [polyOf_zero]; exact dvd_zero _
  | succ fuel ih =>
    intro a b h
    by_cases hb : b = 0
    · subst hb
      refine ⟨?_, ?_, ?_, fun h => absurd rfl h, fun h => absurd rfl h⟩
      · rw [xgcdRec, if_pos rfl]; dsimp only; rw [polyOf_one, polyOf_zero, one_mul, mul_zero, add_zero]
      · rw [xgcdRec, if_pos rfl]
      · rw [polyOf_zero]; exact dvd_zero _
    · obtain ⟨hdiv, hr⟩ := divPair_spec (a := a) hb
      have hqd := divPair_quotient_deg (a := a) hb
      generalize hq : (divPair a b).1 = q at *
      generalize hrr : (divPair a b).2 = r at *
      have hrd : r ≠ 0 → deg r < deg b := fun h0 => hr.resolve_left h0
      obtain ⟨hbez, hga, hgb, hS, hT⟩ := ih b r (fun h0 => by have := hrd h0; have := h hb; omega)
      have hstep : xgcdRec (fuel + 1) a b = ((xgcdRec fuel b r).1, (xgcdRec fuel b r).2.2,
          (xgcdRec fuel b r).2.1 ^^^ clmul q (xgcdRec fuel b r).2.2) := by
        rw [xgcdRec]; simp only [hb, if_false, hq, hrr]
      have hbase : r = 0 → xgcdRec fuel b r = (b, 1, 0) := by
        intro h0; subst h0; cases fuel <;> simp [xgcdRec]
      rw [hstep]
      generalize hs' : (xgcdRec fuel b r).2.1 = s' at *
      generalize ht' : (xgcdRec fuel b r).2.2 = t' at *
      generalize hg' : (xgcdRec fuel b r).1 = g at *
      dsimp only
      have ht'0 : r = 0 → t' = 0 := fun h0 => by rw [← ht', hbase h0]
      have hs'0 : r = 0 → s' = 1 := fun h0 => by rw [← hs', hbase h0]
      have hg0 : r = 0 → g = b := fun h0 => by rw [← hg', hbase h0]
      have hT' : t' ≠ 0 → deg t' + deg g < deg b := by
        intro h0
        have hr0 : r ≠ 0 := fun h1 => h0 (ht'0 h1)
        exact hT hr0 (hrd hr0)
      have hfit : q = 0 ∨ t' = 0 ∨ deg q + deg t' ≤ 63 := by
        by_cases h1 : q = 0
        · exact .inl h1
        · by_cases h2 : t' = 0
          · exact .inr (.inl h2)
          · have := (hqd h1).2; have := hT' h2; have := deg_lt a; exact .inr (.inr (by omega))
      refine ⟨?_, ?_, hga, fun _ h0 => hT' h0, ?_⟩
      · rw [polyOf_xor, polyOf_clmul hfit, ← hbez, ← hdiv]
        have hz := char_two_self (polyOf q * polyOf t' * polyOf b)
        linear_combination hz
      · rw [← hdiv]
        exact dvd_add (Dvd.dvd.mul_left hga _) hgb
      · intro _ hlt
        have hle := deg_xor_le s' (clmul q t')
        have h1 : deg s' + deg g < deg a := by
          by_cases h0 : r = 0
          · rw [hs'0 h0, hg0 h0, show deg 1 = 0 from by decide]; omega
          · by_cases h3 : s' = 0
            · rw [h3, show deg 0 = 0 from by decide]
              have hgne : polyOf g ∣ polyOf b := hga
              have := natDegree_le_of_dvd hgne (polyOf_eq_zero.not.2 hb)
              rw [natDegree_polyOf', natDegree_polyOf'] at this
              omega
            · have := hS h0 h3; have := hrd h0; omega
        have h2 : deg (clmul q t') + deg g < deg a := by
          by_cases h3 : q = 0 ∨ t' = 0
          · rw [clmul_eq_zero h3, show deg 0 = 0 from by decide]
            have := natDegree_le_of_dvd hga (polyOf_eq_zero.not.2 hb)
            rw [natDegree_polyOf', natDegree_polyOf'] at this
            omega
          · have h4 : q ≠ 0 ∧ t' ≠ 0 := not_or.1 h3
            have := deg_clmul_le hfit; have := (hqd h4.1).2; have := hT' h4.2
            omega
        omega

/-- XGCD (R183) on any two words. -/
theorem extendedGcd_spec (a b : Poly) :
    polyOf (extendedGcd a b).2.1 * polyOf a + polyOf (extendedGcd a b).2.2 * polyOf b = polyOf (extendedGcd a b).1 ∧
    polyOf (extendedGcd a b).1 ∣ polyOf a ∧ polyOf (extendedGcd a b).1 ∣ polyOf b ∧
    (b ≠ 0 → (extendedGcd a b).2.1 ≠ 0 → deg (extendedGcd a b).2.1 + deg (extendedGcd a b).1 < deg b) := by
  obtain ⟨h1, h2, h3, h4, _⟩ := xgcdRec_spec 64 a b fun _ => deg_lt b
  exact ⟨h1, h2, h3, h4⟩

/-! ## The residues modulo G -/

theorem G_ne_zero : Config.G ≠ 0 := by decide

theorem deg_G : deg Config.G = 32 := by decide

/-- The generator as a polynomial. -/
noncomputable def Gp : (ZMod 2)[X] := polyOf Config.G

theorem modG_spec (a : Poly) : (∃ q, polyOf a = q * Gp + polyOf (modG a)) ∧ deg (modG a) < 32 := by
  obtain ⟨h, hr⟩ := divPair_spec (a := a) G_ne_zero
  unfold modG Gp
  refine ⟨⟨_, h.symm⟩, ?_⟩
  rcases hr with hr | hr
  · rw [hr]; decide
  · rw [deg_G] at hr; exact hr

/-- A word's residue modulo G, in the quotient ring. -/
noncomputable def residue {w : Nat} (a : BitVec w) : AdjoinRoot Gp := AdjoinRoot.mk Gp (polyOf a)

theorem residue_xor {w : Nat} (a b : BitVec w) : residue (a ^^^ b) = residue a + residue b := by
  rw [residue, polyOf_xor, map_add]; rfl

theorem residue_zero {w : Nat} : residue (0 : BitVec w) = 0 := by rw [residue, polyOf_zero, map_zero]

theorem residue_one : residue (1 : Poly) = 1 := by rw [residue, polyOf_one, map_one]

theorem residue_modG (a : Poly) : residue (modG a) = residue a := by
  obtain ⟨q, hq⟩ := (modG_spec a).1
  rw [residue, residue, hq, map_add, map_mul, AdjoinRoot.mk_self, mul_zero, zero_add]

/-- MULMOD (R184) multiplies residues, for operands of degree below 32. -/
theorem residue_mulMod {a b : Poly} (ha : deg a < 32) (hb : deg b < 32) :
    residue (mulMod a b) = residue a * residue b := by
  rw [mulMod, residue_modG, residue, polyOf_clmul (.inr (.inr (by omega))), map_mul]; rfl

theorem deg_mulMod (a b : Poly) : deg (mulMod a b) < 32 := (modG_spec _).2

theorem Gp_monic : Gp.Monic := monic_polyOf G_ne_zero

theorem natDegree_Gp : Gp.natDegree = 32 := by rw [Gp, natDegree_polyOf', deg_G]

theorem neg_eq_self (p : (ZMod 2)[X]) : -p = p := by
  rw [neg_eq_iff_add_eq_zero]; exact char_two_self p

/-- A residue has one representative of degree below 32. -/
theorem residue_inj {a b : Poly} (ha : deg a < 32) (hb : deg b < 32) (h : residue a = residue b) : a = b := by
  rw [residue, residue, AdjoinRoot.mk_eq_mk, sub_eq_add_neg, neg_eq_self, ← polyOf_xor] at h
  by_contra hne
  have hx : a ^^^ b ≠ 0 := fun h0 => hne (BitVec.xor_eq_zero_iff.1 h0)
  have := natDegree_le_of_dvd h (polyOf_eq_zero.not.2 hx)
  rw [natDegree_Gp, natDegree_polyOf'] at this
  have := deg_xor_le a b
  omega

/-! ## G is irreducible (R180) -/

/-- x^(2^d) mod G by d squarings. -/
def frobWord : Nat → Poly
  | 0 => 0x2
  | d + 1 => mulMod (frobWord d) (frobWord d)

theorem frobWord_spec : ∀ d, deg (frobWord d) < 32 ∧ residue (frobWord d) = (AdjoinRoot.root Gp) ^ (2 ^ d) := by
  intro d
  induction d with
  | zero =>
    refine ⟨by decide, ?_⟩
    have h : polyOf (frobWord 0) = X := by
      have := polyOf_one_shiftLeft (s := 1) (by decide)
      rw [pow_one] at this
      exact this
    rw [residue, h, AdjoinRoot.mk_X, pow_zero, pow_one]
  | succ d ih =>
    refine ⟨deg_mulMod _ _, ?_⟩
    rw [frobWord, residue_mulMod ih.1 ih.1, ih.2, ← pow_add, pow_succ, mul_two]

/-- No polynomial of degree 1 to 16 over GF(2) has a root of x^(2^d) - x in common with G: the certificates. -/
theorem frobWord_coprime : ∀ d ∈ List.range' 1 16, (extendedGcd (frobWord d ^^^ 0x2) Config.G).1 = 1 := by
  decide +kernel

theorem Gp_coprime {d : Nat} (h1 : 1 ≤ d) (h2 : d ≤ 16) : IsCoprime (X ^ (2 ^ d) - X) Gp := by
  obtain ⟨hbez, -, -, -⟩ := extendedGcd_spec (frobWord d ^^^ 0x2) Config.G
  rw [frobWord_coprime d (by simp; omega), polyOf_one] at hbez
  have hx : polyOf (0x2 : Poly) = X := by
    have := polyOf_one_shiftLeft (s := 1) (by decide)
    rw [pow_one] at this
    exact this
  have hf := (frobWord_spec d).2
  rw [residue, ← AdjoinRoot.mk_X, ← map_pow, AdjoinRoot.mk_eq_mk] at hf
  obtain ⟨c, hc⟩ := hf
  rw [polyOf_xor, hx] at hbez
  have hpf : polyOf (frobWord d) = X ^ (2 ^ d) + Gp * c := by rw [← hc]; ring
  rw [hpf] at hbez
  refine ⟨polyOf (extendedGcd (frobWord d ^^^ 0x2) Config.G).2.1, polyOf (extendedGcd (frobWord d ^^^ 0x2) Config.G).2.2 +
    polyOf (extendedGcd (frobWord d ^^^ 0x2) Config.G).2.1 * c, ?_⟩
  rw [sub_eq_add_neg, neg_eq_self, ← hbez]
  change _ = _ + _ * Gp
  ring

/-- G is irreducible over GF(2) (44_gf2_poly.md R180). -/
theorem Gp_irreducible : Irreducible Gp := by
  have hne : Gp ≠ 1 := fun h => by have := natDegree_Gp; rw [h, natDegree_one] at this; omega
  rw [Gp_monic.irreducible_iff_lt_natDegree_lt hne, natDegree_Gp]
  intro q hq hd hdvd
  rw [Finset.mem_Ioc] at hd
  have hu : ¬ IsUnit q := fun h => by have := natDegree_eq_zero_of_isUnit h; omega
  obtain ⟨p, hp, hpq⟩ := WfDvdMonoid.exists_irreducible_factor hu hq.ne_zero
  have hle := natDegree_le_of_dvd hpq hq.ne_zero
  have hpos := hp.natDegree_pos
  have hfrob : p ∣ X ^ (2 ^ p.natDegree) - X := by
    have := hp.natDegree_dvd_iff_dvd_X_pow_card_pow_sub_X.1 (dvd_refl p.natDegree)
    rwa [Nat.card_zmod] at this
  exact hp.not_isUnit ((Gp_coprime (by omega) (by omega)).isUnit_of_dvd' hfrob (hpq.trans hdvd))

theorem residue_eq_zero {a : Poly} (h : deg a < 32) : residue a = 0 ↔ a = 0 :=
  ⟨fun h' => residue_inj h (by decide) (h'.trans residue_zero.symm), fun h' => by rw [h', residue_zero]⟩

/-! ## Inverse and division (R186, R187) -/

/-- MINV (R186): below degree 32, and the inverse of the operand modulo G; it fails exactly on the zero residue. -/
theorem modInverse_spec (a : Poly) :
    (residue a = 0 ∧ modInverse a = .error ⟨.notInvertible, 0⟩) ∨
    (residue a ≠ 0 ∧ ∃ inv, modInverse a = .ok inv ∧ deg inv < 32 ∧ residue inv * residue a = 1) := by
  unfold modInverse
  by_cases h0 : modG a = 0
  · refine .inl ⟨?_, by rw [if_pos h0]⟩
    rw [← residue_modG, h0, residue_zero]
  · have hne : residue a ≠ 0 := fun h => h0 ((residue_eq_zero (modG_spec a).2).1 (by rw [residue_modG, h]))
    refine .inr ⟨hne, _, by rw [if_neg h0], ?_⟩
    obtain ⟨hbez, hga, hgG, hS⟩ := extendedGcd_spec (modG a) Config.G
    generalize (extendedGcd (modG a) Config.G).2.2 = t at *
    generalize (extendedGcd (modG a) Config.G).2.1 = s at *
    generalize (extendedGcd (modG a) Config.G).1 = g at *
    have hg1 : polyOf g = 1 := by
      have hgne : g ≠ 0 := by
        intro h; rw [h, polyOf_zero] at hgG
        exact G_ne_zero (polyOf_eq_zero.1 (zero_dvd_iff.1 hgG))
      rcases (Gp_irreducible.dvd_iff).1 hgG with h | h
      · exact (monic_polyOf hgne).eq_one_of_isUnit h
      · exfalso
        have h1 := natDegree_le_of_dvd hga (polyOf_eq_zero.not.2 h0)
        have h2 : (polyOf g).natDegree = 32 := by
          rw [← natDegree_Gp]; exact (natDegree_eq_of_degree_eq (degree_eq_degree_of_associated h)).symm
        rw [h2, natDegree_polyOf'] at h1
        have := (modG_spec a).2
        omega
    constructor
    · by_cases hs : s = 0
      · rw [hs]; decide
      · have := hS G_ne_zero hs; rw [deg_G] at this; omega
    · rw [← residue_modG a, residue, residue, ← map_mul, ← map_one (AdjoinRoot.mk Gp), AdjoinRoot.mk_eq_mk]
      refine ⟨polyOf t, ?_⟩
      rw [← hg1, ← hbez]
      change _ = polyOf Config.G * _
      have := char_two_self (polyOf t * polyOf Config.G)
      linear_combination (-1) * this

/-- DIVIDE (R187): below degree 32, and the quotient in the field; it fails exactly on a zero divisor. -/
theorem fieldDivide_spec (a b : Poly) :
    (residue b = 0 ∧ fieldDivide a b = .error ⟨.notInvertible, 0⟩) ∨
    (residue b ≠ 0 ∧ ∃ u, fieldDivide a b = .ok u ∧ deg u < 32 ∧ residue u * residue b = residue a) := by
  rcases modInverse_spec b with ⟨h, he⟩ | ⟨h, inv, he, hd, hi⟩
  · exact .inl ⟨h, by rw [fieldDivide, he]; rfl⟩
  · refine .inr ⟨h, mulMod (modG a) inv, by rw [fieldDivide, he]; rfl, deg_mulMod _ _, ?_⟩
    rw [residue_mulMod (modG_spec a).2 hd, residue_modG, mul_assoc, hi, mul_one]

/-- XPOWMOD (R185). -/
theorem powLoop_spec : ∀ (fuel : Nat) (x : Poly) (k : Nat) (r : Poly), deg x < 32 → deg r < 32 → k < 2 ^ fuel →
    deg (powLoop fuel x k r) < 32 ∧ residue (powLoop fuel x k r) = residue r * residue x ^ k := by
  intro fuel
  induction fuel with
  | zero =>
    intro x k r hx hr hk
    have : k = 0 := by simpa using hk
    subst this
    exact ⟨hr, by rw [powLoop, pow_zero, mul_one]⟩
  | succ fuel ih =>
    intro x k r hx hr hk
    rw [powLoop]
    have hk' : k / 2 < 2 ^ fuel := by rw [pow_succ] at hk; omega
    have hr' : deg (if k % 2 = 1 then mulMod r x else r) < 32 := by split; exacts [deg_mulMod _ _, hr]
    obtain ⟨h1, h2⟩ := ih (mulMod x x) (k / 2) _ (deg_mulMod _ _) hr' hk'
    refine ⟨h1, h2.trans ?_⟩
    rw [residue_mulMod hx hx, ← sq, ← pow_mul]
    split
    · next h => rw [residue_mulMod hr hx, mul_assoc, ← pow_succ']; congr 2; omega
    · next h => congr 2; omega

theorem residue_x : residue (0x2 : Poly) = AdjoinRoot.root Gp := by
  have := (frobWord_spec 0).2
  rw [pow_zero, pow_one] at this
  exact this

/-- XPOWMOD(k) is x^k modulo G, of degree below 32 (R185). -/
theorem xPowMod_spec (k : Nat) : deg (xPowMod k) < 32 ∧ residue (xPowMod k) = AdjoinRoot.root Gp ^ k := by
  have h := powLoop_spec (k.log2 + 1) 0x2 k 1 (by decide) (by decide) Nat.lt_log2_self
  rw [residue_one, one_mul, residue_x] at h
  exact h

end Sys2Proof.Laws
end

