-- ==== Sys2Proof/Laws/Slots.lean ====
section
/-! SUPPORT. What writing the slots of a buffer does to each byte, and what the offset check grants
(45_crc_solver.md R200, R201). -/

namespace Sys2Proof.Laws

open Sys2Proof.Machine

@[simp] theorem length_writeBytes (bs : List Byte) : ∀ (o : Nat) (d : List Byte), (writeBytes bs o d).length = d.length := by
  induction bs with
  | nil => intro o d; rfl
  | cons b bs ih => intro o d; rw [writeBytes, ih, List.length_set]

/-- MemWrite (00_scope.md R11) changes exactly the bytes it writes. -/
theorem getElem?_writeBytes (bs : List Byte) : ∀ (o : Nat) (d : List Byte) (p : Nat),
    (writeBytes bs o d)[p]? = if o ≤ p ∧ p < o + bs.length ∧ p < d.length then bs[p - o]? else d[p]? := by
  induction bs with
  | nil => intro o d p; simp only [writeBytes, List.length_nil]; rw [if_neg (by omega)]
  | cons b bs ih =>
    intro o d p
    rw [writeBytes, ih, List.length_set, List.getElem?_set]
    simp only [List.length_cons]
    by_cases h1 : o + 1 ≤ p ∧ p < o + 1 + bs.length ∧ p < d.length
    · rw [if_pos h1, if_pos (by omega), show p - o = (p - (o + 1)) + 1 by omega, List.getElem?_cons_succ]
    · rw [if_neg h1]
      by_cases h2 : o = p
      · subst h2
        by_cases h3 : o < d.length
        · simp [h3]
        · simp [h3]
      · rw [if_neg h2, if_neg (by omega)]

@[simp] theorem length_le32 (c : U32) : (le32 c).length = 4 := rfl

@[simp] theorem length_fillSlots (c : U32) (offs : List Nat) : ∀ d, (fillSlots c offs d).length = d.length := by
  induction offs with
  | nil => intro d; rfl
  | cons o offs ih => intro d; exact (ih _).trans (length_writeBytes _ _ _)

/-- Filling the slots leaves every other byte as it was. -/
theorem getElem?_fillSlots_of_not_covered {c : U32} {offs : List Nat} : ∀ {d : List Byte} {p : Nat}, ¬ Covered offs p →
    (fillSlots c offs d)[p]? = d[p]? := by
  induction offs with
  | nil => intro d p _; rfl
  | cons o offs ih =>
    intro d p h
    have h1 : ¬ Covered offs p := fun ⟨o', ho', hp⟩ => h ⟨o', List.mem_cons_of_mem _ ho', hp⟩
    have h2 : ¬ (o ≤ p ∧ p < o + 4) := fun hp => h ⟨o, List.mem_cons_self, hp⟩
    refine (ih h1).trans ?_
    rw [getElem?_writeBytes, if_neg (by simp only [length_le32]; omega)]

/-- What the slots held before does not matter (45_crc_solver.md R201). -/
theorem fillSlots_congr {c : U32} {offs : List Nat} : ∀ {d d' : List Byte}, d.length = d'.length →
    (∀ p, ¬ Covered offs p → d[p]? = d'[p]?) → fillSlots c offs d = fillSlots c offs d' := by
  induction offs with
  | nil =>
    intro d d' _ h
    exact List.ext_getElem? fun p => h p fun ⟨o, ho, _⟩ => by simp at ho
  | cons o offs ih =>
    intro d d' hl h
    refine ih (by simp [hl]) fun p hp => ?_
    rw [getElem?_writeBytes, getElem?_writeBytes, hl]
    split
    · rfl
    · next hn =>
      by_cases h1 : p < d'.length
      · refine h p ?_
        rintro ⟨o', ho', hp'⟩
        rcases List.mem_cons.1 ho' with rfl | ho'
        · exact hn ⟨hp'.1, by simpa using hp'.2, h1⟩
        · exact hp ⟨o', ho', hp'⟩
      · rw [List.getElem?_eq_none (by omega), List.getElem?_eq_none (by omega)]

theorem fillSlots_fillSlots (c c' : U32) (offs : List Nat) (d : List Byte) :
    fillSlots c offs (fillSlots c' offs d) = fillSlots c offs d :=
  fillSlots_congr (length_fillSlots _ _ _) fun _ h => getElem?_fillSlots_of_not_covered h

theorem firstBadSlot_none {n nFiles : Nat} : ∀ {slots : List (Nat × Nat)} {prev : Option Nat},
    firstBadSlot n nFiles prev slots = none →
    SlotsFit n (slots.map Prod.fst) ∧ (∀ p ∈ slots, p.2 < nFiles) ∧ (∀ q ∈ prev, ∀ p ∈ slots, q + 4 ≤ p.1) := by
  intro slots
  induction slots with
  | nil => intro prev _; simp [SlotsFit]
  | cons s slots ih =>
    obtain ⟨o, j⟩ := s
    intro prev h
    rw [firstBadSlot] at h
    split at h
    · simp at h
    · next hc =>
      obtain ⟨⟨h1, h2⟩, h3, h4⟩ := ih h
      simp only [not_or, Nat.not_lt, Nat.not_le] at hc
      have h5 : ∀ p ∈ slots, o + 4 ≤ p.1 := fun p hp => h4 o rfl p hp
      refine ⟨⟨?_, ?_⟩, ?_, ?_⟩
      · simp only [List.map_cons, List.mem_cons, forall_eq_or_imp]
        exact ⟨hc.1, h1⟩
      · simp only [List.map_cons, List.pairwise_cons]
        refine ⟨?_, h2⟩
        intro a ha
        obtain ⟨p, hp, rfl⟩ := List.mem_map.1 ha
        exact h5 p hp
      · simp only [List.mem_cons, forall_eq_or_imp]
        exact ⟨hc.2.2, h3⟩
      · intro q hq p hp
        have hqo : q + 4 ≤ o := by
          have := hc.2.1
          rw [Option.mem_def.1 hq] at this
          simpa using this
        rcases List.mem_cons.1 hp with rfl | hp
        · exact hqo
        · have := h5 p hp; omega

/-- The offset check of SOLVE_RANK1 and BRUTEFORCE passes only on slots that fit. -/
theorem checkOffsets_none {n : Nat} {offs : List Nat} (h : checkOffsets n offs = none) : SlotsFit n offs := by
  rw [checkOffsets, Option.map_eq_none_iff] at h
  have := (firstBadSlot_none h).1
  rwa [List.map_map, show Prod.fst ∘ (fun o : Nat => (o, 0)) = id from rfl, List.map_id] at this

/-- A slot holds LE32(c) after filling (20_memory.md R51). -/
theorem getElem?_fillSlots_of_mem {n : Nat} {c : U32} {offs : List Nat} : ∀ {d : List Byte}, d.length = n → SlotsFit n offs →
    ∀ o ∈ offs, ∀ k < 4, (fillSlots c offs d)[o + k]? = (le32 c)[k]? := by
  induction offs with
  | nil => intro d _ _ o ho; simp at ho
  | cons a offs ih =>
    intro d hd hfit o ho k hk
    obtain ⟨hin, hpw⟩ := hfit
    rw [List.pairwise_cons] at hpw
    have hfit' : SlotsFit n offs := ⟨fun o ho => hin o (List.mem_cons_of_mem _ ho), hpw.2⟩
    rcases List.mem_cons.1 ho with rfl | ho
    · have : ¬ Covered offs (o + k) := by
        rintro ⟨o', ho', hp⟩
        have := hpw.1 o' ho'
        omega
      refine (getElem?_fillSlots_of_not_covered this).trans ?_
      have := hin o List.mem_cons_self
      rw [getElem?_writeBytes, if_pos (by simp only [length_le32]; omega), Nat.add_sub_cancel_left]
    · exact ih (by simp [hd]) hfit' o ho k hk

end Sys2Proof.Laws
end

