-- ==== Sys2Proof/Laws/CrcAlgebra.lean ====
section
/-! SUPPORT. CRC-32 as linear algebra over GF(2) modulo G: 43_crc32.md R175 and 45_crc_solver.md R200. -/

namespace Sys2Proof.Laws

open Sys2Proof.Machine Polynomial

/-! ## REV32 between the two bit orders -/

theorem getLsbD_toMath (c : U32) (i : Nat) : (toMath c).getLsbD i = (decide (i < 32) && c.getLsbD (31 - i)) := by
  rw [toMath, rev32, BitVec.getLsbD_setWidth, BitVec.getLsbD_reverse, BitVec.getMsbD]
  by_cases h : i < 32
  · simp [h, show i < 64 by omega]
  · simp [h]

theorem toMath_xor (a b : U32) : toMath (a ^^^ b) = toMath a ^^^ toMath b := by
  apply BitVec.eq_of_getLsbD_eq
  intro i _
  simp only [BitVec.getLsbD_xor, getLsbD_toMath]
  by_cases h : i < 32 <;> simp [h]

theorem deg_lt_of_getLsbD {a : Poly} {n : Nat} (hn : 0 < n) (h : ∀ i, n ≤ i → a.getLsbD i = false) : deg a < n := by
  by_cases h0 : a = 0
  · subst h0; rw [show deg 0 = 0 from by decide]; exact hn
  · by_contra hc
    have h1 := h (deg a) (by omega)
    have h2 := natDegree_polyOf h0
    have h3 : (polyOf a).coeff (deg a) = 1 := by
      rw [← h2]; exact monic_polyOf h0
    rw [coeff_polyOf, h1] at h3
    simp at h3

theorem deg_toMath (c : U32) : deg (toMath c) < 32 :=
  deg_lt_of_getLsbD (by omega) fun i hi => by rw [getLsbD_toMath]; simp [Nat.not_lt.2 hi]

theorem toImpl_toMath (c : U32) : toImpl (toMath c) = c := by
  apply BitVec.eq_of_getLsbD_eq
  intro i hi
  rw [toImpl, rev32, BitVec.getLsbD_reverse, BitVec.getMsbD]
  simp only [hi, decide_true, Bool.true_and]
  rw [BitVec.getLsbD_setWidth, getLsbD_toMath]
  have h1 : 32 - 1 - i < 32 := by omega
  simp [h1, show 31 - (31 - i) = i by omega]

theorem toMath_toImpl {u : Poly} (h : deg u < 32) : toMath (toImpl u) = u := by
  apply BitVec.eq_of_getLsbD_eq
  intro i _
  rw [getLsbD_toMath]
  by_cases hi : i < 32
  · rw [toImpl, rev32, BitVec.getLsbD_reverse, BitVec.getMsbD]
    simp only [show 31 - i < 32 by omega, hi, decide_true, Bool.true_and]
    rw [BitVec.getLsbD_setWidth]
    simp [show 31 - (31 - i) = i by omega, hi]
  · simp [hi, getLsbD_eq_false_of_deg_lt (show deg u < i by omega)]

/-- The residue of a CRC value: its polynomial in the "mathematical" order. -/
noncomputable def rc (c : U32) : AdjoinRoot Gp := residue (toMath c)

theorem rc_xor (a b : U32) : rc (a ^^^ b) = rc a + rc b := by simp only [rc, toMath_xor, residue_xor]

theorem rc_zero : rc 0 = 0 := by
  have h : toMath 0 = 0 := by decide +kernel
  simp only [rc, h, residue_zero]

theorem rc_inj {a b : U32} (h : rc a = rc b) : a = b := by
  have := residue_inj (deg_toMath a) (deg_toMath b) h
  rw [← toImpl_toMath a, this, toImpl_toMath]

theorem add_self_residue (x : AdjoinRoot Gp) : x + x = 0 := by
  obtain ⟨p, rfl⟩ := AdjoinRoot.mk_surjective x
  rw [← map_add, char_two_self, map_zero]

/-! ## One byte of the CRC is a multiplication by x^8 -/

/-- A right shift that loses only zeros is a multiplication by a power of x. -/
theorem polyOf_toMath_shiftRight {c : U32} {k : Nat} (h : ∀ i < k, c.getLsbD i = false) :
    polyOf (toMath (c >>> k)) = polyOf (toMath c) * X ^ k := by
  ext i
  rw [coeff_polyOf, coeff_mul_X_pow', getLsbD_toMath, BitVec.getLsbD_ushiftRight]
  by_cases hk : k ≤ i
  · rw [if_pos hk, coeff_polyOf, getLsbD_toMath]
    by_cases hi : i < 32
    · simp [hi, show i - k < 32 by omega, show k + (31 - i) = 31 - (i - k) by omega]
    · by_cases h2 : i - k < 32
      · simp [hi, h2, h (31 - (i - k)) (by omega)]
      · simp [hi, h2]
  · rw [if_neg hk]
    have : c.getLsbD (k + (31 - i)) = false ∨ ¬ i < 32 := by
      by_cases hi : i < 32
      · left; exact BitVec.getLsbD_of_ge _ _ (by omega)
      · exact .inr hi
    rcases this with h | h <;> simp [h]

theorem rc_shiftRight {c : U32} {k : Nat} (h : ∀ i < k, c.getLsbD i = false) :
    rc (c >>> k) = rc c * AdjoinRoot.root Gp ^ k := by
  rw [rc, residue, polyOf_toMath_shiftRight h, map_mul, map_pow, AdjoinRoot.mk_X]; rfl

/-- x^32 is G without its top bit, modulo G: the reflected polynomial. -/
theorem rc_reflected : rc Config.reflected = AdjoinRoot.root Gp ^ 32 := by
  have h := (xPowMod_spec 32).2
  rw [show xPowMod 32 = toMath Config.reflected from by decide +kernel] at h
  exact h

theorem rc_one : rc 1 = AdjoinRoot.root Gp ^ 31 := by
  have h := (xPowMod_spec 31).2
  rw [show xPowMod 31 = toMath 1 from by decide +kernel] at h
  exact h

/-- One step of the table's generation multiplies by x (43_crc32.md R171). -/
theorem rc_crcStep (c : U32) : rc (crcStep c) = rc c * AdjoinRoot.root Gp := by
  unfold crcStep
  by_cases h : c.getLsbD 0
  · rw [if_pos h]
    have hsplit : c = (c ^^^ 1) ^^^ 1 := by rw [BitVec.xor_assoc, BitVec.xor_self, BitVec.xor_zero]
    have hshift : c >>> 1 = (c ^^^ 1) >>> 1 := by
      apply BitVec.eq_of_getLsbD_eq
      intro i _
      rw [BitVec.getLsbD_ushiftRight, BitVec.getLsbD_ushiftRight, BitVec.getLsbD_xor]
      have : (1#32).getLsbD (1 + i) = false := by rw [BitVec.getLsbD_one]; simp
      simp [this]
    have hlow : ∀ i < 1, (c ^^^ 1).getLsbD i = false := by
      intro i hi
      have : i = 0 := by omega
      subst this
      rw [BitVec.getLsbD_xor, h]; decide
    rw [hshift, rc_xor, rc_shiftRight hlow, rc_reflected, pow_one]
    conv_rhs => rw [hsplit, rc_xor, add_mul, rc_one, ← pow_succ]
  · rw [if_neg h, rc_shiftRight, pow_one]
    intro i hi
    have : i = 0 := by omega
    subst this
    simpa using h

theorem rc_crcTable (i : Byte) : rc (crcTable i) = rc (i.setWidth 32) * AdjoinRoot.root Gp ^ 8 := by
  unfold crcTable
  simp only [rc_crcStep]
  ring

/-- One byte of CRC_UPDATE (43_crc32.md R172). -/
theorem rc_crcByte (r : U32) (b : Byte) :
    rc (crcByte r b) = (rc r + rc (b.setWidth 32)) * AdjoinRoot.root Gp ^ 8 := by
  have hsplit : r ^^^ b.setWidth 32
      = ((r ^^^ b.setWidth 32).setWidth 8).setWidth 32 ^^^ ((r >>> 8) <<< 8) := by
    apply BitVec.eq_of_getLsbD_eq
    intro i hi
    simp only [BitVec.getLsbD_xor, BitVec.getLsbD_setWidth, BitVec.getLsbD_shiftLeft, BitVec.getLsbD_ushiftRight, hi,
      decide_true, Bool.true_and]
    by_cases h8 : i < 8
    · simp [h8]
    · simp [h8, show 8 + (i - 8) = i by omega, BitVec.getLsbD_of_ge b i (by omega)]
  have hback : r >>> 8 = ((r >>> 8) <<< 8) >>> 8 := by
    apply BitVec.eq_of_getLsbD_eq
    intro i hi
    simp only [BitVec.getLsbD_shiftLeft, BitVec.getLsbD_ushiftRight]
    by_cases h : 8 + i < 32
    · simp [h]
    · simp [h, BitVec.getLsbD_of_ge r (8 + i) (by omega)]
  have hlow : ∀ i < 8, ((r >>> 8) <<< 8).getLsbD i = false := by
    intro i hi
    rw [BitVec.getLsbD_shiftLeft]; simp [hi]
  rw [crcByte, rc_xor, rc_crcTable]
  conv_lhs => rw [hback]
  rw [rc_shiftRight hlow, ← add_mul, ← rc_xor, ← hsplit, rc_xor]

/-! ## A whole sequence -/

/-- The contribution of a byte sequence: byte k of n is worth x^(8(n-k)) (43_crc32.md R175). -/
noncomputable def seqValue : List Byte → AdjoinRoot Gp
  | [] => 0
  | b :: bs => rc (b.setWidth 32) * AdjoinRoot.root Gp ^ (8 * (bs.length + 1)) + seqValue bs

theorem rc_crcUpdate (m : List Byte) : ∀ r : U32,
    rc (crcUpdate r m) = rc r * AdjoinRoot.root Gp ^ (8 * m.length) + seqValue m := by
  induction m with
  | nil => intro r; simp [crcUpdate, seqValue]
  | cons b m ih =>
    intro r
    have : crcUpdate r (b :: m) = crcUpdate (crcByte r b) m := rfl
    rw [this, ih, rc_crcByte, seqValue, List.length_cons]
    ring

/-- CRC32 in the field (43_crc32.md R175). -/
theorem rc_crc32 (m : List Byte) :
    rc (crc32 m) = rc Config.crcInit * AdjoinRoot.root Gp ^ (8 * m.length) + seqValue m + rc Config.crcXorOut := by
  rw [crc32, rc_xor, rc_crcUpdate]

theorem seqValue_set (m : List Byte) : ∀ (o : Nat) (b : Byte) (h : o < m.length),
    seqValue (m.set o b) = seqValue m + (rc (b.setWidth 32) + rc ((m[o]).setWidth 32)) *
      AdjoinRoot.root Gp ^ (8 * (m.length - o)) := by
  induction m with
  | nil => intro o b h; simp at h
  | cons a m ih =>
    intro o b h
    cases o with
    | zero =>
      simp only [List.set_cons_zero, seqValue, List.getElem_cons_zero, List.length_cons, Nat.sub_zero]
      have := add_self_residue (rc (a.setWidth 32) * AdjoinRoot.root Gp ^ (8 * (m.length + 1)))
      linear_combination -this
    | succ o =>
      simp only [List.set_cons_succ, seqValue, List.length_set, List.getElem_cons_succ, List.length_cons,
        Nat.add_sub_add_right]
      rw [ih o b (by simpa using h)]
      ring

/-- Four bytes in little-endian order are worth the word (45_crc_solver.md R200). -/
theorem rc_le32 (c : U32) {m : Nat} (hm : 4 ≤ m) :
    rc ((c.extractLsb' 0 8).setWidth 32) * AdjoinRoot.root Gp ^ (8 * m) +
    rc ((c.extractLsb' 8 8).setWidth 32) * AdjoinRoot.root Gp ^ (8 * (m - 1)) +
    rc ((c.extractLsb' 16 8).setWidth 32) * AdjoinRoot.root Gp ^ (8 * (m - 2)) +
    rc ((c.extractLsb' 24 8).setWidth 32) * AdjoinRoot.root Gp ^ (8 * (m - 3)) = rc c * AdjoinRoot.root Gp ^ (8 * m) := by
  have part : ∀ k, k ≤ 3 → rc ((c.extractLsb' (8 * k) 8).setWidth 32) * AdjoinRoot.root Gp ^ (8 * (m - k)) =
      rc (((c.extractLsb' (8 * k) 8).setWidth 32) <<< (8 * k)) * AdjoinRoot.root Gp ^ (8 * m) := by
    intro k hk
    have hback : (c.extractLsb' (8 * k) 8).setWidth 32 = (((c.extractLsb' (8 * k) 8).setWidth 32) <<< (8 * k)) >>> (8 * k) := by
      apply BitVec.eq_of_getLsbD_eq
      intro i hi
      simp only [BitVec.getLsbD_ushiftRight, BitVec.getLsbD_shiftLeft, BitVec.getLsbD_setWidth, BitVec.getLsbD_extractLsb']
      by_cases h : i < 8
      · simp [h, show 8 * k + i < 32 by omega, hi]
      · simp [h]
    conv_lhs => rw [hback]
    rw [rc_shiftRight, mul_assoc, ← pow_add]
    · congr 2; omega
    · intro i hi; rw [BitVec.getLsbD_shiftLeft]; simp [hi]
  have hsum : c = ((c.extractLsb' (8 * 0) 8).setWidth 32) <<< (8 * 0) ^^^ ((c.extractLsb' (8 * 1) 8).setWidth 32) <<< (8 * 1) ^^^
      ((c.extractLsb' (8 * 2) 8).setWidth 32) <<< (8 * 2) ^^^ ((c.extractLsb' (8 * 3) 8).setWidth 32) <<< (8 * 3) := by
    apply BitVec.eq_of_getLsbD_eq
    intro i hi
    simp only [BitVec.getLsbD_xor, BitVec.getLsbD_shiftLeft, BitVec.getLsbD_setWidth, BitVec.getLsbD_extractLsb', hi,
      decide_true, Bool.true_and]
    rcases (by omega : i < 8 ∨ (8 ≤ i ∧ i < 16) ∨ (16 ≤ i ∧ i < 24) ∨ (24 ≤ i)) with h | h | h | h
    · simp [h, show i < 16 by omega, show i < 24 by omega, hi]
    · simp [show ¬ i < 8 by omega, show i < 16 by omega, show i < 24 by omega, show i - 8 < 8 by omega,
        show 8 + (i - 8) = i by omega, show i - 8 < 32 by omega]
    · simp [show ¬ i < 8 by omega, show ¬ i < 16 by omega, show i < 24 by omega, show ¬ i - 8 < 8 by omega,
        show i - 16 < 8 by omega, show 16 + (i - 16) = i by omega, show i - 16 < 32 by omega]
    · simp [show ¬ i < 8 by omega, show ¬ i < 16 by omega, show ¬ i < 24 by omega, show ¬ i - 8 < 8 by omega,
        show ¬ i - 16 < 8 by omega, show i - 24 < 8 by omega, show 24 + (i - 24) = i by omega, show i - 24 < 32 by omega]
  conv_rhs => rw [hsum]
  simp only [rc_xor, add_mul]
  rw [← part 0 (by omega), ← part 1 (by omega), ← part 2 (by omega), ← part 3 (by omega)]
  simp

/-! ## Filling the slots (45_crc_solver.md R200) -/

/-- Writing LE32(c) over four zero bytes adds c times x^(8(n - o)). -/
theorem seqValue_writeBytes_le32 (c : U32) {d : List Byte} {o : Nat} (ho : o + 4 ≤ d.length)
    (hz : ∀ k < 4, d[o + k]? = some 0) :
    seqValue (writeBytes (le32 c) o d) = seqValue d + rc c * AdjoinRoot.root Gp ^ (8 * (d.length - o)) := by
  have h0 := hz 0 (by omega)
  have h1 := hz 1 (by omega)
  have h2 := hz 2 (by omega)
  have h3 := hz 3 (by omega)
  rw [List.getElem?_eq_getElem (by omega), Option.some_inj] at h0 h1 h2 h3
  have hrz : rc (BitVec.setWidth 32 (0 : Byte)) = 0 := rc_zero
  simp only [le32, writeBytes]
  rw [seqValue_set _ _ _ (by simp only [List.length_set]; omega), seqValue_set _ _ _ (by simp only [List.length_set]; omega),
    seqValue_set _ _ _ (by simp only [List.length_set]; omega), seqValue_set _ _ _ (by omega)]
  simp only [List.length_set, List.getElem_set, Nat.add_zero] at *
  simp only [show ¬ o = o + 1 by omega, show ¬ o = o + 1 + 1 by omega, show ¬ o = o + 1 + 1 + 1 by omega,
    show ¬ o + 1 = o + 1 + 1 by omega, show ¬ o + 1 = o + 1 + 1 + 1 by omega, show ¬ o + 1 + 1 = o + 1 + 1 + 1 by omega,
    if_false, h0, h1, show d[o + 1 + 1] = 0 from h2, show d[o + 1 + 1 + 1] = 0 from h3, hrz, add_zero]
  have := rc_le32 c (m := d.length - o) (by omega)
  simp only [show d.length - (o + 1) = d.length - o - 1 by omega, show d.length - (o + 1 + 1) = d.length - o - 2 by omega,
    show d.length - (o + 1 + 1 + 1) = d.length - o - 3 by omega]
  rw [← this]
  ring

theorem foldl_slotCoeff (n : Nat) (offs : List Nat) : ∀ acc : Poly, deg acc < 32 →
    deg (offs.foldl (fun acc o => acc ^^^ slotCoeff n o) acc) < 32 ∧
    residue (offs.foldl (fun acc o => acc ^^^ slotCoeff n o) acc) =
      residue acc + (offs.map fun o => AdjoinRoot.root Gp ^ (8 * (n - o))).sum := by
  induction offs with
  | nil => intro acc h; exact ⟨h, by simp⟩
  | cons o offs ih =>
    intro acc h
    obtain ⟨hd, hr⟩ := xPowMod_spec (8 * (n - o))
    have h1 : deg (acc ^^^ slotCoeff n o) < 32 := lt_of_le_of_lt (deg_xor_le _ _) (max_lt h hd)
    obtain ⟨h2, h3⟩ := ih _ h1
    refine ⟨h2, h3.trans ?_⟩
    rw [residue_xor, slotCoeff, hr, List.map_cons, List.sum_cons, add_assoc]

theorem slotSum_spec (n : Nat) (offs : List Nat) : deg (slotSum n offs) < 32 ∧
    residue (slotSum n offs) = (offs.map fun o => AdjoinRoot.root Gp ^ (8 * (n - o))).sum := by
  obtain ⟨h1, h2⟩ := foldl_slotCoeff n offs 0 (by decide)
  exact ⟨h1, h2.trans (by rw [residue_zero, zero_add])⟩

theorem seqValue_fillSlots (c : U32) {n : Nat} (offs : List Nat) : ∀ d : List Byte, d.length = n → SlotsFit n offs →
    (∀ o ∈ offs, ∀ k < 4, d[o + k]? = some 0) →
    seqValue (fillSlots c offs d) =
      seqValue d + rc c * (offs.map fun o => AdjoinRoot.root Gp ^ (8 * (n - o))).sum := by
  induction offs with
  | nil => intro d _ _ _; simp [fillSlots]
  | cons o offs ih =>
    intro d hd hfit hz
    obtain ⟨hin, hpw⟩ := hfit
    rw [List.pairwise_cons] at hpw
    have ho := hin o List.mem_cons_self
    have hfit' : SlotsFit n offs := ⟨fun o ho => hin o (List.mem_cons_of_mem _ ho), hpw.2⟩
    have hz' : ∀ o' ∈ offs, ∀ k < 4, (writeBytes (le32 c) o d)[o' + k]? = some 0 := by
      intro o' ho' k hk
      have := hpw.1 o' ho'
      rw [getElem?_writeBytes, if_neg (by simp only [length_le32]; omega)]
      exact hz o' (List.mem_cons_of_mem _ ho') k hk
    have step := ih (writeBytes (le32 c) o d) (by simp [hd]) hfit' hz'
    refine step.trans ?_
    rw [seqValue_writeBytes_le32 c (by omega) (hz o List.mem_cons_self), hd, List.map_cons, List.sum_cons]
    ring

/-- R200: the CRC of the buffer with LE32(c) at every slot, in the field. -/
theorem rc_crc32_fillSlots (c : U32) {data : List Byte} {offs : List Nat} (hfit : SlotsFit data.length offs) :
    rc (crc32 (fillSlots c offs (zeroSlots offs data))) =
      rc (crc32 (zeroSlots offs data)) + rc c * residue (slotSum data.length offs) := by
  have hz : ∀ o ∈ offs, ∀ k < 4, (zeroSlots offs data)[o + k]? = some 0 := by
    intro o ho k hk
    have h := getElem?_fillSlots_of_mem (c := 0) rfl hfit o ho k hk
    refine h.trans ?_
    rcases (by omega : k = 0 ∨ k = 1 ∨ k = 2 ∨ k = 3) with rfl | rfl | rfl | rfl <;> decide
  have hl : (zeroSlots offs data).length = data.length := length_fillSlots _ _ _
  rw [rc_crc32, rc_crc32, seqValue_fillSlots c offs _ hl hfit hz, (slotSum_spec _ _).2, length_fillSlots]
  ring

end Sys2Proof.Laws
end

