-- ==== Sys2Proof/Laws/Elimination.lean ====
section
/-! SUPPORT. SOLVE_SYSTEM's matrix and its elimination in the field (45_crc_solver.md R205): the entries of the matrix,
what one column's turn can do, and that the elimination either ends with unit columns and the same solutions, or stops
at the first column that depends on those before it. -/

namespace Sys2Proof.Laws

open Sys2Proof.Machine

/-- A matrix of n rows of n + 1 reduced polynomials (10_state.md R29). -/
structure Shape (n : Nat) (m : Matrix) : Prop where
  rows  : m.length = n
  width : ∀ row ∈ m, row.length = n + 1
  low   : ∀ row ∈ m, ∀ x ∈ row, deg x < 32

/-- The residue of an entry. -/
noncomputable def ent (m : Matrix) (r c : Nat) : AdjoinRoot Gp := residue (entry m r c)

/-- Row r of the matrix under the weights v of its columns. -/
noncomputable def rowValue (n : Nat) (v : Nat → AdjoinRoot Gp) (m : Matrix) (r : Nat) : AdjoinRoot Gp :=
  ∑ c ∈ Finset.range (n + 1), ent m r c * v c

/-- The weights solve every row. -/
def Solves (n : Nat) (v : Nat → AdjoinRoot Gp) (m : Matrix) : Prop := ∀ r < n, rowValue n v m r = 0

/-- Column j is the j-th unit column. -/
def UnitColumn (n : Nat) (m : Matrix) (j : Nat) : Prop := ∀ r < n, ent m r j = if r = j then 1 else 0

theorem Shape.width_getD {n : Nat} {m : Matrix} (h : Shape n m) {r : Nat} (hr : r < n) : (m.getD r []).length = n + 1 := by
  rw [List.getD_eq_getElem _ _ (by rw [h.rows]; exact hr)]
  exact h.width _ (List.getElem_mem _)

theorem Shape.low_getD {n : Nat} {m : Matrix} (h : Shape n m) {r : Nat} (hr : r < n) : ∀ x ∈ m.getD r [], deg x < 32 := by
  rw [List.getD_eq_getElem _ _ (by rw [h.rows]; exact hr)]
  exact h.low _ (List.getElem_mem _)

theorem Shape.low_entry {n : Nat} {m : Matrix} (h : Shape n m) {r c : Nat} (hr : r < n) (hc : c ≤ n) :
    deg (entry m r c) < 32 := by
  rw [entry, List.getD_eq_getElem _ _ (by rw [h.width_getD hr]; omega)]
  exact h.low_getD hr _ (List.getElem_mem _)

theorem getD_scaleRow {c : Poly} {row : List Poly} {i : Nat} (hi : i < row.length) :
    (scaleRow c row).getD i 0 = mulMod (row.getD i 0) c := by
  rw [List.getD_eq_getElem _ _ (by rw [scaleRow, List.length_map]; exact hi), List.getD_eq_getElem _ _ hi]
  exact List.getElem_map _

theorem residue_getD_clearRow {pivot row : List Poly} {f : Poly} {i : Nat} (hi : i < row.length)
    (hp : row.length = pivot.length) (hf : deg f < 32) (hl : ∀ x ∈ pivot, deg x < 32) :
    residue ((clearRow pivot row f).getD i 0) = residue (row.getD i 0) + residue f * residue (pivot.getD i 0) := by
  unfold clearRow
  split
  · next h => rw [h, residue_zero, zero_mul, add_zero]
  · rw [List.getD_eq_getElem _ _ (by rw [List.length_zipWith, ← hp, min_self]; exact hi), List.getElem_zipWith,
      List.getD_eq_getElem _ _ hi, List.getD_eq_getElem _ _ (by rw [← hp]; exact hi), residue_xor,
      residue_mulMod hf (hl _ (List.getElem_mem _))]

theorem length_clearRow {pivot row : List Poly} {f : Poly} (hp : row.length = pivot.length) :
    (clearRow pivot row f).length = row.length := by
  unfold clearRow
  split
  · rfl
  · rw [List.length_zipWith, ← hp, min_self]

theorem low_clearRow {pivot row : List Poly} {f : Poly} (hr : ∀ x ∈ row, deg x < 32) :
    ∀ x ∈ clearRow pivot row f, deg x < 32 := by
  unfold clearRow
  split
  · exact hr
  · intro x hx
    obtain ⟨i, hi, rfl⟩ := List.getElem_of_mem hx
    rw [List.getElem_zipWith]
    exact lt_of_le_of_lt (deg_xor_le _ _) (max_lt (hr _ (List.getElem_mem _)) (deg_mulMod _ _))

theorem getD_swapRows {m : Matrix} {k p r : Nat} (hk : k < m.length) (hp : p < m.length) :
    (swapRows m k p).getD r [] = m.getD (Equiv.swap k p r) [] := by
  simp only [swapRows, List.getD_eq_getElem?_getD, List.getElem?_set, List.length_set, Equiv.swap_apply_def]
  by_cases h1 : r = p
  · subst h1
    by_cases h2 : r = k
    · simp [h2, hk]
    · simp [h2, hp]
  · by_cases h2 : r = k
    · subst h2; simp [Ne.symm h1, hk]
    · simp [Ne.symm h1, Ne.symm h2, h1, h2]

theorem swap_lt {n k p r : Nat} (hk : k < n) (hp : p < n) (hr : r < n) : Equiv.swap k p r < n := by
  rw [Equiv.swap_apply_def]; split_ifs <;> assumption

/-- What one column's turn can do: it stops, because no row at or below the diagonal has an entry there; or, with the
pivot row p and the inverse of its entry, row k becomes that row scaled and every other row loses its multiple. -/
theorem eliminateColumn_spec {n k : Nat} {m : Matrix} (h : Shape n m) (hk : k < n) :
    (eliminateColumn n k m = .error ⟨.rankDeficient, infoNat k⟩ ∧ ∀ r, k ≤ r → r < n → ent m r k = 0) ∨
    ∃ m' p ι, eliminateColumn n k m = .ok m' ∧ Shape n m' ∧ k ≤ p ∧ p < n ∧ ι * ent m p k = 1 ∧
      ∀ r < n, ∀ c ≤ n, ent m' r c =
        if r = k then ι * ent m p c
        else ent m (Equiv.swap k p r) c + ent m (Equiv.swap k p r) k * (ι * ent m p c) := by
  unfold eliminateColumn
  cases hp : findPivot m n k with
  | none =>
    refine .inl ⟨rfl, fun r h1 h2 => ?_⟩
    rw [findPivot, List.find?_eq_none] at hp
    have := hp r (by rw [List.mem_range'_1]; omega)
    simp only [ne_eq, decide_not, Bool.not_eq_eq_eq_not, Bool.not_true, decide_eq_false_iff_not, not_not] at this
    rw [ent, this, residue_zero]
  | some p =>
    right
    have hmem := List.mem_of_find?_eq_some hp
    rw [List.mem_range'_1] at hmem
    have hne := List.find?_some hp
    simp only [ne_eq, decide_not, Bool.not_eq_eq_eq_not, Bool.not_true, decide_eq_false_iff_not] at hne
    have hpn : p < n := by omega
    have hlow := h.low_entry hpn hk.le
    have hsw : ∀ r, (swapRows m k p).getD r [] = m.getD (Equiv.swap k p r) [] := fun r =>
      getD_swapRows (by rw [h.rows]; exact hk) (by rw [h.rows]; exact hpn)
    have hpk : entry (swapRows m k p) k k = entry m p k := by rw [entry, hsw, Equiv.swap_apply_left, entry]
    have hlen : (swapRows m k p).length = n := by rw [swapRows, List.length_set, List.length_set, h.rows]
    rcases modInverse_spec (entry m p k) with ⟨h0, -⟩ | ⟨-, inv, hi, hid, hi1⟩
    · exact absurd ((residue_eq_zero hlow).1 h0) hne
    have hpiv : (swapRows m k p).getD k [] = m.getD p [] := by rw [hsw, Equiv.swap_apply_left]
    simp only [hpk, hi, hpiv]
    have hw := h.width_getD hpn
    have hsl : (scaleRow inv (m.getD p [])).length = n + 1 := by rw [scaleRow, List.length_map, hw]
    have hslow : ∀ x ∈ scaleRow inv (m.getD p []), deg x < 32 := by
      intro x hx
      obtain ⟨y, -, rfl⟩ := List.mem_map.1 hx
      exact deg_mulMod _ _
    have hrow : ∀ (r : Nat) (hr : r < n), (((swapRows m k p).set k (scaleRow inv (m.getD p []))).mapIdx fun r row =>
        if r = k then row else clearRow (scaleRow inv (m.getD p [])) row (row.getD k 0)).getD r [] =
        if r = k then scaleRow inv (m.getD p [])
        else clearRow (scaleRow inv (m.getD p [])) (m.getD (Equiv.swap k p r) [])
          ((m.getD (Equiv.swap k p r) []).getD k 0) := by
      intro r hr
      rw [List.getD_eq_getElem _ _ (by simp only [List.length_mapIdx, List.length_set, hlen]; exact hr), List.getElem_mapIdx]
      by_cases hrk : r = k
      · subst hrk; simp
      · have hg : ((swapRows m k p).set k (scaleRow inv (m.getD p [])))[r]'(by
            rw [List.length_set, hlen]; exact hr) = m.getD (Equiv.swap k p r) [] := by
          rw [List.getElem_set_ne (Ne.symm hrk), ← hsw]
          exact (List.getD_eq_getElem (swapRows m k p) [] (by rw [hlen]; exact hr)).symm
        rw [if_neg hrk, if_neg hrk, hg]
    refine ⟨_, p, residue inv, rfl, ⟨?_, ?_, ?_⟩, hmem.1, hpn, hi1, ?_⟩
    · rw [List.length_mapIdx, List.length_set, hlen]
    · intro row hx
      obtain ⟨r, hr, rfl⟩ := List.getElem_of_mem hx
      have hr' : r < n := by simpa only [List.length_mapIdx, List.length_set, hlen] using hr
      rw [← List.getD_eq_getElem _ [] hr, hrow r hr']
      split
      · exact hsl
      · rw [length_clearRow (by rw [hsl, h.width_getD (swap_lt hk hpn hr')]), h.width_getD (swap_lt hk hpn hr')]
    · intro row hx
      obtain ⟨r, hr, rfl⟩ := List.getElem_of_mem hx
      have hr' : r < n := by simpa only [List.length_mapIdx, List.length_set, hlen] using hr
      rw [← List.getD_eq_getElem _ [] hr, hrow r hr']
      split
      · exact hslow
      · exact low_clearRow (h.low_getD (swap_lt hk hpn hr'))
    · intro r hr c hc
      have hsc : residue ((scaleRow inv (m.getD p [])).getD c 0) = residue inv * ent m p c := by
        rw [getD_scaleRow (by rw [hw]; omega), residue_mulMod (a := (m.getD p []).getD c 0) (h.low_entry hpn hc) hid,
          mul_comm]
        rfl
      rw [ent, entry, hrow r hr]
      split
      · exact hsc
      · have hws := h.width_getD (swap_lt hk hpn hr)
        have hlt : c < (m.getD (Equiv.swap k p r) []).length := by omega
        have hcl := residue_getD_clearRow (f := (m.getD (Equiv.swap k p r) []).getD k 0) hlt (by rw [hws, hsl])
          (h.low_entry (swap_lt hk hpn hr) hk.le) hslow
        rw [hcl, hsc]
        rfl

/-- A column's turn keeps the solutions and the unit columns before it, and makes its own column a unit column. -/
theorem eliminateColumn_keeps {n k p : Nat} {m m' : Matrix} {ι : AdjoinRoot Gp} (hk : k < n) (hkp : k ≤ p) (hp : p < n)
    (hι : ι * ent m p k = 1)
    (he : ∀ r < n, ∀ c ≤ n, ent m' r c = if r = k then ι * ent m p c
      else ent m (Equiv.swap k p r) c + ent m (Equiv.swap k p r) k * (ι * ent m p c)) :
    (∀ v, Solves n v m' ↔ Solves n v m) ∧ UnitColumn n m' k ∧ ∀ j < k, UnitColumn n m j → UnitColumn n m' j := by
  have hval : ∀ v, ∀ r < n, rowValue n v m' r = if r = k then ι * rowValue n v m p
      else rowValue n v m (Equiv.swap k p r) + ent m (Equiv.swap k p r) k * (ι * rowValue n v m p) := by
    intro v r hr
    unfold rowValue
    split
    · next h =>
      rw [Finset.mul_sum]
      refine Finset.sum_congr rfl fun c hc => ?_
      rw [he r hr c (by simpa [Nat.lt_succ_iff] using hc), if_pos h, mul_assoc]
    · next h =>
      rw [Finset.mul_sum, Finset.mul_sum, ← Finset.sum_add_distrib]
      refine Finset.sum_congr rfl fun c hc => ?_
      rw [he r hr c (by simpa [Nat.lt_succ_iff] using hc), if_neg h]
      ring
  refine ⟨fun v => ⟨fun hs => ?_, fun hs r hr => ?_⟩, fun r hr => ?_, fun j hj hu r hr => ?_⟩
  · have hp0 : rowValue n v m p = 0 := by
      have := hs k hk
      rw [hval v k hk, if_pos rfl] at this
      calc rowValue n v m p = (ι * rowValue n v m p) * ent m p k := by linear_combination (-(rowValue n v m p)) * hι
        _ = 0 := by rw [this, zero_mul]
    intro r hr
    have hsr := hs (Equiv.swap k p r) (swap_lt hk hp hr)
    rw [hval v _ (swap_lt hk hp hr), hp0, Equiv.swap_apply_self, mul_zero, mul_zero, add_zero] at hsr
    by_cases hk' : Equiv.swap k p r = k
    · have : r = p := by rw [← Equiv.swap_apply_self k p r, hk', Equiv.swap_apply_left]
      rw [this, hp0]
    · rwa [if_neg hk'] at hsr
  · rw [hval v r hr, hs p hp, hs _ (swap_lt hk hp hr)]
    simp
  · rw [he r hr k hk.le, hι, mul_one, add_self_residue]
  · rw [he r hr j (by omega), hu p hp, hu _ (swap_lt hk hp hr), if_neg (by omega : ¬ p = j), mul_zero, mul_zero, add_zero]
    by_cases hrk : r = k
    · rw [if_pos hrk, if_neg (by omega)]
    · rw [if_neg hrk]
      have : Equiv.swap k p r = j ↔ r = j := by
        rw [Equiv.swap_apply_def, if_neg hrk]
        split_ifs with h
        · constructor <;> intro <;> omega
        · exact Iff.rfl
      rw [if_congr this rfl rfl]

/-- The elimination from column k on. -/
theorem eliminate_from {n : Nat} : ∀ (d k : Nat) (m : Matrix), k + d = n → Shape n m → (∀ j < k, UnitColumn n m j) →
    (∃ m', eliminate n (List.range' k d) m = .ok m' ∧ Shape n m' ∧ (∀ j < n, UnitColumn n m' j) ∧
      ∀ v, Solves n v m' ↔ Solves n v m) ∨
    ∃ q m', q < n ∧ eliminate n (List.range' k d) m = .error ⟨.rankDeficient, infoNat q⟩ ∧ (∀ j < q, UnitColumn n m' j) ∧
      (∀ r, q ≤ r → r < n → ent m' r q = 0) ∧ ∀ v, Solves n v m' ↔ Solves n v m := by
  intro d
  induction d with
  | zero =>
    intro k m hd h hu
    exact .inl ⟨m, rfl, h, fun j hj => hu j (by omega), fun _ => Iff.rfl⟩
  | succ d ih =>
    intro k m hd h hu
    have hk : k < n := by omega
    rw [List.range'_succ, eliminate]
    rcases eliminateColumn_spec h hk with ⟨he, h0⟩ | ⟨m', p, ι, he, hs, hkp, hp, hι, hent⟩
    · exact .inr ⟨k, m, hk, by rw [he], hu, h0, fun _ => Iff.rfl⟩
    · obtain ⟨hsol, huk, hun⟩ := eliminateColumn_keeps hk hkp hp hι hent
      have hu' : ∀ j < k + 1, UnitColumn n m' j := by
        intro j hj
        rcases Nat.lt_succ_iff_lt_or_eq.1 hj with h' | rfl
        exacts [hun j h' (hu j h'), huk]
      rw [he]
      rcases ih (k + 1) m' (by omega) hs hu' with ⟨m2, e, s2, u2, v2⟩ | ⟨q, m2, hq, e, u2, z2, v2⟩
      · exact .inl ⟨m2, e, s2, u2, fun v => (v2 v).trans (hsol v)⟩
      · exact .inr ⟨q, m2, hq, e, u2, z2, fun v => (v2 v).trans (hsol v)⟩

/-- What R205's elimination can do. It ends with the unit columns and the same solutions; or it stops at column q, which
depends on the columns before it, while those are independent: q is the least column that depends on earlier ones. -/
theorem eliminate_spec {n : Nat} {m : Matrix} (h : Shape n m) :
    (∃ m', eliminate n (List.range n) m = .ok m' ∧ Shape n m' ∧ (∀ j < n, UnitColumn n m' j) ∧
      ∀ v, Solves n v m' ↔ Solves n v m) ∨
    ∃ q < n, eliminate n (List.range n) m = .error ⟨.rankDeficient, infoNat q⟩ ∧
      (∃ v, v q = 1 ∧ (∀ j, q < j → v j = 0) ∧ Solves n v m) ∧
      ∀ v, (∀ j, q ≤ j → v j = 0) → Solves n v m → ∀ j, v j = 0 := by
  rw [List.range_eq_range']
  rcases eliminate_from n 0 m (by omega) h (by simp) with hok | ⟨q, m', hq, he, hu, hz, hs⟩
  · exact .inl hok
  -- under weights that vanish above q, a row is its own weight, if before q, and the q-th column's part
  have hval : ∀ v : Nat → AdjoinRoot Gp, (∀ j, q < j → v j = 0) → ∀ r < n,
      rowValue n v m' r = (if r < q then v r else 0) + ent m' r q * v q := by
    intro v hv r hr
    have hsub : Finset.range (q + 1) ⊆ Finset.range (n + 1) := Finset.range_mono (by omega)
    rw [rowValue, ← Finset.sum_subset hsub (fun c _ hc => by
      rw [hv c (by simpa [Nat.lt_succ_iff] using hc), mul_zero]), Finset.sum_range_succ]
    congr 1
    rw [Finset.sum_congr rfl fun j hj => by rw [hu j (Finset.mem_range.1 hj) r hr]]
    simp
  refine .inr ⟨q, hq, he, ⟨fun j => if j < q then ent m' j q else if j = q then 1 else 0, ?_, ?_, ?_⟩, ?_⟩
  · simp
  · intro j hj
    simp [show ¬ j < q by omega, show j ≠ q by omega]
  · rw [← hs]
    intro r hr
    rw [hval _ (fun j hj => by simp [show ¬ j < q by omega, show j ≠ q by omega]) r hr]
    by_cases hrq : r < q
    · simp [hrq, add_self_residue]
    · simp [hrq, hz r (by omega) hr]
  · intro v hv hsol j
    rw [← hs] at hsol
    by_cases hj : j < q
    · have := hsol j (by omega)
      rwa [hval v (fun i hi => hv i (by omega)) j (by omega), if_pos hj, hv q le_rfl, mul_zero, add_zero] at this
    · exact hv j (by omega)

/-! ## The matrix before elimination -/

/-- The row of file i (R205), before its constant is set. -/
theorem foldl_modify {n i : Nat} (len : Nat) (slots : List (Nat × Nat)) : ∀ row : List Poly, row.length = n →
    (∀ x ∈ row, deg x < 32) →
    (slots.foldl (fun row p => row.modify p.2 (· ^^^ slotCoeff len p.1)) row).length = n ∧
    (∀ x ∈ slots.foldl (fun row p => row.modify p.2 (· ^^^ slotCoeff len p.1)) row, deg x < 32) ∧
    (i < n → (slots.foldl (fun row p => row.modify p.2 (· ^^^ slotCoeff len p.1)) row).getD i 0 =
      ((slots.filter fun p => p.2 == i).map Prod.fst).foldl (fun acc o => acc ^^^ slotCoeff len o) (row.getD i 0)) := by
  induction slots with
  | nil => intro row h hl; exact ⟨h, hl, fun _ => rfl⟩
  | cons p slots ih =>
    intro row h hl
    have hl' : ∀ x ∈ row.modify p.2 (· ^^^ slotCoeff len p.1), deg x < 32 := by
      intro x hx
      obtain ⟨j, hj, rfl⟩ := List.getElem_of_mem hx
      rw [List.getElem_modify]
      split
      · exact lt_of_le_of_lt (deg_xor_le _ _) (max_lt (hl _ (List.getElem_mem _)) (xPowMod_spec _).1)
      · exact hl _ (List.getElem_mem _)
    obtain ⟨h1, h2, h3⟩ := ih (row.modify p.2 (· ^^^ slotCoeff len p.1)) (by rw [List.length_modify, h]) hl'
    refine ⟨h1, h2, fun hi => (h3 hi).trans ?_⟩
    have hg : (row.modify p.2 (· ^^^ slotCoeff len p.1)).getD i 0 =
        if p.2 = i then row.getD i 0 ^^^ slotCoeff len p.1 else row.getD i 0 := by
      rw [List.getD_eq_getElem _ _ (by rw [List.length_modify, h]; exact hi), List.getElem_modify,
        List.getD_eq_getElem _ _ (by rw [h]; exact hi)]
    rw [hg]
    by_cases hpi : p.2 = i
    · simp [hpi]
    · simp [hpi]

/-- The row of file i: reduced, and R205's M[i][0..N]. -/
theorem buildRow_spec {n i : Nat} (f : FileSpec) :
    (buildRow n i f).length = n + 1 ∧ (∀ x ∈ buildRow n i f, deg x < 32) ∧
    (∀ j < n, (buildRow n i f).getD j 0 = slotSum f.data.length ((f.slots.filter fun p => p.2 == j).map Prod.fst) ^^^
      (if i = j then 1 else 0)) ∧ (buildRow n i f).getD n 0 = basePoly (f.slots.map Prod.fst) f.data := by
  have h0 : ∀ x ∈ List.replicate (n + 1) (0 : Poly), deg x < 32 := by
    intro x hx; rw [List.eq_of_mem_replicate hx]; decide
  have hb := fun j => foldl_modify (i := j) f.data.length f.slots _ (List.length_replicate (n := n + 1) (a := (0 : Poly))) h0
  obtain ⟨hlen, hlow, -⟩ := hb 0
  have hg := fun j => (hb j).2.2
  unfold buildRow
  generalize f.slots.foldl _ _ = row at *
  refine ⟨by rw [List.length_set, List.length_modify, hlen], ?_, fun j hj => ?_, ?_⟩
  · intro x hx
    obtain ⟨j, hj, rfl⟩ := List.getElem_of_mem hx
    rw [List.getElem_set]
    split
    · exact deg_toMath _
    · rw [List.getElem_modify]
      split
      · exact lt_of_le_of_lt (deg_xor_le _ _) (max_lt (hlow _ (List.getElem_mem _)) (by decide))
      · exact hlow _ (List.getElem_mem _)
  · rw [List.getD_eq_getElem _ _ (by rw [List.length_set, List.length_modify, hlen]; omega),
      List.getElem_set_ne (by omega), List.getElem_modify, ← List.getD_eq_getElem _ 0, hg j (by omega)]
    have : (List.replicate (n + 1) (0 : Poly)).getD j 0 = 0 := by simp [List.getD_eq_getElem?_getD]
    rw [this, slotSum]
    split <;> simp
  · rw [List.getD_eq_getElem _ _ (by rw [List.length_set, List.length_modify, hlen]; omega), List.getElem_set_self]

/-- The matrix of R205: reduced, and its rows are the files'. -/
theorem buildMatrix_spec (files : List FileSpec) : Shape files.length (buildMatrix files) ∧
    ∀ (i : Nat) (f : FileSpec), files[i]? = some f → (buildMatrix files).getD i [] = buildRow files.length i f := by
  have hmem : ∀ row ∈ buildMatrix files, ∃ i < files.length, ∃ f, row = buildRow files.length i f := by
    intro row hr
    obtain ⟨i, hi, rfl⟩ := List.getElem_of_mem hr
    rw [buildMatrix, List.length_mapIdx] at hi
    exact ⟨i, hi, files[i], by simp [buildMatrix]⟩
  refine ⟨⟨by rw [buildMatrix, List.length_mapIdx], ?_, ?_⟩, ?_⟩
  · intro row hr
    obtain ⟨i, hi, f, rfl⟩ := hmem row hr
    exact (buildRow_spec f).1
  · intro row hr
    obtain ⟨i, hi, f, rfl⟩ := hmem row hr
    exact (buildRow_spec f).2.1
  · intro i f hf
    rw [List.getD_eq_getElem?_getD, buildMatrix, List.getElem?_mapIdx, hf]
    rfl

end Sys2Proof.Laws
end

