-- ==== Sys2Proof/Laws/Encoder.lean ====
section
/-! SUPPORT. What the encoder's primitives put, in the bits of the stream (42_static_huffman_encoder.md R152, R153). -/

namespace Sys2Proof.Laws

open Sys2Proof.Machine

/-- A primitive appends these bits to the stream and keeps the accumulator clean and its width. -/
structure Puts (put : BitWriter → BitWriter) (bits : List Bool) : Prop where
  stream : ∀ w, Clean w → stream (put w) = stream w ++ bits
  clean  : ∀ w, Clean w → Clean (put w)
  width  : ∀ w, Clean w → (put w).width = w.width

theorem Puts.comp {f g : BitWriter → BitWriter} {a b : List Bool} (hf : Puts f a) (hg : Puts g b) :
    Puts (fun w => g (f w)) (a ++ b) where
  stream w hw := by rw [hg.stream _ (hf.clean w hw), hf.stream w hw, List.append_assoc]
  clean w hw := hg.clean _ (hf.clean w hw)
  width w hw := (hg.width _ (hf.clean w hw)).trans (hf.width w hw)

theorem puts_id : Puts (fun w => w) [] := ⟨fun _ _ => (List.append_nil _).symm, fun _ h => h, fun _ _ => rfl⟩

/-- PUTBITS puts the field, least significant bit first. -/
theorem puts_putBits {v n : Nat} (hn : n ≤ 16) (hv : v < 2 ^ n) : Puts (BitWriter.putBits v n) (bitsLsb n v) :=
  ⟨fun _ hw => (putBits_spec hw hn hv).1, fun _ hw => (putBits_spec hw hn hv).2.1,
    fun _ hw => (putBits_spec hw hn hv).2.2.2.1⟩

/-- PUTCODE puts the code, most significant bit first. -/
theorem puts_putCode {c : Code} (hn : c.bits ∈ [5, 7, 8]) (hv : c.value < 2 ^ c.bits) :
    Puts (BitWriter.putCode c) (bitsMsb c.bits c.value) := by
  obtain ⟨h1, h2⟩ := bitsLsb_revN c.bits hn c.value hv
  have hle : c.bits ≤ 16 := by
    simp only [List.mem_cons, List.not_mem_nil, or_false] at hn
    omega
  rw [← h1]
  exact puts_putBits hle h2

/-- An extra-bits field puts its bits, or nothing when it has none. -/
theorem puts_putExtra {v n : Nat} (hn : n ≤ 16) (hv : v < 2 ^ n) : Puts (BitWriter.putExtra v n) (bitsLsb n v) := by
  by_cases h : 0 < n
  · have : BitWriter.putExtra v n = BitWriter.putBits v n := by funext w; rw [BitWriter.putExtra, if_pos h]
    rw [this]; exact puts_putBits hn hv
  · have : BitWriter.putExtra v n = fun w => w := by funext w; rw [BitWriter.putExtra, if_neg h]
    rw [this, show n = 0 by omega]; exact puts_id

/-- A block header puts its last-flag and its type. -/
theorem puts_putHeader (isLast : Bool) {btype : Nat} (h : btype < 4) :
    Puts (BitWriter.putHeader isLast btype) (bitsLsb 3 (isLast.toNat + 2 * btype)) := by
  have h1 := bitsLsb_two_fields (m := 1) (v := isLast.toNat) 2 btype (by cases isLast <;> decide)
  rw [show bitsLsb 3 (isLast.toNat + 2 * btype) = _ from h1]
  exact (puts_putBits (by omega) (by cases isLast <;> decide)).comp (puts_putBits (by omega) (by simpa using h))

/-- The codes and extra-bit counts of the tables are within the primitives' bounds. -/
theorem lenCode_bounds : ∀ i < 29, (litLenCode (lenSymbol i)).bits ∈ [5, 7, 8] ∧
    (litLenCode (lenSymbol i)).value < 2 ^ (litLenCode (lenSymbol i)).bits ∧ (tableRow lenTable i).extra ≤ 16 := by
  decide +kernel

theorem distCode_bounds : ∀ j < 30, (distCode j).bits ∈ [5, 7, 8] ∧ (distCode j).value < 2 ^ (distCode j).bits ∧
    (tableRow distTable j).extra ≤ 16 := by decide +kernel

/-- A length symbol puts its code and its extra bits: the bits its request holds. -/
theorem puts_putLength {i e : Nat} (hi : i < 29) (he : e < 2 ^ (tableRow lenTable i).extra) :
    Puts (BitWriter.putLength i e) (symbolBits (litLenCode (lenSymbol i)) (tableRow lenTable i).extra e) := by
  obtain ⟨h1, h2, h3⟩ := lenCode_bounds i hi
  exact (puts_putCode h1 h2).comp (puts_putExtra h3 he)

/-- A distance symbol likewise. -/
theorem puts_putDistance {j e : Nat} (hj : j < 30) (he : e < 2 ^ (tableRow distTable j).extra) :
    Puts (BitWriter.putDistance j e) (symbolBits (distCode j) (tableRow distTable j).extra e) := by
  obtain ⟨h1, h2, h3⟩ := distCode_bounds j hj
  exact (puts_putCode h1 h2).comp (puts_putExtra h3 he)

/-- The end-of-block code puts seven zero bits (30_encoding.md R86). -/
theorem puts_putEob : Puts BitWriter.putEob (List.replicate 7 false) := by
  have := puts_putCode (c := litLenCode eobSymbol) (by decide) (by decide)
  rwa [show bitsMsb (litLenCode eobSymbol).bits (litLenCode eobSymbol).value = List.replicate 7 false from by decide] at this

end Sys2Proof.Laws
end

