-- ==== Sys2Proof/Laws/Lanes.lean ====
section
/-! SUPPORT. The solver's values in the field: SOLVE_RANK1 solves, R207's three cases are exactly the valid candidates,
and a lane's computed find is the find of its scan (45_crc_solver.md R202, R206, R207). -/

namespace Sys2Proof.Laws

open Sys2Proof.Machine

/-- The candidates a `ValidSet` names. -/
def ValidSet.has : ValidSet → U32 → Prop
  | .empty, _ => False
  | .only c, d => d = c
  | .every, _ => True

theorem residue_den (n : Nat) (offs : List Nat) :
    residue (1 ^^^ slotSum n offs) = 1 + residue (slotSum n offs) := by
  rw [residue_xor, residue_one]

/-- A candidate is valid when it solves R203's equation u * (1 + S) = base. -/
theorem validCandidate_iff {data : List Byte} {offs : List Nat} (hfit : SlotsFit data.length offs) (c : U32) :
    validCandidate data offs c = true ↔
      rc c * residue (1 ^^^ slotSum data.length offs) = rc (crc32 (zeroSlots offs data)) := by
  rw [validCandidate, beq_iff_eq, residue_den]
  have h := rc_crc32_fillSlots c hfit
  constructor
  · intro he
    rw [he] at h
    have h2 := add_self_residue (rc c * residue (slotSum data.length offs))
    linear_combination h + h2
  · intro he
    apply rc_inj
    have h2 := add_self_residue (rc c * residue (slotSum data.length offs))
    rw [h]
    linear_combination -he + h2

theorem validSet_has {data : List Byte} {offs : List Nat} (hfit : SlotsFit data.length offs) (c : U32) :
    validCandidate data offs c = true ↔ ValidSet.has (validSet data offs) c := by
  rw [validCandidate_iff hfit]
  have hb : rc (crc32 (zeroSlots offs data)) = residue (basePoly offs data) := rfl
  have hfi : Fact (Irreducible Gp) := ⟨Gp_irreducible⟩
  rcases fieldDivide_spec (basePoly offs data) (1 ^^^ slotSum data.length offs) with ⟨hden, he⟩ | ⟨hden, u, he, hu, hs⟩
  · rw [hden, mul_zero, validSet, he, hb]
    have hz := residue_eq_zero (deg_toMath (crc32 (zeroSlots offs data)))
    by_cases h0 : basePoly offs data = 0
    · simp only [h0, if_true, ValidSet.has, residue_zero]
    · simp only [h0, if_false, ValidSet.has, iff_false]
      exact fun h => h0 (hz.1 h.symm)
  · rw [validSet, he, hb, ← hs]
    simp only [ValidSet.has]
    have hrc : rc (toImpl u) = residue u := by rw [rc, toMath_toImpl hu]
    constructor
    · intro h
      exact rc_inj (by rw [hrc]; exact mul_right_cancel₀ hden h)
    · rintro rfl
      rw [hrc]

/-- SOLVE_RANK1's CRC is the CRC of the buffer it returns (R202). -/
theorem solveOne_valid {data d : List Byte} {offs : List Nat} {c : U32} (hfit : SlotsFit data.length offs)
    (h : solveOne data offs = .ok (d, c)) : crc32 d = c ∧ d = fillSlots c offs (zeroSlots offs data) := by
  rw [solveOne] at h
  rcases fieldDivide_spec (basePoly offs data) (1 ^^^ slotSum data.length offs) with ⟨_, he⟩ | ⟨_, u, he, _, _⟩
  · rw [he] at h; simp [Except.map] at h
  · rw [he] at h
    simp only [Except.map, Except.ok.injEq, Prod.mk.injEq] at h
    obtain ⟨rfl, rfl⟩ := h
    have hv : ValidSet.has (validSet data offs) (toImpl u) := by rw [validSet, he]; rfl
    have := (validSet_has hfit (toImpl u)).2 hv
    rw [validCandidate, beq_iff_eq] at this
    exact ⟨this, rfl⟩

/-! ## A lane's scan -/

theorem scanCandidates_congr {v v' : U32 → Bool} (h : ∀ c, v c = v' c) : ∀ count cand,
    scanCandidates v count cand = scanCandidates v' count cand := by
  intro count
  induction count with
  | zero => intro cand; rfl
  | succ count ih => intro cand; rw [scanCandidates, scanCandidates, h, ih]

theorem scanCandidates_false (count : Nat) : ∀ cand, scanCandidates (fun _ => false) count cand = none := by
  induction count with
  | zero => intro cand; rfl
  | succ count ih => intro cand; rw [scanCandidates]; simp [ih]

theorem scanCandidates_only (c : U32) (count : Nat) : ∀ cand, cand + count ≤ 2 ^ 32 →
    scanCandidates (fun d => d == c) count cand =
      if cand ≤ c.toNat ∧ c.toNat < cand + count then some c else none := by
  induction count with
  | zero => intro cand _; rw [scanCandidates, if_neg (by omega)]
  | succ count ih =>
    intro cand h
    rw [scanCandidates, ih _ (by omega)]
    have hto : (BitVec.ofNat 32 cand).toNat = cand := by rw [BitVec.toNat_ofNat]; exact Nat.mod_eq_of_lt (by omega)
    by_cases he : BitVec.ofNat 32 cand = c
    · subst he
      rw [hto]; simp
    · have hne : c.toNat ≠ cand := fun h' => he (by rw [← h', BitVec.ofNat_toNat]; simp)
      simp only [beq_iff_eq, he, if_false]
      by_cases hc : cand + 1 ≤ c.toNat ∧ c.toNat < cand + 1 + count
      · rw [if_pos hc, if_pos (by omega)]
      · rw [if_neg hc, if_neg (by omega)]

theorem laneStart_le {lanes w : Nat} (hl : 0 < lanes) (hw : w ≤ lanes) : laneStart lanes w ≤ 2 ^ 32 := by
  unfold laneStart
  calc w * 2 ^ 32 / lanes ≤ lanes * 2 ^ 32 / lanes := Nat.div_le_div_right (Nat.mul_le_mul_right _ hw)
    _ = 2 ^ 32 := by rw [Nat.mul_comm, Nat.mul_div_cancel _ hl]

theorem laneStart_mono {lanes w : Nat} : laneStart lanes w ≤ laneStart lanes (w + 1) :=
  Nat.div_le_div_right (Nat.mul_le_mul_right _ (by omega))

/-- R206 and R207 agree: what lane w's computed find is, its ascending scan with early exit finds. -/
theorem laneFinds_eq_scan {data : List Byte} {offs : List Nat} (hfit : SlotsFit data.length offs) {lanes w : Nat}
    (hw : w < lanes) :
    laneFinds (validSet data offs) lanes w =
      scanCandidates (validCandidate data offs) (laneStart lanes (w + 1) - laneStart lanes w) (laneStart lanes w) := by
  have hle : laneStart lanes (w + 1) ≤ 2 ^ 32 := laneStart_le (by omega) (by omega)
  have hmono : laneStart lanes w ≤ laneStart lanes (w + 1) := laneStart_mono
  have hv := validSet_has hfit
  unfold laneFinds
  generalize validSet data offs = v at hv
  cases v with
  | empty =>
    rw [scanCandidates_congr (v' := fun _ => false) (fun c => by simpa [ValidSet.has] using hv c)]
    exact (scanCandidates_false _ _).symm
  | only c =>
    rw [scanCandidates_congr (v' := fun d => d == c) (fun d => by
      have := hv d
      simp only [ValidSet.has] at this
      by_cases hd : d = c
      · rw [this.2 hd, beq_iff_eq.2 hd]
      · have h1 : validCandidate data offs d ≠ true := fun h => hd (this.1 h)
        have h2 : (d == c) ≠ true := fun h => hd (beq_iff_eq.1 h)
        rw [Bool.eq_false_iff.2 h1, Bool.eq_false_iff.2 h2]), scanCandidates_only _ _ _ (by omega)]
    simp only [Nat.add_sub_cancel' hmono]
  | every =>
    rw [scanCandidates_congr (v' := fun _ => true) (fun d => (hv d).2 trivial)]
    by_cases hlt : laneStart lanes w < laneStart lanes (w + 1)
    · obtain ⟨k, hk⟩ : ∃ k, laneStart lanes (w + 1) - laneStart lanes w = k + 1 := ⟨_, (Nat.sub_add_cancel (by omega)).symm⟩
      rw [hk, scanCandidates]; simp [hlt]
    · rw [show laneStart lanes (w + 1) - laneStart lanes w = 0 by omega, scanCandidates]; simp [hlt]

end Sys2Proof.Laws
end

