-- ==== Sys2Proof/Laws/Operands.lean ====
section
/-! SUPPORT. What the operand checks accept, and the first offender they report (60_exceptions.md R221, R223). -/

namespace Sys2Proof.Laws

open Sys2Proof.Machine

/-! ## Numbers in INFO -/

theorem infoNat_of_lt {v : Nat} (h : v < 2 ^ 64) : infoNat v = BitVec.ofNat 64 v := by
  unfold infoNat infoField
  rw [if_pos h]

/-! ## Tokens -/

theorem legalRepeat_iff (d l : U32) : legalRepeat d l = true ↔ legalToken (.rep d l) := by
  unfold legalRepeat legalToken Config.minLen Config.maxLen Config.minDist Config.maxDist
  rw [Bool.and_eq_true, Bool.and_eq_true, Bool.and_eq_true, decide_eq_true_iff, decide_eq_true_iff, decide_eq_true_iff,
    decide_eq_true_iff]
  exact ⟨fun h => ⟨h.1.1.1, h.1.1.2, h.1.2, h.2⟩, fun h => ⟨⟨⟨h.1, h.2.1⟩, h.2.2.1⟩, h.2.2.2⟩⟩

/-- The token check passes exactly on Repeats in range. -/
theorem checkTokens_none (toks : List Token) : ∀ k, checkTokens k toks = none ↔ ∀ t ∈ toks, legalToken t := by
  induction toks with
  | nil => intro k; simp [checkTokens]
  | cons t toks ih =>
    intro k
    cases t with
    | lit b =>
      simp only [checkTokens, reduceCtorEq, false_iff]
      intro h
      exact h (.lit b) List.mem_cons_self
    | rep d l =>
      rw [checkTokens]
      by_cases hl : legalRepeat d l = true
      · rw [if_pos hl, ih]
        simp only [List.mem_cons, forall_eq_or_imp]
        exact ⟨fun h => ⟨(legalRepeat_iff d l).1 hl, h⟩, fun h => h.2⟩
      · rw [if_neg hl]
        simp only [reduceCtorEq, false_iff]
        intro h
        exact hl ((legalRepeat_iff d l).2 (h _ List.mem_cons_self))

/-- The first offender is reported with its index: a Literal before its range would be asked (R223). -/
theorem checkTokens_offender {before after : List Token} {tok : Token} (hb : ∀ t ∈ before, legalToken t)
    (ht : ¬ legalToken tok) : ∀ k, checkTokens k (before ++ tok :: after) =
      some ⟨if Token.isLit tok then .literalInStatic else .tokenRange, infoNat (k + before.length)⟩ := by
  induction before with
  | nil =>
    intro k
    cases tok with
    | lit b => rfl
    | rep d l =>
      have hl : ¬ legalRepeat d l = true := fun h => ht ((legalRepeat_iff d l).1 h)
      simp only [List.nil_append, checkTokens, if_neg hl, Token.isLit, List.length_nil, Nat.add_zero]
      rfl
  | cons t before ih =>
    intro k
    have htl := hb t List.mem_cons_self
    cases t with
    | lit b => exact absurd htl id
    | rep d l =>
      have := ih (fun t h => hb t (List.mem_cons_of_mem _ h)) (k + 1)
      rw [List.cons_append, checkTokens, if_pos ((legalRepeat_iff d l).2 htl), this, List.length_cons,
        show k + 1 + before.length = k + (before.length + 1) by omega]

/-! ## Slots -/

/-- What the check accepts, both ways: slots that fit, with fileIds in range, above an earlier slot. -/
theorem firstBadSlot_of_fit {n nFiles : Nat} : ∀ {slots : List (Nat × Nat)} {prev : Option Nat},
    SlotsFit n (slots.map Prod.fst) → (∀ p ∈ slots, p.2 < nFiles) → (∀ q ∈ prev, ∀ p ∈ slots, q + 4 ≤ p.1) →
    firstBadSlot n nFiles prev slots = none := by
  intro slots
  induction slots with
  | nil => intro prev _ _ _; rfl
  | cons s slots ih =>
    obtain ⟨o, j⟩ := s
    intro prev hfit hid hprev
    obtain ⟨hin, hpw⟩ := hfit
    simp only [List.map_cons, List.mem_cons, forall_eq_or_imp, List.pairwise_cons] at hin hpw hid
    rw [firstBadSlot, if_neg]
    · refine ih ⟨hin.2, hpw.2⟩ hid.2 fun q hq p hp => ?_
      rw [Option.mem_def] at hq
      obtain rfl : o = q := Option.some.inj hq
      exact hpw.1 p.1 (List.mem_map_of_mem hp)
    · simp only [not_or, Nat.not_lt, Nat.not_le]
      refine ⟨hin.1, ?_, hid.1⟩
      cases prev with
      | none => simp
      | some q => simpa using hprev q rfl (o, j) List.mem_cons_self

theorem checkOffsets_of_fit {n : Nat} {offs : List Nat} (h : SlotsFit n offs) : checkOffsets n offs = none := by
  rw [checkOffsets, Option.map_eq_none_iff]
  refine firstBadSlot_of_fit ?_ ?_ ?_
  · rwa [List.map_map, show Prod.fst ∘ (fun o : Nat => (o, 0)) = id from rfl, List.map_id]
  · intro p hp
    obtain ⟨o, -, rfl⟩ := List.mem_map.1 hp
    exact Nat.one_pos
  · intro q hq; simp at hq

/-- The first offending slot is the one reported (R221). -/
theorem firstBadSlot_offender {n nFiles : Nat} {o j : Nat} {after : List (Nat × Nat)} :
    ∀ {before : List (Nat × Nat)} {prev : Option Nat}, SlotsFit n (before.map Prod.fst) → (∀ p ∈ before, p.2 < nFiles) →
    (∀ q ∈ prev, ∀ p ∈ before, q + 4 ≤ p.1) →
    (n < o + 4 ∨ (∃ q ∈ (before.getLast?.map Prod.fst).or prev, o < q + 4) ∨ nFiles ≤ j) →
    firstBadSlot n nFiles prev (before ++ (o, j) :: after) = some o := by
  intro before
  induction before with
  | nil =>
    intro prev _ _ _ h
    rw [List.nil_append, firstBadSlot, if_pos]
    rcases h with h | ⟨q, hq, hlt⟩ | h
    · exact .inl h
    · refine .inr (.inl ?_)
      have hq' : prev = some q := by simpa using hq
      rw [hq']; simpa using hlt
    · exact .inr (.inr h)
  | cons s before ih =>
    obtain ⟨o', j'⟩ := s
    intro prev hfit hid hprev h
    obtain ⟨hin, hpw⟩ := hfit
    simp only [List.map_cons, List.mem_cons, forall_eq_or_imp, List.pairwise_cons] at hin hpw hid
    rw [List.cons_append, firstBadSlot, if_neg]
    · refine ih ⟨hin.2, hpw.2⟩ hid.2 (fun q hq p hp => ?_) ?_
      · rw [Option.mem_def] at hq
        obtain rfl : o' = q := Option.some.inj hq
        exact hpw.1 p.1 (List.mem_map_of_mem hp)
      · rcases h with h | ⟨q, hq, hlt⟩ | h
        · exact .inl h
        · refine .inr (.inl ⟨q, ?_, hlt⟩)
          cases before with
          | nil => simpa using hq
          | cons b bs =>
            rw [List.getLast?_cons_cons] at hq
            cases hl : (b :: bs).getLast? with
            | none => simp at hl
            | some p => rw [hl] at hq; exact hq
        · exact .inr (.inr h)
    · simp only [not_or, Nat.not_lt, Nat.not_le]
      refine ⟨hin.1, ?_, hid.1⟩
      cases prev with
      | none => simp
      | some q => simpa using hprev q rfl (o', j') List.mem_cons_self

/-- SOLVE_SYSTEM's check passes on maps that fit. -/
theorem checkFiles_none {nFiles : Nat} : ∀ (files : List FileSpec) (i : Nat),
    checkFiles nFiles i files = none ↔
      ∀ f ∈ files, SlotsFit f.data.length (f.slots.map Prod.fst) ∧ ∀ p ∈ f.slots, p.2 < nFiles := by
  intro files
  induction files with
  | nil => intro i; simp [checkFiles]
  | cons f files ih =>
    intro i
    rw [checkFiles]
    simp only [List.mem_cons, forall_eq_or_imp]
    cases h : firstBadSlot f.data.length nFiles none f.slots with
    | none =>
      have h1 := firstBadSlot_none h
      simp only [ih]
      exact ⟨fun h2 => ⟨⟨h1.1, h1.2.1⟩, h2⟩, fun h2 => h2.2⟩
    | some o =>
      simp only [reduceCtorEq, false_iff, not_and]
      intro h1
      rw [firstBadSlot_of_fit h1.1 h1.2 (by intro q hq; simp at hq)] at h
      simp at h

/-- Files are examined in list order (R221). -/
theorem checkFiles_offender {nFiles : Nat} {f : FileSpec} {fa : List FileSpec} {o : Nat}
    (ho : firstBadSlot f.data.length nFiles none f.slots = some o) : ∀ (fb : List FileSpec) (i : Nat),
    (∀ g ∈ fb, SlotsFit g.data.length (g.slots.map Prod.fst) ∧ ∀ p ∈ g.slots, p.2 < nFiles) →
    checkFiles nFiles i (fb ++ f :: fa) = some ⟨.badOffset, infoOffset (i + fb.length) o⟩ := by
  intro fb
  induction fb with
  | nil => intro i _; rw [List.nil_append, checkFiles, ho]; rfl
  | cons g fb ih =>
    intro i h
    have hg := h g List.mem_cons_self
    rw [List.cons_append, checkFiles, firstBadSlot_of_fit hg.1 hg.2 (by intro q hq; simp at hq)]
    simp only
    rw [ih (i + 1) fun g' hg' => h g' (List.mem_cons_of_mem _ hg'), List.length_cons,
      show i + 1 + fb.length = i + (fb.length + 1) by omega]

end Sys2Proof.Laws
end

