-- ==== Sys2Proof/Laws/State.lean ====
section
/-! SUPPORT. Every field after every update of the state, so that no later proof unfolds one. -/

namespace Sys2Proof.Laws

open Sys2Proof.Machine

@[simp] theorem raise_params (r : Raise) (s : State) : (raise r s).params = s.params := rfl
@[simp] theorem raise_acc (r : Raise) (s : State) : (raise r s).acc = Config.freeAcc s.draws % 2 ^ s.params.accW := rfl
@[simp] theorem raise_cnt (r : Raise) (s : State) : (raise r s).cnt = Config.freeCnt s.draws := rfl
@[simp] theorem raise_status (r : Raise) (s : State) : (raise r s).status = (s.status ||| faultBit) &&& ~~~busyBit := rfl
@[simp] theorem raise_cause (r : Raise) (s : State) : (raise r s).cause = r.cause.code := rfl
@[simp] theorem raise_info (r : Raise) (s : State) : (raise r s).info = r.info := rfl
@[simp] theorem raise_out (r : Raise) (s : State) : (raise r s).out = s.out := rfl
@[simp] theorem raise_port (r : Raise) (s : State) : (raise r s).port = s.port := rfl
@[simp] theorem raise_results (r : Raise) (s : State) : (raise r s).results = s.results := rfl
@[simp] theorem raise_draws (r : Raise) (s : State) : (raise r s).draws = s.draws + 1 := rfl

@[simp] theorem warn_params (s : State) : (warn s).params = s.params := rfl
@[simp] theorem warn_acc (s : State) : (warn s).acc = s.acc := rfl
@[simp] theorem warn_cnt (s : State) : (warn s).cnt = s.cnt := rfl
@[simp] theorem warn_status (s : State) : (warn s).status = s.status ||| warnBit := rfl
@[simp] theorem warn_cause (s : State) : (warn s).cause = s.cause := rfl
@[simp] theorem warn_info (s : State) : (warn s).info = s.info := rfl
@[simp] theorem warn_out (s : State) : (warn s).out = s.out := rfl
@[simp] theorem warn_port (s : State) : (warn s).port = s.port := rfl
@[simp] theorem warn_results (s : State) : (warn s).results = s.results := rfl
@[simp] theorem warn_draws (s : State) : (warn s).draws = s.draws := rfl

@[simp] theorem setStatus_params (m : BitVec 8) (s : State) : (s.setStatus m).params = s.params := rfl
@[simp] theorem setStatus_acc (m : BitVec 8) (s : State) : (s.setStatus m).acc = s.acc := rfl
@[simp] theorem setStatus_cnt (m : BitVec 8) (s : State) : (s.setStatus m).cnt = s.cnt := rfl
@[simp] theorem setStatus_status (m : BitVec 8) (s : State) : (s.setStatus m).status = s.status ||| m := rfl
@[simp] theorem setStatus_cause (m : BitVec 8) (s : State) : (s.setStatus m).cause = s.cause := rfl
@[simp] theorem setStatus_info (m : BitVec 8) (s : State) : (s.setStatus m).info = s.info := rfl
@[simp] theorem setStatus_out (m : BitVec 8) (s : State) : (s.setStatus m).out = s.out := rfl
@[simp] theorem setStatus_port (m : BitVec 8) (s : State) : (s.setStatus m).port = s.port := rfl
@[simp] theorem setStatus_results (m : BitVec 8) (s : State) : (s.setStatus m).results = s.results := rfl
@[simp] theorem setStatus_draws (m : BitVec 8) (s : State) : (s.setStatus m).draws = s.draws := rfl

@[simp] theorem clearStatus_params (m : BitVec 8) (s : State) : (s.clearStatus m).params = s.params := rfl
@[simp] theorem clearStatus_acc (m : BitVec 8) (s : State) : (s.clearStatus m).acc = s.acc := rfl
@[simp] theorem clearStatus_cnt (m : BitVec 8) (s : State) : (s.clearStatus m).cnt = s.cnt := rfl
@[simp] theorem clearStatus_status (m : BitVec 8) (s : State) : (s.clearStatus m).status = s.status &&& ~~~m := rfl
@[simp] theorem clearStatus_cause (m : BitVec 8) (s : State) : (s.clearStatus m).cause = s.cause := rfl
@[simp] theorem clearStatus_info (m : BitVec 8) (s : State) : (s.clearStatus m).info = s.info := rfl
@[simp] theorem clearStatus_out (m : BitVec 8) (s : State) : (s.clearStatus m).out = s.out := rfl
@[simp] theorem clearStatus_port (m : BitVec 8) (s : State) : (s.clearStatus m).port = s.port := rfl
@[simp] theorem clearStatus_results (m : BitVec 8) (s : State) : (s.clearStatus m).results = s.results := rfl
@[simp] theorem clearStatus_draws (m : BitVec 8) (s : State) : (s.clearStatus m).draws = s.draws := rfl

@[simp] theorem resetRegisters_params (s : State) : (resetRegisters s).params = s.params := rfl
@[simp] theorem resetRegisters_acc (s : State) : (resetRegisters s).acc = 0 := rfl
@[simp] theorem resetRegisters_cnt (s : State) : (resetRegisters s).cnt = 0 := rfl
@[simp] theorem resetRegisters_status (s : State) : (resetRegisters s).status = 0 := rfl
@[simp] theorem resetRegisters_cause (s : State) : (resetRegisters s).cause = 0 := rfl
@[simp] theorem resetRegisters_info (s : State) : (resetRegisters s).info = 0 := rfl
@[simp] theorem resetRegisters_out (s : State) : (resetRegisters s).out = s.out := rfl
@[simp] theorem resetRegisters_port (s : State) : (resetRegisters s).port = s.port := rfl
@[simp] theorem resetRegisters_results (s : State) : (resetRegisters s).results = s.results := rfl
@[simp] theorem resetRegisters_draws (s : State) : (resetRegisters s).draws = s.draws := rfl

@[simp] theorem powerOnReset_params (s : State) : (powerOnReset s).params = s.params := rfl
@[simp] theorem powerOnReset_acc (s : State) : (powerOnReset s).acc = 0 := rfl
@[simp] theorem powerOnReset_cnt (s : State) : (powerOnReset s).cnt = 0 := rfl
@[simp] theorem powerOnReset_status (s : State) : (powerOnReset s).status = 0 := rfl
@[simp] theorem powerOnReset_cause (s : State) : (powerOnReset s).cause = 0 := rfl
@[simp] theorem powerOnReset_info (s : State) : (powerOnReset s).info = 0 := rfl
@[simp] theorem powerOnReset_out (s : State) : (powerOnReset s).out = [] := rfl
@[simp] theorem powerOnReset_port (s : State) : (powerOnReset s).port = s.port := rfl
@[simp] theorem powerOnReset_results (s : State) : (powerOnReset s).results = s.results := rfl
@[simp] theorem powerOnReset_draws (s : State) : (powerOnReset s).draws = s.draws := rfl

@[simp] theorem respond_params (r : Result) (s : State) : (respond r s).params = s.params := rfl
@[simp] theorem respond_acc (r : Result) (s : State) : (respond r s).acc = s.acc := rfl
@[simp] theorem respond_cnt (r : Result) (s : State) : (respond r s).cnt = s.cnt := rfl
@[simp] theorem respond_status (r : Result) (s : State) : (respond r s).status = s.status := rfl
@[simp] theorem respond_cause (r : Result) (s : State) : (respond r s).cause = s.cause := rfl
@[simp] theorem respond_info (r : Result) (s : State) : (respond r s).info = s.info := rfl
@[simp] theorem respond_out (r : Result) (s : State) : (respond r s).out = s.out := rfl
@[simp] theorem respond_port (r : Result) (s : State) : (respond r s).port = s.port := rfl
@[simp] theorem respond_results (r : Result) (s : State) : (respond r s).results = s.results ++ [r] := rfl
@[simp] theorem respond_draws (r : Result) (s : State) : (respond r s).draws = s.draws := rfl

@[simp] theorem storeAcc_params (w : BitWriter) (s : State) : (State.storeAcc w s).params = s.params := rfl
@[simp] theorem storeAcc_acc (w : BitWriter) (s : State) : (State.storeAcc w s).acc = w.acc := rfl
@[simp] theorem storeAcc_cnt (w : BitWriter) (s : State) : (State.storeAcc w s).cnt = BitVec.ofNat 3 w.cnt := rfl
@[simp] theorem storeAcc_status (w : BitWriter) (s : State) : (State.storeAcc w s).status = s.status := rfl
@[simp] theorem storeAcc_cause (w : BitWriter) (s : State) : (State.storeAcc w s).cause = s.cause := rfl
@[simp] theorem storeAcc_info (w : BitWriter) (s : State) : (State.storeAcc w s).info = s.info := rfl
@[simp] theorem storeAcc_out (w : BitWriter) (s : State) : (State.storeAcc w s).out = s.out := rfl
@[simp] theorem storeAcc_port (w : BitWriter) (s : State) : (State.storeAcc w s).port = s.port := rfl
@[simp] theorem storeAcc_results (w : BitWriter) (s : State) : (State.storeAcc w s).results = s.results := rfl
@[simp] theorem storeAcc_draws (w : BitWriter) (s : State) : (State.storeAcc w s).draws = s.draws := rfl

@[simp] theorem issueWord_params (nbits w : Nat) (s : State) : (issueWord nbits w s).params = s.params := rfl
@[simp] theorem issueWord_acc (nbits w : Nat) (s : State) : (issueWord nbits w s).acc = s.acc := rfl
@[simp] theorem issueWord_cnt (nbits w : Nat) (s : State) : (issueWord nbits w s).cnt = s.cnt := rfl
@[simp] theorem issueWord_status (nbits w : Nat) (s : State) : (issueWord nbits w s).status = s.status := rfl
@[simp] theorem issueWord_cause (nbits w : Nat) (s : State) : (issueWord nbits w s).cause = s.cause := rfl
@[simp] theorem issueWord_info (nbits w : Nat) (s : State) : (issueWord nbits w s).info = s.info := rfl
@[simp] theorem issueWord_out (nbits w : Nat) (s : State) : (issueWord nbits w s).out = s.out := rfl
@[simp] theorem issueWord_port (nbits w : Nat) (s : State) : (issueWord nbits w s).port = .request (requestOfWord nbits w) :: s.port := rfl
@[simp] theorem issueWord_results (nbits w : Nat) (s : State) : (issueWord nbits w s).results = s.results := rfl
@[simp] theorem issueWord_draws (nbits w : Nat) (s : State) : (issueWord nbits w s).draws = s.draws := rfl

@[simp] theorem afterField_params (v n : Nat) (s : State) : (s.afterField v n).params = s.params := rfl
@[simp] theorem afterField_status (v n : Nat) (s : State) : (s.afterField v n).status = s.status := rfl
@[simp] theorem afterField_cause (v n : Nat) (s : State) : (s.afterField v n).cause = s.cause := rfl
@[simp] theorem afterField_info (v n : Nat) (s : State) : (s.afterField v n).info = s.info := rfl
@[simp] theorem afterField_port (v n : Nat) (s : State) : (s.afterField v n).port = s.port := rfl
@[simp] theorem afterField_results (v n : Nat) (s : State) : (s.afterField v n).results = s.results := rfl
@[simp] theorem afterField_draws (v n : Nat) (s : State) : (s.afterField v n).draws = s.draws := rfl

@[simp] theorem writer_width (s : State) (out : List Byte) : (s.writer out).width = s.params.accW := rfl
@[simp] theorem writer_acc (s : State) (out : List Byte) : (s.writer out).acc = s.acc := rfl
@[simp] theorem writer_cnt (s : State) (out : List Byte) : (s.writer out).cnt = s.cnt.toNat := rfl
@[simp] theorem writer_out (s : State) (out : List Byte) : (s.writer out).out = out := rfl

end Sys2Proof.Laws
end

