-- ==== Sys2Proof/Laws/Ops.lean ====
section
/-! SUPPORT. One lemma for each shared operation: everything it can do. -/

namespace Sys2Proof.Laws

open Sys2Proof.Machine

/-! ## The status bits -/

theorem busy_of_status {s t : State} (h : s.status = t.status) : s.busy = t.busy := by rw [State.busy, State.busy, h]

theorem faulted_of_status {s t : State} (h : s.status = t.status) : s.faulted = t.faulted := by
  rw [State.faulted, State.faulted, h]

@[simp] theorem faulted_raise (r : Raise) (s : State) : (raise r s).faulted = true := by
  simp [State.faulted, faultBit, busyBit]

@[simp] theorem busy_raise (r : Raise) (s : State) : (raise r s).busy = false := by
  simp [State.busy, faultBit, busyBit]

@[simp] theorem warned_raise (r : Raise) (s : State) : (raise r s).warned = s.warned := by
  simp [State.warned, faultBit, busyBit]

@[simp] theorem found_raise (r : Raise) (s : State) : (raise r s).found = s.found := by
  simp [State.found, faultBit, busyBit]

@[simp] theorem faulted_resetRegisters (s : State) : (resetRegisters s).faulted = false := by simp [State.faulted]

@[simp] theorem busy_resetRegisters (s : State) : (resetRegisters s).busy = false := by simp [State.busy]

@[simp] theorem faulted_powerOnReset (s : State) : (powerOnReset s).faulted = false := by simp [State.faulted]

@[simp] theorem busy_powerOnReset (s : State) : (powerOnReset s).busy = false := by simp [State.busy]

@[simp] theorem faulted_warn (s : State) : (warn s).faulted = s.faulted := by simp [State.faulted, warnBit]

@[simp] theorem busy_warn (s : State) : (warn s).busy = s.busy := by simp [State.busy, warnBit]

@[simp] theorem faulted_respond (r : Result) (s : State) : (respond r s).faulted = s.faulted := rfl

@[simp] theorem busy_respond (r : Result) (s : State) : (respond r s).busy = s.busy := rfl

@[simp] theorem faulted_storeAcc (w : BitWriter) (s : State) : (State.storeAcc w s).faulted = s.faulted := rfl

@[simp] theorem busy_storeAcc (w : BitWriter) (s : State) : (State.storeAcc w s).busy = s.busy := rfl

/-! ## Faults -/

/-- A fault is the entry of 60_exceptions.md R224. -/
theorem faultEntry_raise (r : Raise) (s : State) : FaultEntry r.cause.code r.info s (raise r s) :=
  ⟨rfl, rfl, rfl, rfl, rfl, rfl, rfl⟩

/-- The codes of 60_exceptions.md R221 are 1 to 10. -/
theorem code_range (c : Cause) : 1 ≤ c.code.toNat ∧ c.code.toNat ≤ 10 := by cases c <;> decide

/-! ## Running a command -/

/-- Everything a command other than RESET can do (60_exceptions.md R223): refused unchanged, completed, or faulted. -/
theorem runCommand_cases {s t : State} {body : Except Raise State} (h : runCommand s body = .next t) :
    ((s.busy = true ∨ s.faulted = true) ∧ t = s) ∨
    (s.ready ∧ body = .ok t) ∨
    (s.ready ∧ ∃ r, body = .error r ∧ t = raise r s) := by
  unfold runCommand at h
  by_cases hb : s.busy || s.faulted
  · rw [if_pos hb] at h
    injection h with h
    exact .inl ⟨by simpa using hb, h.symm⟩
  · rw [if_neg hb] at h
    have hr : s.ready := by simpa [State.ready] using hb
    cases body with
    | ok u => injection h with h; exact .inr (.inl ⟨hr, by rw [h]⟩)
    | error r => injection h with h; exact .inr (.inr ⟨hr, r, rfl, h.symm⟩)

theorem runCommand_ready {s : State} (h : s.ready) (body : Except Raise State) :
    runCommand s body = match body with
      | .ok t => .next t
      | .error r => .next (raise r s) := by
  unfold runCommand
  rw [h.1, h.2]; rfl

theorem runCommand_refused {s : State} (h : s.busy = true ∨ s.faulted = true) (body : Except Raise State) :
    runCommand s body = .next s := by
  unfold runCommand
  rw [if_pos (by simpa using h)]

/-- A command always answers a next state. -/
theorem runCommand_next (s : State) (body : Except Raise State) : ∃ t, runCommand s body = .next t := by
  by_cases h : s.busy = true ∨ s.faulted = true
  · exact ⟨s, runCommand_refused h body⟩
  · have hr : s.ready := by
      simpa [State.ready, not_or] using h
    rw [runCommand_ready hr]
    cases body with
    | ok t => exact ⟨t, rfl⟩
    | error r => exact ⟨raise r s, rfl⟩

/-- A command that returns a value does so and changes nothing else. -/
theorem runValue_ok {s : State} (h : s.ready) (r : Result) : runValue s (.ok r) = .next (respond r s) := by
  rw [runValue, runCommand_ready h]; rfl

theorem runValue_error {s : State} (h : s.ready) (r : Raise) : runValue s (.error r) = .next (raise r s) := by
  rw [runValue, runCommand_ready h]; rfl

/-- Everything a command that only returns a value can do. -/
theorem runValue_cases {s t : State} {value : Except Raise Result} (h : runValue s value = .next t) :
    ((s.busy = true ∨ s.faulted = true) ∧ t = s) ∨
    (s.ready ∧ ∃ r, value = .ok r ∧ t = respond r s) ∨
    (s.ready ∧ ∃ r, value = .error r ∧ t = raise r s) := by
  rcases runCommand_cases h with h | ⟨hr, h⟩ | ⟨hr, r, h, ht⟩
  · exact .inl h
  · cases value with
    | ok r => exact .inr (.inl ⟨hr, r, rfl, by simpa [Except.map] using h.symm⟩)
    | error r => simp [Except.map] at h
  · cases value with
    | ok r => simp [Except.map] at h
    | error r' =>
      have : r' = r := by simpa [Except.map] using h
      exact .inr (.inr ⟨hr, r', rfl, by rw [ht, this]⟩)

theorem runEncoder_ok {s : State} (h : s.ready) {body : BitWriter → Except Raise BitWriter} {w : BitWriter}
    (hb : body (s.writer []) = .ok w) : runEncoder s body = .next (respond (.bytes w.out) (s.storeAcc w)) := by
  rw [runEncoder, runCommand_ready h, hb]; rfl

theorem runEncoder_error {s : State} (h : s.ready) {body : BitWriter → Except Raise BitWriter} {r : Raise}
    (hb : body (s.writer []) = .error r) : runEncoder s body = .next (raise r s) := by
  rw [runEncoder, runCommand_ready h, hb]; rfl

/-- Everything an encoder command can do. -/
theorem runEncoder_cases {s t : State} {body : BitWriter → Except Raise BitWriter} (h : runEncoder s body = .next t) :
    ((s.busy = true ∨ s.faulted = true) ∧ t = s) ∨
    (s.ready ∧ ∃ w, body (s.writer []) = .ok w ∧ t = respond (.bytes w.out) (s.storeAcc w)) ∨
    (s.ready ∧ ∃ r, body (s.writer []) = .error r ∧ t = raise r s) := by
  rcases runCommand_cases h with h | ⟨hr, h⟩ | ⟨hr, r, h, ht⟩
  · exact .inl h
  · cases hb : body (s.writer []) with
    | ok w => rw [hb] at h; exact .inr (.inl ⟨hr, w, rfl, by simpa [Except.map] using h.symm⟩)
    | error r => rw [hb] at h; simp [Except.map] at h
  · cases hb : body (s.writer []) with
    | ok w => rw [hb] at h; simp [Except.map] at h
    | error r' =>
      rw [hb] at h
      have : r' = r := by simpa [Except.map] using h
      exact .inr (.inr ⟨hr, r', rfl, by rw [ht, this]⟩)

/-- Everything a stream element can do (log 1). -/
theorem runElement_cases {s t : State} {put : BitWriter → BitWriter} (h : runElement s put = .next t) :
    (s.faulted = true ∧ t = s) ∨
    (s.faulted = false ∧ t = { s.storeAcc (put (s.writer s.out)) with out := (put (s.writer s.out)).out }) := by
  unfold runElement at h
  cases hf : s.faulted with
  | true => rw [hf] at h; simp at h; exact .inl ⟨rfl, h.symm⟩
  | false => rw [hf] at h; simp at h; exact .inr ⟨rfl, h.symm⟩

theorem runElement_live {s : State} (h : s.faulted = false) (put : BitWriter → BitWriter) :
    runElement s put = .next { s.storeAcc (put (s.writer s.out)) with out := (put (s.writer s.out)).out } := by
  rw [runElement, h]; rfl

theorem runElement_refused {s : State} (h : s.faulted = true) (put : BitWriter → BitWriter) :
    runElement s put = .next s := by rw [runElement, h]; rfl

/-! ## A step -/

/-- Everything a step can do when it answers a next state. -/
theorem step_cases {s t : State} (h : step s = .next t) :
    (s.port = [] ∧ t = s) ∨
    (∃ rest, s.port = .powerOnReset :: rest ∧ t = powerOnReset { s with port := rest }) ∨
    (∃ r rest i, s.port = .request r :: rest ∧ decode r = .ok i ∧ exec i { s with port := rest } = .next t) ∨
    (∃ r rest op, s.port = .request r :: rest ∧ decode r = .error (.illegalCommand op) ∧
      runIllegal op { s with port := rest } = .next t) := by
  unfold step takePort at h
  cases hp : s.port with
  | nil => rw [hp] at h; injection h with h; exact .inl ⟨rfl, h.symm⟩
  | cons e rest =>
    rw [hp] at h
    cases e with
    | powerOnReset => injection h with h; exact .inr (.inl ⟨rest, rfl, h.symm⟩)
    | request r =>
      simp only [runRequest] at h
      cases hd : decode r with
      | ok i => rw [hd] at h; exact .inr (.inr (.inl ⟨r, rest, i, rfl, hd, h⟩))
      | error why =>
        rw [hd] at h
        cases why with
        | illegalCommand op => exact .inr (.inr (.inr ⟨r, rest, op, rfl, hd, h⟩))
        | truncated => cases h
        | trailingBits => cases h
        | blockTypeNeverProduced => cases h
        | literalSymbol => cases h
        | reservedLengthSymbol => cases h
        | reservedDistanceSymbol => cases h
        | extraNeverProduced => cases h

end Sys2Proof.Laws
end

