-- ==== Sys2Proof/Tests/Slice0.lean ====
section
/-! SUPPORT. Tests. Expected values are those of spec/95_test_vectors.md, of the examples of the rules, and of the code
columns of 30_encoding.md; and, for each statement with hypotheses, a witness that meets them. -/

namespace Sys2Proof.Tests

open Sys2Proof Sys2Proof.Machine Sys2Proof.Laws

set_option Elab.async false

/-! ## Helpers -/

/-- The state after reset with an accumulator. -/
def at' (acc : Nat) (cnt : BitVec 3) : State := { State.reset with acc := acc, cnt := cnt }

/-- The next state. -/
def nextOf (o : Host.Outcome State Fault Refusal) : Option State :=
  match o with
  | .next s => some s
  | .fault _ => none
  | .refused _ => none

theorem next_of {o : Host.Outcome State Fault Refusal} {t : State} (h : nextOf o = some t) : o = .next t := by
  cases o with
  | next s => exact congrArg _ (Option.some.inj h)
  | fault _ => cases h
  | refused _ => cases h

/-- The records returned. -/
def records (o : Host.Outcome State Fault Refusal) : Option (List Result) := (nextOf o).map State.results

/-- The accumulator left. -/
def left (o : Host.Outcome State Fault Refusal) : Option (Nat × BitVec 3) := (nextOf o).map fun s => (s.acc, s.cnt)

/-- STATUS, CAUSE and INFO left, and the number of records. -/
def registers (o : Host.Outcome State Fault Refusal) : Option (BitVec 8 × BitVec 8 × BitVec 64 × Nat) :=
  (nextOf o).map fun s => (s.status, s.cause, s.info, s.results.length)

/-- Bits written as digits. -/
def digits (l : List Nat) : List Bool := l.map fun n => n == 1

/-- The bits decode to the instruction, whose encoding they are. -/
def decodesFromItsBits (row : Instr × StreamContext × List Nat) : Bool :=
  (decode (.element row.2.1 (digits row.2.2))).toOption == some row.1 &&
    encode row.1 == .element row.2.1 (digits row.2.2) && row.1.wellFormed

/-- Run behind five pending bits 10010, the element leaves those bits followed by its own. -/
def putsItsBits (row : Instr × StreamContext × List Nat) : Bool :=
  match exec row.1 (at' 0x09 5) with
  | .next s => bitsOf s.out ++ bitsLsb s.cnt.toNat s.acc == digits ([1, 0, 0, 1, 0] ++ row.2.2)
  | .fault _ => false
  | .refused _ => false

/-! ## Encodings, written out from the code columns of 30_encoding.md R94 and R96 and from R84 and R88 -/

/-- The headers of R84 and the end-of-block code of R88. -/
def headerWords : List (Instr × StreamContext × List Nat) :=
  [(.hdrStoredNotlast, .header, [0, 0, 0]),
   (.hdrStaticNotlast, .header, [0, 1, 0]),
   (.hdrStoredLast, .header, [1, 0, 0]),
   (.hdrStaticLast, .header, [1, 1, 0]),
   (.eob, .litLen, [0, 0, 0, 0, 0, 0, 0])]

/-- R94, symbols 257 to 271; extra bits least significant first. -/
def lengthWordsLow : List (Instr × StreamContext × List Nat) :=
  [(.len257, .litLen, [0, 0, 0, 0, 0, 0, 1]),
   (.len258, .litLen, [0, 0, 0, 0, 0, 1, 0]),
   (.len259, .litLen, [0, 0, 0, 0, 0, 1, 1]),
   (.len260, .litLen, [0, 0, 0, 0, 1, 0, 0]),
   (.len261, .litLen, [0, 0, 0, 0, 1, 0, 1]),
   (.len262, .litLen, [0, 0, 0, 0, 1, 1, 0]),
   (.len263, .litLen, [0, 0, 0, 0, 1, 1, 1]),
   (.len264, .litLen, [0, 0, 0, 1, 0, 0, 0]),
   (.len265 1, .litLen, [0, 0, 0, 1, 0, 0, 1, 1]),
   (.len266 1, .litLen, [0, 0, 0, 1, 0, 1, 0, 1]),
   (.len267 1, .litLen, [0, 0, 0, 1, 0, 1, 1, 1]),
   (.len268 1, .litLen, [0, 0, 0, 1, 1, 0, 0, 1]),
   (.len269 2, .litLen, [0, 0, 0, 1, 1, 0, 1, 0, 1]),
   (.len270 2, .litLen, [0, 0, 0, 1, 1, 1, 0, 0, 1]),
   (.len271 2, .litLen, [0, 0, 0, 1, 1, 1, 1, 0, 1])]

/-- R94, symbols 272 to 285. -/
def lengthWordsHigh : List (Instr × StreamContext × List Nat) :=
  [(.len272 2, .litLen, [0, 0, 1, 0, 0, 0, 0, 0, 1]),
   (.len273 3, .litLen, [0, 0, 1, 0, 0, 0, 1, 1, 1, 0]),
   (.len274 3, .litLen, [0, 0, 1, 0, 0, 1, 0, 1, 1, 0]),
   (.len275 3, .litLen, [0, 0, 1, 0, 0, 1, 1, 1, 1, 0]),
   (.len276 3, .litLen, [0, 0, 1, 0, 1, 0, 0, 1, 1, 0]),
   (.len277 11, .litLen, [0, 0, 1, 0, 1, 0, 1, 1, 1, 0, 1]),
   (.len278 11, .litLen, [0, 0, 1, 0, 1, 1, 0, 1, 1, 0, 1]),
   (.len279 11, .litLen, [0, 0, 1, 0, 1, 1, 1, 1, 1, 0, 1]),
   (.len280 11, .litLen, [1, 1, 0, 0, 0, 0, 0, 0, 1, 1, 0, 1]),
   (.len281 19, .litLen, [1, 1, 0, 0, 0, 0, 0, 1, 1, 1, 0, 0, 1]),
   (.len282 19, .litLen, [1, 1, 0, 0, 0, 0, 1, 0, 1, 1, 0, 0, 1]),
   (.len283 19, .litLen, [1, 1, 0, 0, 0, 0, 1, 1, 1, 1, 0, 0, 1]),
   (.len284 19, .litLen, [1, 1, 0, 0, 0, 1, 0, 0, 1, 1, 0, 0, 1]),
   (.len285, .litLen, [1, 1, 0, 0, 0, 1, 0, 1])]

/-- R96, symbols 0 to 14. -/
def distanceWordsLow : List (Instr × StreamContext × List Nat) :=
  [(.dist0, .dist, [0, 0, 0, 0, 0]),
   (.dist1, .dist, [0, 0, 0, 0, 1]),
   (.dist2, .dist, [0, 0, 0, 1, 0]),
   (.dist3, .dist, [0, 0, 0, 1, 1]),
   (.dist4 1, .dist, [0, 0, 1, 0, 0, 1]),
   (.dist5 1, .dist, [0, 0, 1, 0, 1, 1]),
   (.dist6 2, .dist, [0, 0, 1, 1, 0, 0, 1]),
   (.dist7 2, .dist, [0, 0, 1, 1, 1, 0, 1]),
   (.dist8 3, .dist, [0, 1, 0, 0, 0, 1, 1, 0]),
   (.dist9 3, .dist, [0, 1, 0, 0, 1, 1, 1, 0]),
   (.dist10 11, .dist, [0, 1, 0, 1, 0, 1, 1, 0, 1]),
   (.dist11 11, .dist, [0, 1, 0, 1, 1, 1, 1, 0, 1]),
   (.dist12 19, .dist, [0, 1, 1, 0, 0, 1, 1, 0, 0, 1]),
   (.dist13 19, .dist, [0, 1, 1, 0, 1, 1, 1, 0, 0, 1]),
   (.dist14 35, .dist, [0, 1, 1, 1, 0, 1, 1, 0, 0, 0, 1])]

/-- R96, symbols 15 to 29. -/
def distanceWordsHigh : List (Instr × StreamContext × List Nat) :=
  [(.dist15 35, .dist, [0, 1, 1, 1, 1, 1, 1, 0, 0, 0, 1]),
   (.dist16 67, .dist, [1, 0, 0, 0, 0, 1, 1, 0, 0, 0, 0, 1]),
   (.dist17 67, .dist, [1, 0, 0, 0, 1, 1, 1, 0, 0, 0, 0, 1]),
   (.dist18 131, .dist, [1, 0, 0, 1, 0, 1, 1, 0, 0, 0, 0, 0, 1]),
   (.dist19 131, .dist, [1, 0, 0, 1, 1, 1, 1, 0, 0, 0, 0, 0, 1]),
   (.dist20 259, .dist, [1, 0, 1, 0, 0, 1, 1, 0, 0, 0, 0, 0, 0, 1]),
   (.dist21 259, .dist, [1, 0, 1, 0, 1, 1, 1, 0, 0, 0, 0, 0, 0, 1]),
   (.dist22 515, .dist, [1, 0, 1, 1, 0, 1, 1, 0, 0, 0, 0, 0, 0, 0, 1]),
   (.dist23 515, .dist, [1, 0, 1, 1, 1, 1, 1, 0, 0, 0, 0, 0, 0, 0, 1]),
   (.dist24 1027, .dist, [1, 1, 0, 0, 0, 1, 1, 0, 0, 0, 0, 0, 0, 0, 0, 1]),
   (.dist25 1027, .dist, [1, 1, 0, 0, 1, 1, 1, 0, 0, 0, 0, 0, 0, 0, 0, 1]),
   (.dist26 2051, .dist, [1, 1, 0, 1, 0, 1, 1, 0, 0, 0, 0, 0, 0, 0, 0, 0, 1]),
   (.dist27 2051, .dist, [1, 1, 0, 1, 1, 1, 1, 0, 0, 0, 0, 0, 0, 0, 0, 0, 1]),
   (.dist28 4099, .dist, [1, 1, 1, 0, 0, 1, 1, 0, 0, 0, 0, 0, 0, 0, 0, 0, 0, 1]),
   (.dist29 4099, .dist, [1, 1, 1, 0, 1, 1, 1, 0, 0, 0, 0, 0, 0, 0, 0, 0, 0, 1])]

theorem test_header_words_decode : headerWords.all decodesFromItsBits = true := by decide +kernel

theorem test_header_words_put : headerWords.all putsItsBits = true := by decide +kernel

theorem test_length_words_low_decode : lengthWordsLow.all decodesFromItsBits = true := by decide +kernel

theorem test_length_words_low_put : lengthWordsLow.all putsItsBits = true := by decide +kernel

theorem test_length_words_high_decode : lengthWordsHigh.all decodesFromItsBits = true := by decide +kernel

theorem test_length_words_high_put : lengthWordsHigh.all putsItsBits = true := by decide +kernel

theorem test_distance_words_low_decode : distanceWordsLow.all decodesFromItsBits = true := by decide +kernel

theorem test_distance_words_low_put : distanceWordsLow.all putsItsBits = true := by decide +kernel

theorem test_distance_words_high_decode : distanceWordsHigh.all decodesFromItsBits = true := by decide +kernel

theorem test_distance_words_high_put : distanceWordsHigh.all putsItsBits = true := by decide +kernel

/-- Every opcode of R80 decodes to its command, with the operands R80 lists. -/
theorem test_opcodes_decode :
    ([(0x00, { }), (0x01, { }), (0x02, { }), (0x10, { input := [1], window := 5, lookahead := 6, minMatch := 7 }),
      (0x20, { lits := [2], isLast := true }), (0x21, { toks := [.rep 1 3], isLast := true }),
      (0x22, { toks := [.lit 4] }), (0x23, { tok := .rep 5 6 }), (0x30, { input := [7] }),
      (0x31, { input := [8], prior := 9 }), (0x40, { a := 1, b := 2 }), (0x41, { a := 3, b := 4 }),
      (0x42, { a := 5, b := 6 }), (0x43, { a := 7 }), (0x44, { a := 8, b := 9 }),
      (0x50, { data := [1], offsets := [2] }), (0x51, { files := [⟨[1], [(0, 0)]⟩] }),
      (0x52, { data := [3], offsets := [4] })] : List (Byte × Operands)).map
        (fun c => (decode (.command ⟨c.1, c.2⟩)).toOption) =
    [some .reset, some .finish, some .rdacc, some (.tokenize [1] 5 6 7), some (.encStored [2] true),
      some (.encStatic [.rep 1 3] true), some (.encode [.lit 4]), some (.fiveByteRepeat (.rep 5 6)), some (.crc32 [7]),
      some (.crc32Cont [8] 9), some (.mulraw 1 2), some (.divmod 3 4), some (.xgcd 5 6), some (.minv 7),
      some (.divide 8 9), some (.solveRank1 [1] [2]), some (.solveSystem [⟨[1], [(0, 0)]⟩]),
      some (.bruteforce [3] [4])] := by decide +kernel

/-- R104: the opcodes on either side of R80's ranges are illegal. -/
theorem test_illegal_opcodes :
    ([0x03, 0x0F, 0x11, 0x1F, 0x24, 0x2F, 0x32, 0x3F, 0x45, 0x4F, 0x53, 0xFF] : List Byte).all
      (fun op => (decode (.command ⟨op, { }⟩)).toOption.isNone) = true := by decide +kernel

/-- Words of spec/opcode_table.json: LEN_265, DIST_9, DIST_24 as a wide row, HDR_STATIC_LAST and ENC_STORED. -/
theorem test_table_words : decodeTableWord 8 0x48 = some (.len265 0) ∧ decodeTableWord 8 0x12 = some (.dist9 0) ∧
    decodeTableWord 24 0x03 = some (.dist24 0) ∧ decodeTableWord 8 0x03 = some .hdrStaticLast ∧
    decodeTableWord 8 0x20 = some (.encStored [] false) := by decide +kernel

/-- Sets and maps are listed in ascending order, a member once (log 10). -/
theorem test_sets_are_canonical : canonSet [8, 2, 8] = [2, 8] ∧ canonMap [(11, 0), (6, 1), (11, 1)] = [(6, 1), (11, 0)] := by
  decide +kernel

/-! ## Ill-formed terms -/

theorem test_wf_rank1_descending : (Instr.solveRank1 [1, 2] [5, 2]).wellFormed = false := by decide

theorem test_wf_rank1_repeated : (Instr.solveRank1 [1, 2] [2, 2]).wellFormed = false := by decide

theorem test_wf_bruteforce_descending : (Instr.bruteforce [] [9, 1]).wellFormed = false := by decide

theorem test_wf_system_map : (Instr.solveSystem [⟨[], []⟩, ⟨[], [(6, 0), (6, 1)]⟩]).wellFormed = false := by decide

theorem test_wf_len284_extra31 : (Instr.len284 31).wellFormed = false ∧ (Instr.len284 30).wellFormed = true := by decide

/-! ## Commands -/

/-- 95_test_vectors.md P4 step 7: RESET in the faulted state. -/
theorem test_reset_leaves_fault :
    registers (exec .reset { at' 3 2 with status := 0x0E, cause := 4, info := 1 }) = some (0, 0, 0, 0) ∧
    left (exec .reset { at' 3 2 with status := 0x0E }) = some (0, 0) := by decide +kernel

/-- R126's example: from (2, 2) one byte 02. -/
theorem test_finish_emits : records (exec .finish (at' 2 2)) = some [.bytes [0x02]] ∧
    left (exec .finish (at' 2 2)) = some (0, 0) := by decide +kernel

theorem test_finish_empty : records (exec .finish (at' 0 0)) = some [.bytes []] := by decide +kernel

theorem test_rdacc : records (exec .rdacc (at' 2 6)) = some [.accumulator 2 6] := by decide +kernel

/-- R141: "abcXabcdYabcd", longest beats nearest. -/
theorem test_tokenize_longest :
    records (exec (.tokenize [0x61, 0x62, 0x63, 0x58, 0x61, 0x62, 0x63, 0x64, 0x59, 0x61, 0x62, 0x63, 0x64] 32768 258 3)
      State.reset) =
    some [.tokens [.lit 0x61, .lit 0x62, .lit 0x63, .lit 0x58, .rep 4 3, .lit 0x64, .lit 0x59, .rep 5 4]] := by
  decide +kernel

/-- 95_test_vectors.md 3: "aaaaaaaa" without overlap. -/
theorem test_tokenize_no_overlap :
    records (exec (.tokenize (List.replicate 8 0x61) 32768 258 3)
      { State.reset with params := { tokOverlap := false } }) =
    some [.tokens [.lit 0x61, .lit 0x61, .lit 0x61, .rep 3 3, .lit 0x61, .lit 0x61]] := by decide +kernel

/-- 95_test_vectors.md 4.3: seven pending ones. -/
theorem test_enc_stored_straddles : records (exec (.encStored [0xAA] true) (at' 127 7)) =
    some [.bytes [0xFF, 0x00, 0x01, 0x00, 0xFE, 0xFF, 0xAA]] := by decide +kernel

theorem test_enc_stored_five : records (exec (.encStored [0xAA] true) (at' 31 5)) =
    some [.bytes [0x3F, 0x01, 0x00, 0xFE, 0xFF, 0xAA]] := by decide +kernel

/-- R153's example. -/
theorem test_enc_static : records (exec (.encStatic [.rep 24 12, .rep 24 12] false) State.reset) =
    some [.bytes [0x42, 0x16, 0x47, 0x16, 0x07]] ∧
    left (exec (.encStatic [.rep 24 12, .rep 24 12] false) State.reset) = some (0, 2) := by decide +kernel

theorem test_enc_static_literal_first :
    registers (exec (.encStatic [.rep 1 3, .lit 0x61, .rep 0 3] false) State.reset) = some (0x02, 0x04, 1, 0) := by
  decide +kernel

/-- 95_test_vectors.md 4.4. -/
theorem test_encode_alternates :
    records (exec (.encode [.lit 0x61, .rep 1 4, .lit 0x62, .rep 1 3, .rep 6 6]) State.reset) =
    some [.bytes [0x00, 0x01, 0x00, 0xFE, 0xFF, 0x61, 0x02, 0x01, 0x00, 0x00, 0x01, 0x00, 0xFE, 0xFF, 0x62, 0x03, 0x02,
      0x08, 0x09, 0x00]] := by decide +kernel

theorem test_encode_own_index :
    registers (exec (.encode [.lit 0x61, .rep 1 2]) State.reset) = some (0x02, 0x03, 1, 0) := by decide +kernel

/-- R158's example, with pending bits that stay. -/
theorem test_five_byte : records (exec (.fiveByteRepeat (.rep 20 20)) (at' 0 6)) =
    some [.bytes [0x42, 0x88, 0x21, 0xC4, 0x00]] ∧
    left (exec (.fiveByteRepeat (.rep 20 20)) (at' 0 6)) = some (0, 6) := by decide +kernel

theorem test_five_byte_exact40 : records (exec (.fiveByteRepeat (.rep 5 6))
    { State.reset with params := { fiveByte := .exact40 } }) = some [.bytes []] := by decide +kernel

/-- The standard check value (43_crc32.md R173). -/
theorem test_crc32 : records (exec (.crc32 [0x31, 0x32, 0x33, 0x34, 0x35, 0x36, 0x37, 0x38, 0x39]) State.reset) =
    some [.crc 0xCBF43926] := by decide +kernel

/-- R171's check entries. -/
theorem test_crc_table : crcTable 1 = 0x77073096 ∧ crcTable 8 = 0x0EDB8832 ∧ crcTable 255 = 0x2D02EF8D := by
  decide +kernel

theorem test_crc32_cont_finalised :
    records (exec (.crc32Cont [0x36, 0x37, 0x38, 0x39] 0xCBF53A1C) State.reset) = some [.crc 0xCBF43926] := by
  decide +kernel

theorem test_crc32_cont_raw : records (exec (.crc32Cont [0x36, 0x37, 0x38, 0x39] 0x340AC5E3)
    { State.reset with params := { crcCont := .raw } }) = some [.crc 0x340BC6D9] := by decide +kernel

theorem test_mulraw : records (exec (.mulraw 0xDEADBEEF 0x12345678) State.reset) =
    some [.poly 0x0C42FDE8DE112DA8] := by decide +kernel

theorem test_mulraw_overflow : registers (exec (.mulraw 0x8000000000000000 2) State.reset) = some (0x02, 0x07, 64, 0) := by
  decide +kernel

theorem test_divmod : records (exec (.divmod 0xFFFFFFFFFFFFFFFF 0x104C11DB7) State.reset) =
    some [.quotRem 0xFC4F00B5 0x38FB2284] := by decide +kernel

theorem test_divmod_zero : registers (exec (.divmod 5 0) State.reset) = some (0x02, 0x08, 0, 0) := by decide +kernel

theorem test_xgcd : records (exec (.xgcd 0x12 0xC) State.reset) = some [.bezout 6 1 3] := by decide +kernel

theorem test_xgcd_generator : records (exec (.xgcd 0xDEADBEEF 0x104C11DB7) State.reset) =
    some [.bezout 1 0xBEB7FFB2 0x7CF2FEC9] := by decide +kernel

theorem test_minv : records (exec (.minv 0xEDB88320) State.reset) = some [.poly 0xB9DDCD23] := by decide +kernel

theorem test_minv_zero : registers (exec (.minv 0x209823B6E) State.reset) = some (0x02, 0x09, 0, 0) := by decide +kernel

theorem test_divide : records (exec (.divide 0xDEADBEEF 0x12345678) State.reset) = some [.poly 0x4AA7EDBA] := by
  decide +kernel

theorem test_xpowmod : xPowMod 33 = 0x09823B6E ∧ xPowMod 72 = 0x1B280D78 := by decide +kernel

/-- "hello" and a slot for its own CRC. -/
def helloSlot : List Byte := [0x68, 0x65, 0x6C, 0x6C, 0x6F, 1, 2, 3, 4]

theorem test_solve_rank1 : records (exec (.solveRank1 helloSlot [5]) State.reset) =
    some [.solved [0x68, 0x65, 0x6C, 0x6C, 0x6F, 0x0F, 0xF6, 0xCE, 0xB1] 0xB1CEF60F] := by decide +kernel

theorem test_solve_rank1_bad_offset : registers (exec (.solveRank1 (List.replicate 13 0) [2, 5]) State.reset) =
    some (0x02, 0x06, 5, 0) := by decide +kernel

/-- R205's example: two files that embed each other. -/
theorem test_solve_system :
    records (exec (.solveSystem
      [⟨[0x66, 0x69, 0x6C, 0x65, 0x30, 0x3A, 0, 0, 0, 0, 0x3A, 0, 0, 0, 0], [(6, 1), (11, 0)]⟩,
       ⟨[0, 0, 0, 0, 0x2D, 0x66, 0x69, 0x6C, 0x65, 0x31, 0x2D, 0, 0, 0, 0, 0x21], [(0, 0), (11, 1)]⟩]) State.reset) =
    some [.crcs [0xFD95EF26, 0xC65853C9]] := by decide +kernel

theorem test_solve_system_bad_file : registers (exec (.solveSystem [⟨[0, 0, 0, 0], [(0, 1)]⟩]) State.reset) =
    some (0x02, 0x06, 0, 0) := by decide +kernel

/-- 95_test_vectors.md 7.3, with four lanes. -/
theorem test_bruteforce :
    records (exec (.bruteforce helloSlot [5]) { State.reset with params := { moreLanes := 3 } }) =
      some [.searched [0x68, 0x65, 0x6C, 0x6C, 0x6F, 0x0F, 0xF6, 0xCE, 0xB1] 0xB1CEF60F true] ∧
    registers (exec (.bruteforce helloSlot [5]) State.reset) = some (0x08, 0, 0, 1) := by decide +kernel

/-- 95_test_vectors.md P4 steps 6 and 8: an undefined opcode in the faulted state and out of it. -/
theorem test_step_illegal :
    registers (step { State.reset with status := 2, cause := 4, port := [.request (.command ⟨0x7F, { }⟩)] }) =
      some (2, 4, 0, 0) ∧
    registers (step { State.reset with port := [.request (.command ⟨0x7F, { }⟩)] }) = some (2, 1, 0x7F, 0) := by
  decide +kernel

/-- The word of an opcode-table row runs as the very next step. -/
theorem test_fetch_word : records (step (State.reset.withFetchWord 8 0x02)) = some [.accumulator 0 0] := by decide +kernel

/-! ## Slots whose coefficients sum to 1 -/

/-- Ten offsets of an 87-byte buffer with S = 1, found by elimination outside Lean. -/
def singularOffsets : List Nat := [0, 9, 14, 19, 23, 39, 70, 74, 78, 82]

/-- A buffer whose zeroed CRC is not 0. -/
def zeros87 : List Byte := List.replicate 87 0

/-- A buffer whose zeroed CRC is 0. -/
def zeroCrc87 : List Byte := List.replicate 43 0 ++ [0xAF, 0xED, 0x6A, 0x2B] ++ List.replicate 40 0

theorem singular_fit : SlotsFit 87 singularOffsets := by
  refine ⟨by decide, by decide⟩

theorem test_singular_sum : 1 ^^^ slotSum 87 singularOffsets = 0 := by decide +kernel

set_option maxRecDepth 100000 in
theorem test_zeros87_crc : rev32 (Machine.crc32 (fillSlots 0 singularOffsets zeros87)) ≠ 0 := by decide +kernel

set_option maxRecDepth 100000 in
theorem test_zeroCrc87_crc : rev32 (Machine.crc32 (fillSlots 0 singularOffsets zeroCrc87)) = 0 := by decide +kernel

set_option maxRecDepth 100000 in
theorem test_bruteforce_exhausted :
    registers (exec (.bruteforce zeros87 singularOffsets) { State.reset with status := 0x08 }) = some (0x04, 0, 0, 1) := by
  decide +kernel

theorem selfConsistent_iff_valid {data : List Byte} {offs : List Nat} (c : U32) :
    SelfConsistent data offs c ↔ validCandidate data offs c = true := by
  rw [SelfConsistent, validCandidate, beq_iff_eq, zeroSlots, fillSlots_fillSlots]

set_option maxRecDepth 100000 in
theorem zeros87_none (c : U32) : ¬ SelfConsistent zeros87 singularOffsets c := by
  have hv : validSet zeros87 singularOffsets = .empty := by decide +kernel
  rw [selfConsistent_iff_valid, validSet_has (data := zeros87) singular_fit, hv]
  exact id

set_option maxRecDepth 100000 in
theorem zeroCrc87_every (c : U32) : SelfConsistent zeroCrc87 singularOffsets c := by
  have hv : validSet zeroCrc87 singularOffsets = .every := by decide +kernel
  rw [selfConsistent_iff_valid, validSet_has (data := zeroCrc87) singular_fit, hv]
  trivial

set_option maxRecDepth 100000 in
/-- R205: the column without a pivot is the second, whose file has slots that sum to 1. -/
theorem test_solve_system_column : registers (exec (.solveSystem
    [⟨[0x61], []⟩, ⟨zeros87, singularOffsets.map fun o => (o, 1)⟩]) State.reset) = some (0x02, 0x0A, 1, 0) := by
  decide +kernel

theorem test_hello_selfConsistent : SelfConsistent helloSlot [5] 0xB1CEF60F := by
  unfold SelfConsistent; decide +kernel

/-! ## Witnesses: states and operands that meet the hypotheses of the statements -/

/-- A ready state in the middle of a stream. -/
def mid : State := { at' 0x09 5 with results := [.bytes [0x02]] }

/-- A faulted state. -/
def faulted4 : State := { State.reset with status := 0x02, cause := 0x04 }

theorem mid_ready : mid.ready := by decide

theorem mid_clean : mid.carryClean := by decide

theorem witness_StepKeepsInvariant :
    Inv { mid with port := [.request (.command ⟨0x02, { }⟩)] } ∧
    step { mid with port := [.request (.command ⟨0x02, { }⟩)] } =
      .next { mid with results := [.bytes [0x02], .accumulator 0x09 5] } := by
  refine ⟨⟨by decide, by decide, by decide, by decide, by decide, by decide⟩, rfl⟩

theorem witness_StepKeepsInvariant_faulted : Inv faulted4 ∧ step faulted4 = .next faulted4 :=
  ⟨⟨by decide, by decide, by decide, by decide, by decide, by decide⟩, rfl⟩

theorem witness_StepIdle : mid.port = [] := rfl

theorem witness_StepRunsDecodedInstruction :
    ({ mid with port := [.request (.command ⟨0x01, { }⟩)] } : State).port = .request (.command ⟨0x01, { }⟩) :: [] ∧
    decode (.command ⟨0x01, { }⟩) = .ok .finish := ⟨rfl, rfl⟩

theorem witness_StepPowerOnReset : ({ faulted4 with port := [.powerOnReset] } : State).port = .powerOnReset :: [] := rfl

theorem witness_IllegalOpcodeFaults :
    ({ mid with port := [.request (.command ⟨0x7F, { }⟩)] } : State).ready ∧
    (0x7F#8).toNat ∉ [0x00, 0x01, 0x02, 0x10, 0x20, 0x21, 0x22, 0x23, 0x30, 0x31, 0x40, 0x41, 0x42, 0x43, 0x44, 0x50,
      0x51, 0x52] := by decide

theorem witness_InfoHoldsTheNumber : (2 ^ 64 - 1 < 2 ^ 64) ∧ (2 ^ 16 - 1 < 2 ^ 16) ∧ (2 ^ 48 - 1 < 2 ^ 48) := by decide

theorem witness_FaultedStateRefusesCommands :
    faulted4.faulted = true ∧ isElement .finish = false ∧ Instr.finish ≠ .reset ∧
    readStatus { faulted4 with status := 0xFE } = 0x0E := by decide

/-- Log 1: an element runs while BUSY is 1. -/
theorem test_element_while_busy : exec .eob { mid with status := 0x01 } =
    .next { mid with status := 0x01, acc := 0, cnt := 4, out := [0x09] } :=
  next_of (by decide +kernel)

theorem witness_BusyRefusesCommands :
    ({ mid with status := 0x01 } : State).busy = true ∧ isElement .reset = false := by decide

theorem witness_OnlyResetLeavesTheFaultedState :
    (∃ t, step { faulted4 with port := [.request (.command ⟨0x00, { }⟩)] } = .next t ∧ t.faulted = false) ∧
    ∃ t, step { faulted4 with port := [.powerOnReset] } = .next t ∧ t.faulted = false :=
  ⟨⟨_, rfl, by decide⟩, ⟨_, rfl, by decide⟩⟩

theorem witness_FoundAndWarnChangeOnlyByBruteforceAndReset :
    Instr.rdacc ≠ .reset ∧ (∀ data offsets, Instr.rdacc ≠ .bruteforce data offsets) ∧
    ({ mid with status := 0x0C } : State).warned = true ∧
    exec .rdacc { mid with status := 0x0C } =
      .next { mid with status := 0x0C, results := [.bytes [0x02], .accumulator 0x09 5] } :=
  ⟨by decide, (by intro _ _ h; cases h), by decide, rfl⟩

theorem witness_ConfigurationAndPastResultsStay : isElement .eob = true ∧ (∃ t, exec .eob mid = .next t) ∧
    ∃ t, exec .rdacc mid = .next t := ⟨by decide, ⟨_, rfl⟩, ⟨_, rfl⟩⟩

theorem witness_EveryInstructionAnswersANextState : faulted4.faulted = true ∧ Instr.eob ≠ .reset := by decide

theorem witness_AccumulatorWrittenOnlyByEncoder :
    isElement .rdacc = false ∧ ¬ WritesCarry .rdacc ∧ Instr.rdacc ≠ .reset ∧ ∃ t, exec .rdacc mid = .next t :=
  ⟨by decide, (by intro h; cases h), by decide, ⟨_, rfl⟩⟩

theorem witness_EncoderBytesDependOnCarryAlone :
    WritesCarry .finish ∧ mid.ready ∧ (at' 0x09 5).ready ∧ mid.carryClean ∧ mid.acc = (at' 0x09 5).acc ∧
    mid.cnt = (at' 0x09 5).cnt ∧ (∃ t, exec .finish mid = .next t) ∧ (∃ t, exec .finish (at' 0x09 5) = .next t) ∧
    mid ≠ at' 0x09 5 :=
  ⟨.finish, by decide, by decide, by decide, rfl, rfl, ⟨_, rfl⟩, ⟨_, rfl⟩, by decide⟩

theorem witness_OtherResultsDependOnOperandsAlone :
    OperandsOnly (.divmod 5 0) ∧ OperandsOnly (.crc32 [1]) ∧ mid.ready ∧ State.reset.ready ∧
    mid.params = State.reset.params ∧ (∃ t, exec (.crc32 [1]) mid = .next t) ∧
    ∃ t, exec (.crc32 [1]) State.reset = .next t :=
  ⟨.divmod _ _, .crc32 _, by decide, by decide, rfl, ⟨_, rfl⟩, ⟨_, rfl⟩⟩

theorem witness_DecodeOfEncode : (Instr.solveRank1 helloSlot [0, 5]).wellFormed = true ∧
    (Instr.len284 30).wellFormed = true := by decide

theorem witness_EncodeOfDecodedElement :
    decode (.element .litLen [false, false, false, true, false, false, true, true]) = .ok (.len265 1) := rfl

theorem witness_ElementReadFromAStream : (Instr.dist8 7).wellFormed = true ∧
    encode (.dist8 7) = .element .dist [false, true, false, false, false, true, true, true] := ⟨rfl, rfl⟩

/-- Each clause at both ends of its range. -/
theorem witness_NeverProducedBitsRejected :
    ([0xC6, 0xC7].all fun v => (decodeElement .litLen (bitsMsb 8 v)).toOption.isNone) = true ∧
    ([0x30, 0xBF, 0xC8, 0xFF].all fun v => (decodeElement .litLen (bitsMsb 8 v ++ [true])).toOption.isNone) = true ∧
    ([30, 31].all fun v => (decodeElement .dist (bitsMsb 5 v)).toOption.isNone) = true ∧
    (decodeElement .litLen (bitsMsb 8 0xC5)).toOption = some (.len285, []) := by decide +kernel

/-- The ends of the ranges. -/
theorem witness_RowSelection : spelled (lengthElement 3) = some 3 ∧ lengthElement 257 = .len284 30 ∧
    lengthElement 258 = .len285 ∧ distanceElement 1 = .dist0 ∧ distanceElement 32768 = .dist29 8191 := by decide +kernel

/-- The run of elements meets the hypotheses every element's statement has. -/
theorem witness_HeadersAndEobPutTheirBits : mid.faulted = false ∧ mid.acc < 2 ^ mid.params.accW := by decide

theorem witness_LengthSymbolsWithoutExtraPutTheirCode : mid.faulted = false ∧ mid.acc < 2 ^ mid.params.accW := by decide

theorem witness_LengthSymbolsWithExtraPutCodeAndExtra :
    mid.faulted = false ∧ mid.acc < 2 ^ mid.params.accW ∧ (30 : BitVec 5) ≠ 31 := by decide

theorem witness_DistanceSymbolsWithoutExtraPutTheirCode : mid.faulted = false ∧ mid.acc < 2 ^ mid.params.accW := by decide

theorem witness_DistanceSymbolsWithExtraPutCodeAndExtra : mid.faulted = false ∧ mid.acc < 2 ^ mid.params.accW := by decide

theorem witness_ResetClearsEverything : faulted4.busy = false ∧ mid.busy = false := by decide

theorem witness_FinishPadsAndReturns :
    mid.ready ∧ mid.carryClean ∧ (at' 0 0).ready ∧ (at' 0 0).carryClean ∧ faulted4.faulted = true := by decide

theorem witness_RdaccReturnsTheAccumulator : mid.ready ∧ faulted4.faulted = true := by decide

theorem witness_TokenizeIsGreedy : mid.ready ∧ 32768 ≤ 32768 ∧ 258 ≤ 258 ∧ 3 ≤ 3 ∧ 3 ≤ 258 := by decide

theorem witness_TokenizeReconstructsTheInput :
    mid.ready ∧ ∃ t, exec (.tokenize [1, 1, 1, 1] 32768 258 3) mid = .next t := ⟨by decide, ⟨_, rfl⟩⟩

/-- Both sides of each bound, and the two cases of Literals only. -/
theorem witness_TokenizeChecksItsBounds :
    registers (exec (.tokenize [1] 32769 259 2) mid) = some (2, 2, 1, 1) ∧
    registers (exec (.tokenize [1] 32768 259 2) mid) = some (2, 2, 2, 1) ∧
    registers (exec (.tokenize [1] 32768 258 2) mid) = some (2, 2, 3, 1) ∧
    registers (exec (.tokenize [1] 32768 258 259) mid) = some (2, 2, 3, 1) ∧
    records (exec (.tokenize [1, 1, 1, 1] 0 258 3) State.reset) = some [.tokens [.lit 1, .lit 1, .lit 1, .lit 1]] ∧
    records (exec (.tokenize [1, 1, 1, 1] 9 2 3) State.reset) = some [.tokens [.lit 1, .lit 1, .lit 1, .lit 1]] := by
  decide +kernel

theorem witness_EncStoredEmitsTheBlock : mid.ready ∧ mid.carryClean ∧
    (List.replicate 65535 (0 : Byte)).length ≤ 65535 ∧ 65535 < (List.replicate 65536 (0 : Byte)).length :=
  ⟨by decide, by decide, by rw [List.length_replicate], by rw [List.length_replicate]; decide⟩

theorem witness_EncStaticEmitsTheBlock :
    mid.ready ∧ mid.carryClean ∧ ∀ t ∈ [Token.rep 1 3, .rep 32768 258], legalToken t := by
  refine ⟨by decide, by decide, ?_⟩
  intro t ht
  rcases List.mem_cons.1 ht with rfl | ht
  · exact ⟨by decide, by decide, by decide, by decide⟩
  · rw [List.mem_singleton.1 ht]; exact ⟨by decide, by decide, by decide, by decide⟩

theorem witness_EncStaticIsItsElements :
    (at' 0x09 5).ready ∧ (at' 0x09 5).carryClean ∧ (at' 0x09 5).out = [] ∧ ∀ t ∈ [Token.rep 24 12], legalToken t := by
  refine ⟨by decide, by decide, rfl, ?_⟩
  intro t ht
  rw [List.mem_singleton.1 ht]; exact ⟨by decide, by decide, by decide, by decide⟩

theorem witness_EncStaticRefusesTokens : mid.ready ∧ (∀ t ∈ [Token.rep 24 12], legalToken t) ∧
    ¬ legalToken (.lit 0) ∧ ¬ legalToken (.rep 1 259) ∧ ¬ legalToken (.rep 0 3) ∧ ¬ legalToken (.rep 32769 3) ∧
    ¬ legalToken (.rep 1 2) := by
  refine ⟨by decide, ?_, id, ?_, ?_, ?_, ?_⟩
  · intro t ht
    rw [List.mem_singleton.1 ht]; exact ⟨by decide, by decide, by decide, by decide⟩
  all_goals (unfold legalToken; decide)

/-- Tokens of which at most 65535 are Literals, all Repeats in range, are encodable. -/
theorem encodable_of_short {toks : List Token} (h : ∀ d l, Token.rep d l ∈ toks → legalToken (.rep d l))
    (hl : toks.length ≤ 65535) : Encodable toks := by
  refine ⟨h, ?_⟩
  intro before run after he
  rw [he] at hl
  simp only [List.length_append, List.length_map] at hl
  omega

theorem encodable_sample : Encodable [.lit 0x61, .rep 1 9] := by
  refine encodable_of_short ?_ (by decide)
  intro d l h
  simp only [List.mem_cons, Token.rep.injEq, reduceCtorEq, false_or, List.not_mem_nil, or_false] at h
  obtain ⟨rfl, rfl⟩ := h
  exact ⟨by decide, by decide, by decide, by decide⟩

theorem witness_EncodeCompletes : mid.ready ∧ mid.carryClean ∧ Encodable [.lit 0x61, .rep 1 9] ∧ Encodable [] :=
  ⟨by decide, by decide, encodable_sample, encodable_of_short (by simp) (by decide)⟩

theorem witness_EncodeAlternatesBlocks :
    mid.ready ∧ mid.carryClean ∧ Encodable ([.lit 0x61] ++ [.rep 1 9]) ∧ [Token.lit 0x61] ≠ [] ∧
    (∀ t ∈ [Token.lit 0x61], ∀ u ∈ [Token.lit 0x61], Token.isLit t = Token.isLit u) ∧
    ∀ t ∈ [Token.lit 0x61], ∀ u ∈ [Token.rep 1 9].head?, Token.isLit t ≠ Token.isLit u := by
  refine ⟨by decide, by decide, encodable_sample, by decide, by decide, by decide⟩

theorem witness_EncodedStreamInflates :
    (at' 0 0).ready ∧ (at' 0 0).acc = 0 ∧ (at' 0 0).cnt = 0 ∧ Encodable [.lit 0x61, .rep 1 9] ∧
    [Token.lit 0x61, .rep 1 9] ≠ [] ∧
    (∃ t out, exec (.encode [.lit 0x61, .rep 1 9]) (at' 0 0) = .next t ∧ Returned [.bytes out] (at' 0 0) t) ∧
    inflate [0x00, 0x01, 0x00, 0xFE, 0xFF, 0x61, 0x83, 0x03, 0x00] = some (List.replicate 10 0x61) :=
  ⟨by decide, rfl, rfl, encodable_sample, by decide, ⟨_, _, rfl, rfl⟩, by decide +kernel⟩

theorem witness_TokenizeEncodeRoundTrip :
    (∃ t, exec (.tokenize (List.replicate 10 0x61) 32768 258 3) (at' 0 0) = .next t ∧
      Returned [.tokens [.lit 0x61, .rep 1 9]] (at' 0 0) t ∧
      ∃ u out, exec (.encode [.lit 0x61, .rep 1 9]) t = .next u ∧ Returned [.bytes out] t u) ∧
    Encodable [.lit 0x61, .rep 1 9] := by
  refine ⟨⟨{ at' 0 0 with results := [.tokens [.lit 0x61, .rep 1 9]] }, ?_, rfl, _, _, rfl, rfl⟩, encodable_sample⟩
  exact next_of (by decide +kernel)

theorem witness_EncodeRefusesTokens : mid.ready ∧ Encodable [.lit 0x61, .rep 1 9] ∧ ¬ legalToken (.rep 1 259) ∧
    65535 < (List.replicate 65536 (0 : Byte)).length ∧
    (∀ u ∈ [Token.lit 0x61, .rep 1 9].getLast?, Token.isLit u = false) ∧
    (∀ u ∈ ([] : List Token).head?, Token.isLit u = false) :=
  ⟨by decide, encodable_sample, by unfold legalToken; decide, by rw [List.length_replicate]; decide, by decide, by decide⟩

theorem witness_FiveByteRepeatSplits : mid.ready ∧ legalToken (.rep 20 20) ∧ legalToken (.rep 24 24) :=
  ⟨by decide, ⟨by decide, by decide, by decide, by decide⟩, ⟨by decide, by decide, by decide, by decide⟩⟩

theorem witness_FiveByteRepeatRefusesTokens : mid.ready ∧ ¬ legalToken (.lit 0x61) ∧ ¬ legalToken (.rep 1 259) ∧
    ¬ legalToken (.rep 0 10) :=
  ⟨by decide, id, by unfold legalToken; decide, by unfold legalToken; decide⟩

theorem witness_Crc32ReturnsTheRemainder : mid.ready := by decide

theorem witness_Crc32ContResumes : mid.ready ∧ mid.params.crcCont = .finalised ∧
    ({ mid with params := { crcCont := .raw } } : State).params.crcCont = .raw ∧
    (0xCBF53A1C : U32) = Machine.crc32 [0x31, 0x32, 0x33, 0x34, 0x35] := by decide +kernel

theorem isDegree_of {a : Poly} {n : Nat} (h : a.getLsbD n = true) (hz : ∀ m < 64, n < m → a.getLsbD m = false) :
    IsDegree a n :=
  ⟨h, fun m hm => if h64 : m < 64 then hz m h64 hm else BitVec.getLsbD_of_ge a m (by omega)⟩

/-- Degrees summing to 63 and to 64, and an operand with no degree. -/
theorem witness_MulrawIsTheProduct : mid.ready ∧ IsDegree 0x80000000 31 ∧ IsDegree 0x100000000 32 ∧
    ∀ n, ¬ IsDegree 0 n :=
  ⟨by decide, isDegree_of (by decide) (by decide), isDegree_of (by decide) (by decide), fun n h => by
    have := h.1; simp at this⟩

theorem witness_DivmodIsLongDivision : mid.ready ∧ (0x7 : Poly) ≠ 0 := by decide

theorem witness_XgcdFollowsTheRecursion : mid.ready ∧ (0x7 : Poly) ≠ 0 := by decide

theorem witness_XgcdIsBezout : mid.ready ∧
    ∃ t, exec (.xgcd 0x12 0xC) mid = .next t ∧ Returned [.bezout 6 1 3] mid t :=
  ⟨by decide, { mid with results := [.bytes [0x02], .bezout 6 1 3] }, next_of (by decide +kernel), rfl⟩

theorem witness_MinvIsTheInverse : mid.ready ∧ (divPair 0x209823B6E Config.G).2 = 0 ∧
    (divPair 0x2 Config.G).2 ≠ 0 := by decide +kernel

theorem witness_DivideIsFieldDivision : mid.ready ∧ (divPair 0 Config.G).2 = 0 ∧
    (divPair 0x12345678 Config.G).2 ≠ 0 := by decide +kernel

theorem hello_fit : SlotsFit helloSlot.length [5] := ⟨by decide, by decide⟩

theorem witness_SolveRank1IsAFixedPoint : mid.ready ∧ SlotsFit helloSlot.length [5] ∧
    1 ^^^ slotSum helloSlot.length [5] ≠ 0 ∧ SlotsFit zeros87.length singularOffsets ∧
    1 ^^^ slotSum zeros87.length singularOffsets = 0 :=
  ⟨by decide, hello_fit, by decide +kernel, singular_fit, test_singular_sum⟩

theorem witness_SelfConsistentCrcCount : SlotsFit helloSlot.length [5] ∧
    1 ^^^ slotSum helloSlot.length [5] ≠ 0 ∧ SlotsFit zeros87.length singularOffsets ∧
    1 ^^^ slotSum zeros87.length singularOffsets = 0 ∧
    rev32 (Machine.crc32 (fillSlots 0 singularOffsets zeros87)) ≠ 0 ∧ zeroCrc87.length = 87 ∧
    rev32 (Machine.crc32 (fillSlots 0 singularOffsets zeroCrc87)) = 0 :=
  ⟨hello_fit, by decide +kernel, singular_fit, test_singular_sum, test_zeros87_crc, by decide, test_zeroCrc87_crc⟩

/-- One file without slots has one list of CRCs. -/
theorem witness_SolveSystemSolvesTheFiles_unique : mid.ready ∧ FilesFit [⟨[0x61], []⟩] ∧ Consistent [⟨[0x61], []⟩] [0xE8B7BE43] ∧
    ∀ other, Consistent [⟨[0x61], []⟩] other → other = [0xE8B7BE43] := by
  have hc : Machine.crc32 [0x61] = 0xE8B7BE43 := by decide +kernel
  refine ⟨by decide, ?_, ⟨rfl, ?_⟩, ?_⟩
  · intro f hf
    rw [List.mem_singleton.1 hf]
    exact ⟨⟨by simp, by simp⟩, by simp⟩
  · intro i f hf
    match i, hf with
    | 0, hf =>
      simp only [List.getElem?_cons_zero, Option.some.injEq] at hf ⊢
      rw [← hf]; exact hc.symm
    | _ + 1, hf => simp at hf
  · rintro other ⟨hl, h⟩
    match other, hl with
    | [c], _ =>
      have := h 0 ⟨[0x61], []⟩ rfl
      simp only [List.getElem?_cons_zero, Option.some.injEq] at this
      rw [this]; exact congrArg (fun x => [x]) hc

/-- One file whose slots sum to 1 has none. -/
theorem witness_SolveSystemSolvesTheFiles_none : mid.ready ∧ FilesFit [⟨zeros87, singularOffsets.map fun o => (o, 0)⟩] ∧
    ¬ ∃ crcs, Consistent [⟨zeros87, singularOffsets.map fun o => (o, 0)⟩] crcs ∧
      ∀ other, Consistent [⟨zeros87, singularOffsets.map fun o => (o, 0)⟩] other → other = crcs := by
  refine ⟨by decide, ?_, ?_⟩
  · intro f hf
    rw [List.mem_singleton.1 hf]
    exact ⟨⟨by decide, by decide⟩, by decide⟩
  · rintro ⟨crcs, ⟨hl, h⟩, -⟩
    match crcs, hl with
    | [c], _ =>
      have := h 0 ⟨zeros87, singularOffsets.map fun o => (o, 0)⟩ rfl
      simp only [List.getElem?_cons_zero, Option.some.injEq] at this
      refine zeros87_none c ?_
      rw [SelfConsistent, fillSlots]
      rw [completeFile, List.foldl_map] at this
      exact this.symm

/-- The least dependent column can be the first and a later one. -/
theorem witness_SolveSystemSolvesTheFiles_column :
    ColumnsDependent [⟨zeros87, singularOffsets.map fun o => (o, 0)⟩] 0 ∧
    ColumnsDependent [⟨[0x61], []⟩, ⟨zeros87, singularOffsets.map fun o => (o, 1)⟩] 1 ∧
    ¬ ColumnsDependent [⟨[0x61], []⟩, ⟨zeros87, singularOffsets.map fun o => (o, 1)⟩] 0 := by
  refine ⟨⟨fun _ => 1, ⟨0, by decide, by decide⟩, ?_⟩, ⟨fun j => if j = 1 then 1 else 0, ⟨1, by decide, by decide⟩, ?_⟩, ?_⟩
  · intro i f hf
    match i, hf with
    | 0, hf => rw [← Option.some.inj hf]; decide +kernel
    | _ + 1, hf => simp at hf
  · intro i f hf
    match i, hf with
    | 0, hf => rw [← Option.some.inj hf]; decide +kernel
    | 1, hf => rw [← Option.some.inj hf]; decide +kernel
    | _ + 2, hf => simp at hf
  · rintro ⟨u, ⟨j, hj, hne⟩, h⟩
    have hj0 : j = 0 := by omega
    have h0 : 0#64 ^^^ mulMod 1 ((u 0).setWidth 64) = 0 := h 0 ⟨[0x61], []⟩ rfl
    have hd : deg ((u 0).setWidth 64) < 32 := deg_lt_of_getLsbD (by decide) fun i hi => by
      rw [BitVec.getLsbD_setWidth, BitVec.getLsbD_of_ge _ _ hi, Bool.and_false]
    rw [BitVec.zero_xor, ← residue_eq_zero (deg_mulMod _ _), residue_mulMod (by decide) hd, residue_one, one_mul,
      residue_eq_zero hd] at h0
    exact hne (hj0 ▸ by bv_omega)

/-- One valid CRC, and every CRC valid. -/
theorem witness_BruteforceFindsAValidCrc : mid.ready ∧ SlotsFit helloSlot.length [5] ∧
    (∃ c, SelfConsistent helloSlot [5] c) ∧ SlotsFit zeroCrc87.length singularOffsets ∧
    ∀ c, SelfConsistent zeroCrc87 singularOffsets c :=
  ⟨by decide, hello_fit, ⟨_, test_hello_selfConsistent⟩, singular_fit, zeroCrc87_every⟩

theorem witness_BruteforceExhausts : mid.ready ∧ SlotsFit zeros87.length singularOffsets ∧
    ∀ c, ¬ SelfConsistent zeros87 singularOffsets c := ⟨by decide, singular_fit, zeros87_none⟩

/-- A slot past the end, one that overlaps, and a fileId out of range. -/
theorem witness_SolversCheckOffsets : mid.ready ∧ SlotsFit 9 [0] ∧ (9 < 6 + 4) ∧ (∃ p ∈ [0].getLast?, 3 < p + 4) ∧
    (⟨[0, 0, 0, 0], [(0, 1)]⟩ : FileSpec).slots = [] ++ (0, 1) :: [] ∧ SlotsFit 4 (([] : List (Nat × Nat)).map Prod.fst) ∧
    ([] ++ (⟨[0, 0, 0, 0], [(0, 1)]⟩ : FileSpec) :: []).length ≤ 1 :=
  ⟨by decide, ⟨by decide, by decide⟩, by decide, ⟨0, rfl, by decide⟩, rfl, ⟨by simp, by simp⟩, by decide⟩

end Sys2Proof.Tests
end

section
/-! PROOFS. What every instruction can do, said once: which of five shared operations runs it, and what state that
operation leaves. The invariant of 10_state.md and the rules about FOUND and WARN follow from it. -/

namespace Sys2Proof.Proofs

open Sys2Proof.Machine Sys2Proof.Laws

/-! ## Row selection (30_encoding.md R95, R97) -/

/-- A value at or above the table's first base selects the last row whose base is at most the value. -/
theorem rowFor_spec {t : List SymbolRow} {v : Nat} (ht : 0 < t.length) (h0 : (tableRow t 0).base ≤ v) :
    rowFor t v < t.length ∧ (tableRow t (rowFor t v)).base ≤ v ∧
      ∀ k < t.length, (tableRow t k).base ≤ v → k ≤ rowFor t v := by
  obtain ⟨hmem, hmax⟩ := List.max?_eq_some_iff.1 (show (0 :: (List.range t.length).filter
    fun k => decide ((tableRow t k).base ≤ v)).max? = some (rowFor t v) from rfl)
  have hrow : ∀ k, k ∈ 0 :: (List.range t.length).filter (fun k => decide ((tableRow t k).base ≤ v)) ↔
      k < t.length ∧ (tableRow t k).base ≤ v := by
    intro k
    simp only [List.mem_cons, List.mem_filter, List.mem_range, decide_eq_true_eq, or_iff_right_iff_imp]
    rintro rfl
    exact ⟨ht, h0⟩
  obtain ⟨hlt, hle⟩ := (hrow _).1 hmem
  exact ⟨hlt, hle, fun k hk hb => hmax k ((hrow k).2 ⟨hk, hb⟩)⟩

/-- Where each row's extra bits reach the next row's base, and the last row's reach `top`, the difference from the
selected row's base fits the row's extra bits. -/
theorem rowFor_fits {t : List SymbolRow} {v top : Nat}
    (hreach : ∀ k < t.length, (if k + 1 < t.length then (tableRow t (k + 1)).base else top + 1) ≤
      (tableRow t k).base + 2 ^ (tableRow t k).extra)
    (ht : 0 < t.length) (h0 : (tableRow t 0).base ≤ v) (hv : v ≤ top) :
    v - (tableRow t (rowFor t v)).base < 2 ^ (tableRow t (rowFor t v)).extra := by
  obtain ⟨hlt, hle, hlast⟩ := rowFor_spec ht h0
  have hnext := hreach _ hlt
  split at hnext
  next hk =>
    have := mt (hlast _ hk) (by omega)
    omega
  next => omega

/-- A legal length's row and extra bits. -/
theorem rowFor_lenTable {v : Nat} (h3 : 3 ≤ v) (h258 : v ≤ 258) : rowFor lenTable v < 29 ∧
    v - (tableRow lenTable (rowFor lenTable v)).base < 2 ^ (tableRow lenTable (rowFor lenTable v)).extra :=
  ⟨(rowFor_spec (by decide) h3).1, rowFor_fits (by decide) (by decide) h3 h258⟩

/-- A legal distance's row and extra bits. -/
theorem rowFor_distTable {v : Nat} (h1 : 1 ≤ v) (hmax : v ≤ 32768) : rowFor distTable v < 30 ∧
    v - (tableRow distTable (rowFor distTable v)).base < 2 ^ (tableRow distTable (rowFor distTable v)).extra :=
  ⟨(rowFor_spec (by decide) h1).1, rowFor_fits (by decide) (by decide) h1 hmax⟩

/-! ## The encoder keeps the accumulator clean (10_state.md R24) -/

/-- The bits of a token in a static block: its length symbol, then its distance symbol
(42_static_huffman_encoder.md R152). -/
def tokenBits : Token → List Bool
  | .lit _ => []
  | .rep d l =>
    let i := rowFor lenTable l.toNat
    let j := rowFor distTable d.toNat
    symbolBits (litLenCode (lenSymbol i)) (tableRow lenTable i).extra (l.toNat - (tableRow lenTable i).base) ++
      symbolBits (distCode j) (tableRow distTable j).extra (d.toNat - (tableRow distTable j).base)

theorem puts_putToken {t : Token} (ht : legalToken t) : Puts (BitWriter.putToken t) (tokenBits t) := by
  cases t with
  | lit b => exact ht.elim
  | rep d l =>
    obtain ⟨hl3, hl258, hd1, hdmax⟩ := ht
    obtain ⟨hi, hlen⟩ := rowFor_lenTable hl3 hl258
    obtain ⟨hj, hdist⟩ := rowFor_distTable hd1 hdmax
    exact (puts_putLength hi hlen).comp (puts_putDistance hj hdist)

/-- Putting each element of a list in turn puts their bits one after another. -/
theorem puts_foldl {α : Type} {put : α → BitWriter → BitWriter} {bits : α → List Bool} (l : List α)
    (h : ∀ a ∈ l, Puts (put a) (bits a)) : Puts (fun w => l.foldl (fun w a => put a w) w) (l.flatMap bits) := by
  induction l with
  | nil => exact puts_id
  | cons a l ih =>
    exact (h a List.mem_cons_self).comp (ih fun b hb => h b (List.mem_cons_of_mem a hb))

/-- A static block up to its padding puts its header, its tokens and the end-of-block code
(42_static_huffman_encoder.md R153). -/
theorem puts_staticBody {toks : List Token} (isLast : Bool) (h : ∀ t ∈ toks, legalToken t) :
    Puts (fun w => (toks.foldl (fun w t => w.putToken t) (w.putHeader isLast 1)).putEob)
      (bitsLsb 3 (isLast.toNat + 2 * 1) ++ toks.flatMap tokenBits ++ List.replicate 7 false) :=
  ((puts_putHeader isLast (by decide)).comp (puts_foldl toks fun t ht => puts_putToken (h t ht))).comp puts_putEob

theorem clean_append {w : BitWriter} (hw : Clean w) (bs : List Byte) : Clean (w.append bs) :=
  ⟨hw.wide, hw.few, hw.clean⟩

/-- An encoder body that completes leaves a clean accumulator of the same width when it is given one. -/
def KeepsClean (body : BitWriter → Except Raise BitWriter) : Prop :=
  ∀ w w', Clean w → body w = .ok w' → Clean w' ∧ w'.width = w.width

theorem keepsClean_align : KeepsClean fun w => .ok w.align := by
  rintro w w' hw ⟨⟩
  obtain ⟨-, hclean, -, -, hwidth, -⟩ := align_spec hw
  exact ⟨hclean, hwidth⟩

theorem keepsClean_storedBlock (lits : List Byte) (isLast : Bool) : KeepsClean (storedBlock lits isLast) := by
  intro w w' hw h
  simp only [storedBlock] at h
  split at h
  next => cases h
  next =>
    cases h
    have hput := puts_putHeader isLast (btype := 0) (by decide)
    obtain ⟨-, hclean, -, -, hwidth, -⟩ := align_spec (hput.clean w hw)
    exact ⟨clean_append hclean _, hwidth.trans (hput.width w hw)⟩

theorem keepsClean_staticBlock (first : Nat) (toks : List Token) (isLast : Bool) :
    KeepsClean (staticBlock first toks isLast) := by
  intro w w' hw h
  unfold staticBlock at h
  split at h
  next => cases h
  next hcheck =>
    cases h
    have hput := puts_staticBody isLast ((checkTokens_none toks first).1 hcheck)
    cases isLast with
    | false => exact ⟨hput.clean w hw, hput.width w hw⟩
    | true =>
      obtain ⟨-, hclean, -, -, hwidth, -⟩ := align_spec (hput.clean w hw)
      exact ⟨hclean, hwidth.trans (hput.width w hw)⟩

/-- Each block of ENCODE's dispatch loop (R156) keeps the accumulator clean, whichever kind its run asks for. -/
theorem keepsClean_encodeRuns (fuel : Nat) : ∀ ti toks, KeepsClean (encodeRuns fuel ti toks) := by
  induction fuel with
  | zero => rintro ti toks w w' hw ⟨⟩; exact ⟨hw, rfl⟩
  | succ fuel ih =>
    intro ti toks w w' hw h
    cases toks with
    | nil => cases h; exact ⟨hw, rfl⟩
    | cons t rest =>
      simp only [encodeRuns] at h
      split at h
      next => cases h
      next w₁ hblock =>
        have hfirst : Clean w₁ ∧ w₁.width = w.width := by
          split at hblock
          next => exact keepsClean_storedBlock _ _ w w₁ hw hblock
          next => exact keepsClean_staticBlock _ _ _ w w₁ hw hblock
        obtain ⟨hclean, hwidth⟩ := ih _ _ w₁ w' hfirst.1 h
        exact ⟨hclean, hwidth.trans hfirst.2⟩

/-! ## How each instruction runs -/

/-- The five ways an instruction runs: RESET; a command that only returns a value; an encoder command; BRUTEFORCE; and a
stream element, which puts its own bits. -/
inductive RunsAs (s : State) (i : Instr) : Prop where
  | reset (hi : i = .reset)
  | value (hi : OperandsOnly i ∨ i = .rdacc) (value : Except Raise Result) (run : exec i s = runValue s value)
  | encoder (hi : WritesCarry i) (body : BitWriter → Except Raise BitWriter) (keeps : KeepsClean body)
    (run : exec i s = runEncoder s body)
  | search (data : List Byte) (offsets : List Nat) (hi : i = .bruteforce data offsets)
  | element (hi : isElement i = true) (put : BitWriter → BitWriter) (puts : Puts put (elementBits i))
    (run : exec i s = runElement s put)

theorem RunsAs.header {s : State} {i : Instr} (isLast : Bool) {btype : Nat} (hb : btype < 4)
    (hi : encode i = headerRequest isLast btype) (run : exec i s = runElement s (BitWriter.putHeader isLast btype)) :
    RunsAs s i :=
  .element (by rw [isElement, hi]; rfl) _ (by rw [elementBits, hi]; exact puts_putHeader isLast hb) run

theorem RunsAs.length {s : State} {i : Instr} {row extra : Nat} (hrow : row < 29)
    (hextra : extra < 2 ^ (tableRow lenTable row).extra) (hi : encode i = lengthRequest row extra)
    (run : exec i s = runElement s (BitWriter.putLength row extra)) : RunsAs s i :=
  .element (by rw [isElement, hi]; rfl) _ (by rw [elementBits, hi]; exact puts_putLength hrow hextra) run

theorem RunsAs.distance {s : State} {i : Instr} {symbol extra : Nat} (hsymbol : symbol < 30)
    (hextra : extra < 2 ^ (tableRow distTable symbol).extra) (hi : encode i = distanceRequest symbol extra)
    (run : exec i s = runElement s (BitWriter.putDistance symbol extra)) : RunsAs s i :=
  .element (by rw [isElement, hi]; rfl) _ (by rw [elementBits, hi]; exact puts_putDistance hsymbol hextra) run

theorem runsAs (s : State) (i : Instr) : RunsAs s i := by
  cases i with
  | reset => exact .reset rfl
  | finish => exact .encoder .finish _ keepsClean_align rfl
  | rdacc => exact .value (.inr rfl) (.ok (.accumulator s.acc s.cnt)) rfl
  | tokenize => exact .value (.inl (.tokenize ..)) _ rfl
  | encStored lits isLast => exact .encoder (.encStored ..) _ (keepsClean_storedBlock lits isLast) rfl
  | encStatic toks isLast => exact .encoder (.encStatic ..) _ (keepsClean_staticBlock 0 toks isLast) rfl
  | encode toks => exact .encoder (.encode ..) _ (keepsClean_encodeRuns toks.length 0 toks) rfl
  | fiveByteRepeat => exact .value (.inl (.fiveByteRepeat ..)) _ rfl
  | crc32 input => exact .value (.inl (.crc32 ..)) (.ok (.crc (crc32 input))) rfl
  | crc32Cont input prior =>
    exact .value (.inl (.crc32Cont ..)) (.ok (.crc (crc32Cont s.params.crcCont input prior))) rfl
  | mulraw => exact .value (.inl (.mulraw ..)) _ rfl
  | divmod => exact .value (.inl (.divmod ..)) _ rfl
  | xgcd a b =>
    exact .value (.inl (.xgcd ..))
      (.ok (.bezout (extendedGcd a b).1 (extendedGcd a b).2.1 (extendedGcd a b).2.2)) rfl
  | minv => exact .value (.inl (.minv ..)) _ rfl
  | divide => exact .value (.inl (.divide ..)) _ rfl
  | solveRank1 => exact .value (.inl (.solveRank1 ..)) _ rfl
  | solveSystem => exact .value (.inl (.solveSystem ..)) _ rfl
  | bruteforce => exact .search _ _ rfl
  | hdrStoredNotlast | hdrStaticNotlast | hdrStoredLast | hdrStaticLast => exact .header _ (by decide) rfl rfl
  | eob => exact .element rfl _ puts_putEob rfl
  | len257 | len258 | len259 | len260 | len261 | len262 | len263 | len264 | len285 =>
    exact .length (by decide) (by decide) rfl rfl
  | len265 e | len266 e | len267 e | len268 e | len269 e | len270 e | len271 e | len272 e | len273 e | len274 e
  | len275 e | len276 e | len277 e | len278 e | len279 e | len280 e | len281 e | len282 e | len283 e | len284 e =>
    exact .length (by decide) e.isLt rfl rfl
  | dist0 | dist1 | dist2 | dist3 => exact .distance (by decide) (by decide) rfl rfl
  | dist4 e | dist5 e | dist6 e | dist7 e | dist8 e | dist9 e | dist10 e | dist11 e | dist12 e | dist13 e | dist14 e
  | dist15 e | dist16 e | dist17 e | dist18 e | dist19 e | dist20 e | dist21 e | dist22 e | dist23 e | dist24 e
  | dist25 e | dist26 e | dist27 e | dist28 e | dist29 e =>
    exact .distance (by decide) e.isLt rfl rfl

/-! ## What each instruction can do -/

/-- Everything an instruction that answers a next state can do: leave the state (a refusal, 60_exceptions.md R226 and
70_reset_and_hazards.md R255), reset it, take a fault, return a value, return an encoder's bytes and keep its
accumulator, search, or put a stream element's bits. -/
inductive Effect (i : Instr) (s : State) : State → Prop where
  | refused (h : s.busy = true ∨ s.faulted = true) : Effect i s s
  | reset (hi : i = .reset) (h : s.busy = false) : Effect i s (resetRegisters s)
  | fault (h : s.ready) (r : Raise) : Effect i s (raise r s)
  | value (h : s.ready) (hi : OperandsOnly i ∨ i = .rdacc) (r : Result) : Effect i s (respond r s)
  | encoder (h : s.ready) (hi : WritesCarry i) (w : BitWriter)
    (keeps : s.carryClean → Clean w ∧ w.width = s.params.accW) : Effect i s (respond (.bytes w.out) (s.storeAcc w))
  | search (h : s.ready) (data : List Byte) (offsets : List Nat) (hi : i = .bruteforce data offsets) :
    Effect i s (searchLanes data offsets s)
  | element (h : s.faulted = false) (hi : isElement i = true) (w : BitWriter)
    (keeps : s.carryClean → Clean w ∧ w.width = s.params.accW) : Effect i s { s.storeAcc w with out := w.out }

/-- The BitWriter a command starts from is clean when the accumulator is. -/
theorem clean_writer {s : State} (h : s.carryClean) (out : List Byte) : Clean (s.writer out) :=
  ⟨Nat.le_add_right 32 s.params.accExtra, s.cnt.isLt, h⟩

theorem execReset_cases {s t : State} (h : execReset s = .next t) :
    (s.busy = true ∧ t = s) ∨ (s.busy = false ∧ t = resetRegisters s) := by
  unfold execReset at h
  split at h
  next hb => cases h; exact .inl ⟨hb, rfl⟩
  next hb => cases h; exact .inr ⟨by simpa using hb, rfl⟩

/-- Everything BRUTEFORCE can do: refused, searched, or stopped by its offsets (45_crc_solver.md R201, R206). -/
theorem execBruteforce_cases {data : List Byte} {offsets : List Nat} {s t : State}
    (h : execBruteforce data offsets s = .next t) :
    ((s.busy = true ∨ s.faulted = true) ∧ t = s) ∨ (s.ready ∧ t = searchLanes data offsets s) ∨
      (s.ready ∧ ∃ r, checkOffsets data.length offsets = some r ∧ t = raise r s) := by
  unfold execBruteforce at h
  obtain hrefused | ⟨hr, hok⟩ | ⟨hr, r, herr, ht⟩ := runCommand_cases h
  · exact .inl hrefused
  · split at hok
    next => cases hok
    next => cases hok; exact .inr (.inl ⟨hr, rfl⟩)
  · split at herr
    next r' hcheck => cases herr; exact .inr (.inr ⟨hr, r, hcheck, ht⟩)
    next => cases herr

/-- One case for each way an instruction runs, from what its shared operation can do. -/
theorem exec_effect {i : Instr} {s t : State} (h : exec i s = .next t) : Effect i s t := by
  cases runsAs s i with
  | reset hi =>
    subst hi
    obtain ⟨hb, rfl⟩ | ⟨hb, rfl⟩ := execReset_cases h
    · exact .refused (.inl hb)
    · exact .reset rfl hb
  | value hi value run =>
    obtain ⟨href, rfl⟩ | ⟨hr, r, -, rfl⟩ | ⟨hr, r, -, rfl⟩ := runValue_cases (run.symm.trans h)
    · exact .refused href
    · exact .value hr hi r
    · exact .fault hr r
  | encoder hi body keeps run =>
    obtain ⟨href, rfl⟩ | ⟨hr, w, hw, rfl⟩ | ⟨hr, r, -, rfl⟩ := runEncoder_cases (run.symm.trans h)
    · exact .refused href
    · exact .encoder hr hi w fun hc => keeps _ w (clean_writer hc []) hw
    · exact .fault hr r
  | search data offsets hi =>
    subst hi
    obtain ⟨href, rfl⟩ | ⟨hr, rfl⟩ | ⟨hr, r, -, rfl⟩ := execBruteforce_cases h
    · exact .refused href
    · exact .search hr data offsets rfl
    · exact .fault hr r
  | element hi put puts run =>
    obtain ⟨hf, rfl⟩ | ⟨hf, rfl⟩ := runElement_cases (run.symm.trans h)
    · exact .refused (.inr hf)
    · exact .element hf hi _ fun hc =>
        ⟨puts.clean _ (clean_writer hc s.out), puts.width _ (clean_writer hc s.out)⟩

/-! ## The search's registers -/

/-- The search leaves its verdict in FOUND and WARN and writes no other register: FOUND is cleared, then FOUND set on a
match or WARN on exhaustion (45_crc_solver.md R206, 60_exceptions.md R230). -/
theorem searchLanes_frame (data : List Byte) (offsets : List Nat) (s : State) :
    (searchLanes data offsets s).params = s.params ∧ (searchLanes data offsets s).acc = s.acc ∧
      (searchLanes data offsets s).cnt = s.cnt ∧ (searchLanes data offsets s).cause = s.cause ∧
      (searchLanes data offsets s).info = s.info ∧
      ∃ verdict ∈ [foundBit, warnBit], (searchLanes data offsets s).status = (s.status &&& ~~~foundBit) ||| verdict := by
  unfold searchLanes
  split
  next => exact ⟨rfl, rfl, rfl, rfl, rfl, foundBit, by decide, rfl⟩
  next => exact ⟨rfl, rfl, rfl, rfl, rfl, warnBit, by decide, rfl⟩

/-- Clearing FOUND and setting FOUND or WARN keeps bits 0 and 1, clears no bit 2, and keeps the reserved bits. -/
theorem verdict_keeps_bits : ∀ verdict ∈ [foundBit, warnBit], ∀ b : BitVec 8,
    ((b &&& ~~~foundBit) ||| verdict).getLsbD 0 = b.getLsbD 0 ∧
    ((b &&& ~~~foundBit) ||| verdict).getLsbD 1 = b.getLsbD 1 ∧
    (b.getLsbD 2 = true → ((b &&& ~~~foundBit) ||| verdict).getLsbD 2 = true) ∧
    ((b &&& ~~~foundBit) ||| verdict) &&& 0xF0#8 = b &&& 0xF0#8 := by decide

/-- The search leaves BUSY, FAULT and the reserved bits, and does not clear WARN. -/
theorem searchLanes_status_bits (data : List Byte) (offsets : List Nat) (s : State) :
    (searchLanes data offsets s).busy = s.busy ∧ (searchLanes data offsets s).faulted = s.faulted ∧
      (s.warned = true → (searchLanes data offsets s).warned = true) ∧
      (searchLanes data offsets s).status &&& 0xF0#8 = s.status &&& 0xF0#8 := by
  obtain ⟨-, -, -, -, -, verdict, hverdict, hstatus⟩ := searchLanes_frame data offsets s
  simp only [State.busy, State.faulted, State.warned, hstatus]
  exact verdict_keeps_bits verdict hverdict s.status

/-! ## The invariant -/

/-- The invariant reads seven things of a state; it passes to any state that agrees on them. -/
theorem inv_of_eq {s t : State} (hs : Inv s) (hparams : t.params = s.params) (hacc : t.acc = s.acc) (hcnt : t.cnt = s.cnt)
    (hcause : t.cause = s.cause) (hinfo : t.info = s.info) (hbusy : t.busy = s.busy) (hfault : t.faulted = s.faulted)
    (hreserved : t.status &&& 0xF0#8 = s.status &&& 0xF0#8) : Inv t where
  accFits := by rw [hacc, hparams]; exact hs.accFits
  carryOnly := by rw [hacc, hcnt, hfault]; exact hs.carryOnly
  reservedZero := hreserved.trans hs.reservedZero
  idle := hbusy.trans hs.idle
  noCause := by rw [hfault, hcause, hinfo]; exact hs.noCause
  someCause := by rw [hfault, hcause]; exact hs.someCause

/-- A state whose five registers are 0 meets the invariant, whatever else it holds (10_state.md R36). -/
theorem inv_of_zero {s : State} (hacc : s.acc = 0) (hstatus : s.status = 0) (hcause : s.cause = 0) (hinfo : s.info = 0) :
    Inv s where
  accFits := by rw [hacc]; exact Nat.two_pow_pos _
  carryOnly _ := by rw [hacc]; exact Nat.two_pow_pos _
  reservedZero := by rw [hstatus]; rfl
  idle := by rw [State.busy, hstatus]; rfl
  noCause _ := ⟨hcause, hinfo⟩
  someCause h := by rw [State.faulted, hstatus] at h; cases h

theorem inv_port {s : State} (hs : Inv s) (port : List PortEvent) : Inv { s with port := port } :=
  inv_of_eq hs rfl rfl rfl rfl rfl rfl rfl rfl

/-- A fault leaves ACC and CNT undefined but within their registers (60_exceptions.md R224, R225). -/
theorem inv_raise {s : State} (hs : Inv s) (r : Raise) : Inv (raise r s) where
  accFits := Nat.mod_lt _ (Nat.two_pow_pos _)
  carryOnly h := by simp at h
  reservedZero := by
    have hbits : ∀ b : BitVec 8, b &&& 0xF0#8 = 0 → ((b ||| faultBit) &&& ~~~busyBit) &&& 0xF0#8 = 0 := by decide
    exact hbits _ hs.reservedZero
  idle := busy_raise r s
  noCause h := by simp at h
  someCause _ := code_range r.cause

/-- Storing a clean accumulator of the register's width keeps the invariant: its pending bits are fewer than the
register's (10_state.md R24). -/
theorem inv_storeAcc {s : State} (hs : Inv s) {w : BitWriter} (hw : Clean w) (hwidth : w.width = s.params.accW) :
    Inv (s.storeAcc w) where
  accFits := by
    rw [storeAcc_acc, storeAcc_params, ← hwidth]
    exact hw.clean.trans_le (Nat.pow_le_pow_right (by decide) (hw.few.le.trans ((by decide : 8 ≤ 32).trans hw.wide)))
  carryOnly _ := by
    rw [storeAcc_acc, storeAcc_cnt, BitVec.toNat_ofNat, Nat.mod_eq_of_lt hw.few]
    exact hw.clean
  reservedZero := hs.reservedZero
  idle := hs.idle
  noCause := hs.noCause
  someCause := hs.someCause

theorem inv_searchLanes {s : State} (hs : Inv s) (data : List Byte) (offsets : List Nat) :
    Inv (searchLanes data offsets s) := by
  obtain ⟨hparams, hacc, hcnt, hcause, hinfo, -⟩ := searchLanes_frame data offsets s
  obtain ⟨hbusy, hfault, -, hreserved⟩ := searchLanes_status_bits data offsets s
  exact inv_of_eq hs hparams hacc hcnt hcause hinfo hbusy hfault hreserved

theorem inv_exec {i : Instr} {s t : State} (hs : Inv s) (h : exec i s = .next t) : Inv t := by
  cases exec_effect h with
  | refused => exact hs
  | reset => exact inv_of_zero rfl rfl rfl rfl
  | fault _ r => exact inv_raise hs r
  | value => exact inv_of_eq hs rfl rfl rfl rfl rfl rfl rfl rfl
  | encoder hr _ w keeps =>
    obtain ⟨hw, hwidth⟩ := keeps (hs.carryOnly hr.2)
    exact inv_of_eq (inv_storeAcc hs hw hwidth) rfl rfl rfl rfl rfl rfl rfl rfl
  | search _ data offsets => exact inv_searchLanes hs data offsets
  | element hf _ w keeps =>
    obtain ⟨hw, hwidth⟩ := keeps (hs.carryOnly hf)
    exact inv_of_eq (inv_storeAcc hs hw hwidth) rfl rfl rfl rfl rfl rfl rfl rfl

/-- An undefined opcode is refused or faults (30_encoding.md R104). -/
theorem runIllegal_cases {op : Byte} {s t : State} (h : runIllegal op s = .next t) :
    ((s.busy = true ∨ s.faulted = true) ∧ t = s) ∨ (s.ready ∧ t = raise ⟨.illegalCmd, infoNat op.toNat⟩ s) := by
  obtain hrefused | ⟨-, hok⟩ | ⟨hr, r, herr, ht⟩ := runCommand_cases h
  · exact .inl hrefused
  · cases hok
  · cases herr; exact .inr ⟨hr, ht⟩

theorem inv_runIllegal {op : Byte} {s t : State} (hs : Inv s) (h : runIllegal op s = .next t) : Inv t := by
  obtain ⟨-, rfl⟩ | ⟨-, rfl⟩ := runIllegal_cases h
  · exact hs
  · exact inv_raise hs _

/-! ## The statements -/

/-- Settles O3: one case for each thing a step can do, and for each effect an instruction can have. -/
theorem stepKeepsInvariant : Obligations.StepKeepsInvariant := by
  intro s t hs h
  obtain ⟨-, rfl⟩ | ⟨rest, -, rfl⟩ | ⟨r, rest, i, -, -, hexec⟩ | ⟨r, rest, op, -, -, hill⟩ := step_cases h
  · exact hs
  · exact inv_of_zero rfl rfl rfl rfl
  · exact inv_exec (inv_port hs rest) hexec
  · exact inv_runIllegal (inv_port hs rest) hill

/-- Settles O13: of the effects an instruction can have, only RESET's and the search's touch FOUND or WARN, and the
search clears no WARN. -/
theorem foundAndWarnChangeOnlyByBruteforceAndReset : Obligations.FoundAndWarnChangeOnlyByBruteforceAndReset := by
  intro i s t hreset h
  cases exec_effect h with
  | refused => exact ⟨fun _ => ⟨rfl, rfl⟩, id⟩
  | reset hi => exact absurd hi hreset
  | fault _ r => exact ⟨fun _ => ⟨found_raise r s, warned_raise r s⟩, (warned_raise r s).trans⟩
  | value => exact ⟨fun _ => ⟨rfl, rfl⟩, id⟩
  | encoder => exact ⟨fun _ => ⟨rfl, rfl⟩, id⟩
  | search _ data offsets hi =>
    obtain ⟨-, -, hwarn, -⟩ := searchLanes_status_bits data offsets s
    exact ⟨fun hne => absurd hi (hne data offsets), hwarn⟩
  | element => exact ⟨fun _ => ⟨rfl, rfl⟩, id⟩

/-- Settles O1: each value is State.reset's own field (10_state.md R36). -/
theorem resetValues : Obligations.ResetValues :=
  ⟨rfl, rfl, rfl, rfl, rfl, ⟨rfl, rfl⟩, rfl, rfl, rfl, rfl, rfl⟩

/-- Settles O2: after reset the five registers are 0. -/
theorem resetMeetsInvariant : Obligations.ResetMeetsInvariant := inv_of_zero rfl rfl rfl rfl

end Sys2Proof.Proofs
end

section
/-! PROOFS. A command that only returns a value computes it from its operands and the configuration (20_memory.md R59):
two ready states of one configuration give it the same value, and so the same record or the same fault. -/

namespace Sys2Proof.Proofs

open Sys2Proof.Machine Sys2Proof.Laws

/-- One value serves both states. Only TOKENIZE (TOK_OVERLAP), FIVE_BYTE_REPEAT (FIVE_BYTE_RULE, ACC_W) and
CRC32_CONT (CRC_CONT_CONVENTION) read the configuration; the other values mention no part of the state. -/
theorem exec_runs_same_value {i : Instr} (hi : OperandsOnly i) {s s' : State} (hparams : s.params = s'.params) :
    ∃ value, exec i s = runValue s value ∧ exec i s' = runValue s' value := by
  cases hi with
  | tokenize | fiveByteRepeat => exact ⟨_, rfl, by rw [hparams]; rfl⟩
  | crc32Cont input prior =>
    exact ⟨.ok (.crc (crc32Cont s.params.crcCont input prior)), rfl, by rw [hparams]; rfl⟩
  | crc32 input => exact ⟨.ok (.crc (crc32 input)), rfl, rfl⟩
  | xgcd a b =>
    exact ⟨.ok (.bezout (extendedGcd a b).1 (extendedGcd a b).2.1 (extendedGcd a b).2.2), rfl, rfl⟩
  | mulraw | divmod | minv | divide | solveRank1 | solveSystem => exact ⟨_, rfl, rfl⟩

/-- Settles O18: the two runs take up one value, which alone decides between a record and a fault. -/
theorem otherResultsDependOnOperandsAlone : Obligations.OtherResultsDependOnOperandsAlone := by
  intro i s s' t t' hi hs hs' hparams h h'
  obtain ⟨value, run, run'⟩ := exec_runs_same_value hi hparams
  rw [run] at h
  rw [run'] at h'
  cases value with
  | ok r =>
    rw [runValue_ok hs] at h
    rw [runValue_ok hs'] at h'
    cases h; cases h'
    exact .inl ⟨r, rfl, rfl⟩
  | error r =>
    rw [runValue_error hs] at h
    rw [runValue_error hs'] at h'
    cases h; cases h'
    exact .inr ⟨r.cause.code, r.info, faultEntry_raise r s, faultEntry_raise r s'⟩

end Sys2Proof.Proofs
end

section
/-! PROOFS. What the decoder reads (30_encoding.md R88 to R101): the bits read are those that spell the value read, in
both directions; from that, what each code decodes to. -/

namespace Sys2Proof.Proofs

open Sys2Proof.Machine Sys2Proof.Laws

/-! ## Bit fields (30_encoding.md R98) -/

/-- The low bit of a number and the number above it. -/
theorem eq_toNat_add_two_mul_iff {b : Bool} {v w : Nat} : v = b.toNat + 2 * w ↔ b = v.testBit 0 ∧ w = v / 2 := by
  cases b <;> simp [Nat.testBit_zero] <;> omega

/-- Reading n bits least significant first gives v exactly when they are the n bits of v. -/
theorem readLsb_eq_some_iff (n : Nat) : ∀ {bs rest : List Bool} {v : Nat},
    readLsb n bs = some (v, rest) ↔ v < 2 ^ n ∧ bs = bitsLsb n v ++ rest := by
  induction n with
  | zero =>
    intro bs rest v
    simp only [readLsb, bitsLsb, Option.some.injEq, Prod.mk.injEq, List.nil_append, pow_zero, Nat.lt_one_iff]
    exact and_congr_left' eq_comm
  | succ n ih =>
    intro bs rest v
    cases bs with
    | nil => simp [readLsb, bitsLsb]
    | cons b bs =>
      have hstep : readLsb (n + 1) (b :: bs) = some (v, rest) ↔
          ∃ w, readLsb n bs = some (w, rest) ∧ v = b.toNat + 2 * w := by
        simp only [readLsb, Option.map_eq_some_iff, Prod.exists, Prod.mk.injEq]
        constructor
        · rintro ⟨w, r, h, rfl, rfl⟩; exact ⟨w, h, rfl⟩
        · rintro ⟨w, h, rfl⟩; exact ⟨w, rest, h, rfl, rfl⟩
      have hlt : v / 2 < 2 ^ n ↔ v < 2 ^ (n + 1) := by rw [Nat.pow_succ]; omega
      rw [hstep, bitsLsb, List.cons_append, List.cons.injEq, ← hlt]
      simp only [ih, eq_toNat_add_two_mul_iff]
      constructor
      · rintro ⟨w, ⟨hw, hbs⟩, hb, rfl⟩; exact ⟨hw, hb, hbs⟩
      · rintro ⟨hw, hb, hbs⟩; exact ⟨v / 2, ⟨hw, hbs⟩, hb, rfl⟩

theorem bitsMsb_congr (n : Nat) {v u : Nat} (h : ∀ i < n, v.testBit i = u.testBit i) : bitsMsb n v = bitsMsb n u := by
  induction n with
  | zero => rfl
  | succ n ih => rw [bitsMsb, bitsMsb, h n (by omega), ih fun i hi => h i (by omega)]

/-- A most significant bit above a number's n bits comes first. -/
theorem bitsMsb_cons {n u : Nat} (b : Bool) (hu : u < 2 ^ n) :
    bitsMsb (n + 1) (2 ^ n * b.toNat + u) = b :: bitsMsb n u := by
  rw [bitsMsb]
  congr 1
  · rw [Nat.testBit_two_pow_mul_add _ hu]
    cases b <;> simp
  · exact bitsMsb_congr n fun i hi => by rw [Nat.testBit_two_pow_mul_add _ hu, if_pos hi]

/-- The least significant bit comes last. -/
theorem bitsMsb_succ (n v : Nat) : bitsMsb (n + 1) v = bitsMsb n (v / 2) ++ [v.testBit 0] := by
  induction n with
  | zero => rfl
  | succ n ih => rw [bitsMsb, ih, bitsMsb, Nat.testBit_div_two, List.cons_append]

/-- A code one bit longer: the bits of the shorter one, then the bit pushed below them. -/
theorem bitsMsb_pushBit (n v : Nat) {u : Nat} (hu : u < 2 ^ 1) :
    bitsMsb (n + 1) (2 ^ 1 * v + u) = bitsMsb n v ++ bitsMsb 1 u := by
  rw [bitsMsb_succ, show (2 ^ 1 * v + u) / 2 = v by omega, Nat.testBit_two_pow_mul_add _ hu, if_pos Nat.one_pos]
  rfl

/-- Reading n bits most significant first on top of `hi` adds the number they spell below it. -/
theorem readMsb_eq_some_iff (n : Nat) : ∀ {hi : Nat} {bs rest : List Bool} {v : Nat},
    readMsb n hi bs = some (v, rest) ↔ ∃ u < 2 ^ n, v = 2 ^ n * hi + u ∧ bs = bitsMsb n u ++ rest := by
  induction n with
  | zero =>
    intro hi bs rest v
    simp [readMsb, bitsMsb, eq_comm]
  | succ n ih =>
    intro hi bs rest v
    have hpow : 2 ^ (n + 1) = 2 * 2 ^ n := Nat.pow_succ'
    cases bs with
    | nil => simp [readMsb, bitsMsb]
    | cons b bs =>
      have hsum : ∀ u, 2 ^ n * (2 * hi + b.toNat) + u = 2 ^ (n + 1) * hi + (2 ^ n * b.toNat + u) := by
        intro u; rw [hpow]; ring
      rw [readMsb, ih]
      constructor
      · rintro ⟨u, hu, rfl, rfl⟩
        refine ⟨2 ^ n * b.toNat + u, ?_, hsum u, by rw [bitsMsb_cons b hu, List.cons_append]⟩
        cases b <;> simp <;> omega
      · rintro ⟨u, hu, rfl, hbs⟩
        rw [bitsMsb, List.cons_append, List.cons.injEq] at hbs
        obtain ⟨rfl, rfl⟩ := hbs
        have hmod : u % 2 ^ n < 2 ^ n := Nat.mod_lt _ (Nat.two_pow_pos n)
        have htop : 2 ^ n * (u.testBit n).toNat + u % 2 ^ n = u := by
          rw [Nat.toNat_testBit, Nat.mod_eq_of_lt (Nat.div_lt_of_lt_mul (by omega)), Nat.div_add_mod]
        refine ⟨u % 2 ^ n, hmod, by rw [hsum, htop], ?_⟩
        rw [bitsMsb_congr n fun i hi => by rw [Nat.testBit_mod_two_pow, decide_eq_true hi, Bool.true_and]]

/-- Reading a whole code: the n bits of a number below 2^n, most significant first. -/
theorem readMsb_zero_eq_some_iff {n v : Nat} {bs rest : List Bool} :
    readMsb n 0 bs = some (v, rest) ↔ v < 2 ^ n ∧ bs = bitsMsb n v ++ rest := by
  simp [readMsb_eq_some_iff]

/-! ## Extra bits after a code -/

theorem withExtra_bitsLsb {n e : Nat} (mk : Nat → Except Reject Instr) (rest : List Bool) (he : e < 2 ^ n) :
    withExtra n mk (bitsLsb n e ++ rest) = (mk e).map fun i => (i, rest) := by
  rw [withExtra, (readLsb_eq_some_iff n).2 ⟨he, rfl⟩]

theorem withExtra_ok {n : Nat} {mk : Nat → Except Reject Instr} {bs rest : List Bool} {i : Instr}
    (h : withExtra n mk bs = .ok (i, rest)) : ∃ e < 2 ^ n, bs = bitsLsb n e ++ rest ∧ mk e = .ok i := by
  unfold withExtra at h
  split at h
  next => cases h
  next e r hread =>
    obtain ⟨he, rfl⟩ := (readLsb_eq_some_iff n).1 hread
    cases hmk : mk e with
    | error why => rw [hmk] at h; cases h
    | ok j => rw [hmk] at h; cases h; exact ⟨e, he, rfl, hmk⟩

/-! ## What each code decodes to (30_encoding.md R88, R89, R101) -/

theorem decodeLengthSymbol_row {row : Nat} (hrow : row < 29) (bs : List Bool) :
    decodeLengthSymbol (257 + row) bs = withExtra (tableRow lenTable row).extra (lengthInstr row) bs := by
  rw [decodeLengthSymbol, if_neg (by omega), Nat.add_sub_cancel_left]

/-- A seven-bit code (R88): symbols 257 to 279. -/
theorem decodeLitLen_seven {v : Nat} (h0 : v ≠ 0) (h23 : v ≤ 23) (rest : List Bool) :
    decodeLitLen (bitsMsb 7 v ++ rest) = decodeLengthSymbol (256 + v) rest := by
  rw [decodeLitLen, readMsb_zero_eq_some_iff.2 ⟨by omega, rfl⟩]
  simp only [if_neg h0, if_pos h23]

/-- An eight-bit code (R88): symbols 280 to 287, or a literal's. -/
theorem decodeLitLen_eight {v : Nat} (hlow : 0x30 ≤ v) (hhigh : v ≤ 0xFF) (rest : List Bool) :
    decodeLitLen (bitsMsb 8 v ++ rest) =
      if 0xC0 ≤ v ∧ v ≤ 0xC7 then decodeLengthSymbol (280 + (v - 0xC0)) rest else .error .literalSymbol := by
  have hlast : readMsb 1 (v / 2) (v.testBit 0 :: rest) = some (v, rest) := by
    rw [readMsb, readMsb, Nat.toNat_testBit, pow_zero, Nat.div_one, Nat.div_add_mod]
  rw [bitsMsb_succ, List.append_assoc, List.singleton_append, decodeLitLen,
    readMsb_zero_eq_some_iff.2 ⟨by omega, rfl⟩]
  simp only [if_neg (show v / 2 ≠ 0 by omega), if_neg (show ¬ v / 2 ≤ 23 by omega), hlast]

theorem decodeDist_code {j : Nat} (hj : j < 32) (rest : List Bool) :
    decodeDist (bitsMsb 5 j ++ rest) =
      if 29 < j then .error .reservedDistanceSymbol
      else withExtra (tableRow distTable j).extra (distanceInstr j) rest := by
  rw [decodeDist, readMsb_zero_eq_some_iff.2 ⟨by omega, rfl⟩]

/-- The codes of LEN_TABLE's rows (R88): seven bits up to symbol 279, eight above. -/
theorem litLenCode_low {row : Nat} (h : row ≤ 22) : litLenCode (lenSymbol row) = ⟨row + 1, 7⟩ := by
  rw [litLenCode, lenSymbol, if_pos (by omega), show 257 + row - 256 = row + 1 by omega]

theorem litLenCode_high {row : Nat} (h : 23 ≤ row) : litLenCode (lenSymbol row) = ⟨0xC0 + (row - 23), 8⟩ := by
  rw [litLenCode, lenSymbol, if_neg (by omega), show 257 + row - 280 = row - 23 by omega]

/-- A length symbol's bits, followed by any bits, are read as its row and extra value. -/
theorem decodeLitLen_symbolBits {row e : Nat} (hrow : row < 29) (he : e < 2 ^ (tableRow lenTable row).extra)
    (rest : List Bool) :
    decodeLitLen (symbolBits (litLenCode (lenSymbol row)) (tableRow lenTable row).extra e ++ rest) =
      (lengthInstr row e).map fun i => (i, rest) := by
  rw [← withExtra_bitsLsb _ rest he, ← decodeLengthSymbol_row hrow, symbolBits, List.append_assoc]
  by_cases h : row ≤ 22
  · rw [litLenCode_low h]
    rw [decodeLitLen_seven (Nat.succ_ne_zero row) (Nat.succ_le_succ h), show 256 + (row + 1) = 257 + row by omega]
  · rw [litLenCode_high (by omega)]
    dsimp only
    rw [decodeLitLen_eight (by omega) (by omega), if_pos (by omega),
      show 280 + (0xC0 + (row - 23) - 0xC0) = 257 + row by omega]

/-- A distance symbol's bits, followed by any bits, are read as its symbol and extra value. -/
theorem decodeDist_symbolBits {j e : Nat} (hj : j < 30) (he : e < 2 ^ (tableRow distTable j).extra)
    (rest : List Bool) :
    decodeDist (symbolBits (distCode j) (tableRow distTable j).extra e ++ rest) =
      (distanceInstr j e).map fun i => (i, rest) := by
  rw [← withExtra_bitsLsb _ rest he, symbolBits, List.append_assoc, distCode]
  dsimp only
  rw [decodeDist_code (by omega), if_neg (by omega)]

/-! ## Sets and maps in canonical form (log 10) -/

theorem canonSet_of_ascending : ∀ {l : List Nat}, ascending l = true → canonSet l = l
  | [], _ => rfl
  | [_], _ => rfl
  | x :: y :: r, h => by
    simp only [ascending, Bool.and_eq_true, decide_eq_true_eq] at h
    obtain ⟨hxy, hr⟩ := h
    rw [canonSet, List.foldr_cons, ← canonSet, canonSet_of_ascending hr, insertOffset, if_pos hxy]

theorem canonMap_of_ascending : ∀ {l : List (Nat × Nat)}, ascending (l.map Prod.fst) = true → canonMap l = l
  | [], _ => rfl
  | [_], _ => rfl
  | x :: y :: r, h => by
    simp only [List.map_cons, ascending, Bool.and_eq_true, decide_eq_true_eq] at h
    obtain ⟨hxy, hr⟩ := h
    rw [canonMap, List.foldr_cons, ← canonMap, canonMap_of_ascending (l := y :: r) hr, insertSlot, if_pos hxy]

theorem map_canonFile_of_wellFormed {files : List FileSpec} (h : files.all FileSpec.wellFormed = true) :
    files.map canonFile = files := by
  refine (List.map_congr_left fun f hf => ?_).trans (List.map_id files)
  rw [canonFile, canonMap_of_ascending (List.all_eq_true.1 h f hf), id_eq]

end Sys2Proof.Proofs
end

section
/-! PROOFS. The decoder and the encoder undo each other (30_encoding.md R80 to R101), the rows selected are spelled by
the elements made of them, and a step runs what the port's oldest request decodes to. -/

namespace Sys2Proof.Proofs

open Sys2Proof.Machine Sys2Proof.Laws

/-! ## A well-formed instruction is read back from its request -/

/-- What an instruction's request decodes to: a command's decodes to the instruction; an element's bits are read back in
front of any further bits. -/
inductive ReadsBack (i : Instr) : Prop where
  | command (c : Command) (hi : encode i = .command c) (back : decodeCommand c = .ok i)
  | element (ctx : StreamContext) (bits : List Bool) (hi : encode i = .element ctx bits)
    (back : ∀ rest, decodeElement ctx (bits ++ rest) = .ok (i, rest))

theorem ReadsBack.length {i : Instr} {row e : Nat} (hrow : row < 29) (he : e < 2 ^ (tableRow lenTable row).extra)
    (hi : encode i = lengthRequest row e) (hmk : lengthInstr row e = .ok i) : ReadsBack i :=
  .element _ _ hi fun rest => (decodeLitLen_symbolBits hrow he rest).trans (by rw [hmk]; rfl)

theorem ReadsBack.distance {i : Instr} {j e : Nat} (hj : j < 30) (he : e < 2 ^ (tableRow distTable j).extra)
    (hi : encode i = distanceRequest j e) (hmk : distanceInstr j e = .ok i) : ReadsBack i :=
  .element _ _ hi fun rest => (decodeDist_symbolBits hj he rest).trans (by rw [hmk]; rfl)

theorem readsBack {i : Instr} (h : i.wellFormed = true) : ReadsBack i := by
  cases i with
  | reset | finish | rdacc | tokenize | encStored | encStatic | encode | fiveByteRepeat | crc32 | crc32Cont | mulraw
  | divmod | xgcd | minv | divide => exact .command _ rfl rfl
  | solveRank1 data offsets =>
    exact .command _ rfl (congrArg (fun o => Except.ok (Instr.solveRank1 data o)) (canonSet_of_ascending h))
  | solveSystem files =>
    exact .command _ rfl (congrArg (fun f => Except.ok (Instr.solveSystem f)) (map_canonFile_of_wellFormed h))
  | bruteforce data offsets =>
    exact .command _ rfl (congrArg (fun o => Except.ok (Instr.bruteforce data o)) (canonSet_of_ascending h))
  | hdrStoredNotlast | hdrStaticNotlast | hdrStoredLast | hdrStaticLast | eob => exact .element _ _ rfl fun _ => rfl
  | len257 | len258 | len259 | len260 | len261 | len262 | len263 | len264 | len285 =>
    exact .length (by decide) (by decide) rfl rfl
  | len265 e | len266 e | len267 e | len268 e | len269 e | len270 e | len271 e | len272 e | len273 e | len274 e
  | len275 e | len276 e | len277 e | len278 e | len279 e | len280 e | len281 e | len282 e | len283 e =>
    exact .length (by decide) e.isLt rfl (by rw [lengthInstr, BitVec.ofNat_toNat, BitVec.setWidth_eq])
  | len284 e =>
    have hne : e.toNat ≠ 31 := fun h31 => of_decide_eq_true h (BitVec.eq_of_toNat_eq h31)
    exact .length (by decide) e.isLt rfl (by rw [lengthInstr, if_neg hne, BitVec.ofNat_toNat, BitVec.setWidth_eq])
  | dist0 | dist1 | dist2 | dist3 => exact .distance (by decide) (by decide) rfl rfl
  | dist4 e | dist5 e | dist6 e | dist7 e | dist8 e | dist9 e | dist10 e | dist11 e | dist12 e | dist13 e | dist14 e
  | dist15 e | dist16 e | dist17 e | dist18 e | dist19 e | dist20 e | dist21 e | dist22 e | dist23 e | dist24 e
  | dist25 e | dist26 e | dist27 e | dist28 e | dist29 e =>
    exact .distance (by decide) e.isLt rfl (by rw [distanceInstr, BitVec.ofNat_toNat, BitVec.setWidth_eq])

/-- Settles O21: an element is read back, whatever follows its bits. -/
theorem elementReadFromAStream : Obligations.ElementReadFromAStream := by
  intro i ctx bits rest hwf hi
  cases readsBack hwf with
  | command c hc => rw [hc] at hi; cases hi
  | element ctx' bits' hc back =>
    rw [hc] at hi
    cases hi
    exact back rest

/-- Settles O19: a command by its opcode and canonical operands, an element by its bits with none after them. -/
theorem decodeOfEncode : Obligations.DecodeOfEncode := by
  intro i hwf
  cases readsBack hwf with
  | command c hi back => rw [hi]; exact back
  | element ctx bits hi back =>
    have hread := back []
    rw [List.append_nil] at hread
    rw [hi, decode, hread]

/-! ## What a decoded element is -/

theorem toNat_ofNat_of_lt {n e : Nat} (he : e < 2 ^ n) : (BitVec.ofNat n e).toNat = e :=
  (BitVec.toNat_ofNat e n).trans (Nat.mod_eq_of_lt he)

/-- A length symbol made from a row is encoded as that row with that extra value, is well-formed, and stands
for the row's base and the extra value together (30_encoding.md R94). -/
theorem lengthInstr_ok {row e : Nat} {i : Instr} (h : lengthInstr row e = .ok i)
    (he : e < 2 ^ (tableRow lenTable row).extra) :
    encode i = lengthRequest row e ∧ i.wellFormed = true ∧ spelled i = some ((tableRow lenTable row).base + e) := by
  match row, h, he with
  | 0, h, he | 1, h, he | 2, h, he | 3, h, he | 4, h, he | 5, h, he | 6, h, he | 7, h, he | 28, h, he =>
    cases h
    obtain rfl := Nat.lt_one_iff.1 he
    exact ⟨rfl, rfl, rfl⟩
  | 27, h, he =>
    rw [lengthInstr] at h
    split at h
    next => cases h
    next hne =>
      cases h
      have hval := toNat_ofNat_of_lt he
      refine ⟨congrArg (lengthRequest 27) hval, decide_eq_true fun h31 => hne ?_,
        congrArg (fun e => some (_ + e)) hval⟩
      exact hval.symm.trans (congrArg BitVec.toNat h31)
  | 8, h, he | 9, h, he | 10, h, he | 11, h, he | 12, h, he | 13, h, he | 14, h, he | 15, h, he | 16, h, he
  | 17, h, he | 18, h, he | 19, h, he | 20, h, he | 21, h, he | 22, h, he | 23, h, he | 24, h, he | 25, h, he
  | 26, h, he =>
    cases h
    have hval := toNat_ofNat_of_lt he
    exact ⟨congrArg (lengthRequest _) hval, rfl, congrArg (fun e => some (_ + e)) hval⟩
  | _ + 29, h, _ => cases h

/-- A distance symbol likewise (30_encoding.md R96). -/
theorem distanceInstr_ok {j e : Nat} {i : Instr} (h : distanceInstr j e = .ok i)
    (he : e < 2 ^ (tableRow distTable j).extra) :
    encode i = distanceRequest j e ∧ i.wellFormed = true ∧ spelled i = some ((tableRow distTable j).base + e) := by
  match j, h, he with
  | 0, h, he | 1, h, he | 2, h, he | 3, h, he =>
    cases h
    obtain rfl := Nat.lt_one_iff.1 he
    exact ⟨rfl, rfl, rfl⟩
  | 4, h, he | 5, h, he | 6, h, he | 7, h, he | 8, h, he | 9, h, he | 10, h, he | 11, h, he | 12, h, he | 13, h, he
  | 14, h, he | 15, h, he | 16, h, he | 17, h, he | 18, h, he | 19, h, he | 20, h, he | 21, h, he | 22, h, he
  | 23, h, he | 24, h, he | 25, h, he | 26, h, he | 27, h, he | 28, h, he | 29, h, he =>
    cases h
    have hval := toNat_ofNat_of_lt he
    exact ⟨congrArg (distanceRequest _) hval, rfl, congrArg (fun e => some (_ + e)) hval⟩
  | _ + 30, h, _ => cases h

/-- Every row makes a length symbol from every extra value but 31 of symbol 284 (30_encoding.md R105). -/
theorem lengthInstr_total {row e : Nat} (hrow : row < 29) (hne : row = 27 → e ≠ 31) :
    ∃ i, lengthInstr row e = .ok i := by
  match row, hrow, hne with
  | 27, _, hne => exact ⟨_, if_neg (hne rfl)⟩
  | 0, _, _ | 1, _, _ | 2, _, _ | 3, _, _ | 4, _, _ | 5, _, _ | 6, _, _ | 7, _, _ | 8, _, _ | 9, _, _ | 10, _, _
  | 11, _, _ | 12, _, _ | 13, _, _ | 14, _, _ | 15, _, _ | 16, _, _ | 17, _, _ | 18, _, _ | 19, _, _ | 20, _, _
  | 21, _, _ | 22, _, _ | 23, _, _ | 24, _, _ | 25, _, _ | 26, _, _ | 28, _, _ => exact ⟨_, rfl⟩
  | _ + 29, hrow, _ => omega

theorem distanceInstr_total {j : Nat} (hj : j < 30) (e : Nat) : ∃ i, distanceInstr j e = .ok i := by
  interval_cases j <;> exact ⟨_, rfl⟩

/-- The bits of a header are those of its flag and type. -/
theorem decodeHeader_ok {bs rest : List Bool} {i : Instr} (h : decodeHeader bs = .ok (i, rest)) :
    ∃ bits, bs = bits ++ rest ∧ encode i = .element .header bits ∧ i.wellFormed = true := by
  unfold decodeHeader at h
  split at h
  next => cases h
  iterate 4
    next r hread =>
      cases h
      exact ⟨_, ((readLsb_eq_some_iff 3).1 hread).2, rfl, rfl⟩
  next => cases h

theorem decodeLengthSymbol_ok {row : Nat} {bs rest : List Bool} {i : Instr}
    (h : decodeLengthSymbol (257 + row) bs = .ok (i, rest)) :
    ∃ e, bs = bitsLsb (tableRow lenTable row).extra e ++ rest ∧ encode i = lengthRequest row e ∧
      i.wellFormed = true := by
  by_cases hrow : row < 29
  · rw [decodeLengthSymbol_row hrow] at h
    obtain ⟨e, he, hbs, hmk⟩ := withExtra_ok h
    obtain ⟨hi, hwf, -⟩ := lengthInstr_ok hmk he
    exact ⟨e, hbs, hi, hwf⟩
  · rw [decodeLengthSymbol, if_pos (by omega)] at h
    cases h

/-- The bits of a literal/length element are seven zeros, or a row's code and extra bits. -/
theorem decodeLitLen_ok {bs rest : List Bool} {i : Instr} (h : decodeLitLen bs = .ok (i, rest)) :
    ∃ bits, bs = bits ++ rest ∧ encode i = .element .litLen bits ∧ i.wellFormed = true := by
  unfold decodeLitLen at h
  split at h
  next => cases h
  next v r hread =>
    obtain ⟨hv, rfl⟩ := readMsb_zero_eq_some_iff.1 hread
    split at h
    next h0 => subst h0; cases h; exact ⟨_, rfl, rfl, rfl⟩
    next h0 =>
      split at h
      next h23 =>
        obtain ⟨row, rfl⟩ := Nat.exists_eq_succ_of_ne_zero h0
        rw [show 256 + row.succ = 257 + row by omega] at h
        obtain ⟨e, rfl, hi, hwf⟩ := decodeLengthSymbol_ok h
        refine ⟨_, ?_, hi, hwf⟩
        rw [litLenCode_low (Nat.succ_le_succ_iff.1 h23), symbolBits, List.append_assoc]
      next =>
        split at h
        next => cases h
        next v8 r8 hlast =>
          obtain ⟨u, hu, rfl, rfl⟩ := (readMsb_eq_some_iff 1).1 hlast
          split at h
          next hrange =>
            obtain ⟨k, hk⟩ : ∃ k, 2 ^ 1 * v + u = 0xC0 + k := Nat.exists_eq_add_of_le hrange.1
            rw [hk, show 280 + (0xC0 + k - 0xC0) = 257 + (23 + k) by omega] at h
            obtain ⟨e, rfl, hi, hwf⟩ := decodeLengthSymbol_ok h
            refine ⟨_, ?_, hi, hwf⟩
            rw [litLenCode_high (Nat.le_add_right 23 k), symbolBits, Nat.add_sub_cancel_left, ← hk,
              bitsMsb_pushBit 7 v hu, List.append_assoc, List.append_assoc]
          next => cases h

theorem decodeDist_ok {bs rest : List Bool} {i : Instr} (h : decodeDist bs = .ok (i, rest)) :
    ∃ bits, bs = bits ++ rest ∧ encode i = .element .dist bits ∧ i.wellFormed = true := by
  unfold decodeDist at h
  split at h
  next => cases h
  next j r hread =>
    obtain ⟨-, rfl⟩ := readMsb_zero_eq_some_iff.1 hread
    split at h
    next => cases h
    next =>
      obtain ⟨e, he, rfl, hmk⟩ := withExtra_ok h
      obtain ⟨hi, hwf, -⟩ := distanceInstr_ok hmk he
      exact ⟨_, by rw [symbolBits, distCode, List.append_assoc], hi, hwf⟩

theorem decodeElement_ok {ctx : StreamContext} {bs rest : List Bool} {i : Instr}
    (h : decodeElement ctx bs = .ok (i, rest)) :
    ∃ bits, bs = bits ++ rest ∧ encode i = .element ctx bits ∧ i.wellFormed = true := by
  cases ctx with
  | header => exact decodeHeader_ok h
  | litLen => exact decodeLitLen_ok h
  | dist => exact decodeDist_ok h

/-- A request of one element holds no bit after it. -/
theorem decodeElement_of_decode {ctx : StreamContext} {bs : List Bool} {i : Instr}
    (h : decode (.element ctx bs) = .ok i) : decodeElement ctx bs = .ok (i, []) := by
  simp only [decode] at h
  split at h
  next => cases h
  next j hj => cases h; exact hj
  next => cases h

/-- Settles O20: in each context the bits read are the element's own, and none are left. -/
theorem encodeOfDecodedElement : Obligations.EncodeOfDecodedElement := by
  intro ctx bs i h
  obtain ⟨bits, rfl, hi, hwf⟩ := decodeElement_ok (decodeElement_of_decode h)
  rw [List.append_nil]
  exact ⟨hi, hwf⟩

/-- Settles O23: headers by their three bits, codes by the number they spell (30_encoding.md R88, R105). -/
theorem neverProducedBitsRejected : Obligations.NeverProducedBitsRejected := by
  intro rest
  refine ⟨?_, ?_, ?_, ?_, ?_, ?_, ?_⟩
  · rintro (_ | _) <;> rfl
  · rintro (_ | _) <;> rfl
  · intro v hlow hhigh
    exact (decodeLitLen_eight (by omega) (by omega) rest).trans
      ((if_pos (by omega)).trans (if_pos (by omega)))
  · intro v hlow hhigh
    exact (decodeLitLen_eight hlow (by omega) rest).trans (if_neg (by omega))
  · intro v hlow hhigh
    exact (decodeLitLen_eight (by omega) hhigh rest).trans (if_neg (by omega))
  · intro v hlow hhigh
    exact (decodeDist_code (by omega) rest).trans (if_pos hlow)
  · exact decodeLitLen_symbolBits (row := 27) (e := 31) (by decide) (by decide) rest

/-- Settles O22: each written-out word is read by evaluating the decoder. -/
theorem sampleWordsDecode : Obligations.SampleWordsDecode :=
  ⟨rfl, rfl, rfl, rfl, rfl, rfl, rfl, rfl⟩

/-! ## Row selection -/

/-- The element that spells a legal length stands for it; extra value 31 of symbol 284 would be 258, which the last row
has as its base (30_encoding.md R95). -/
theorem lengthElement_spec {v : Nat} (h3 : 3 ≤ v) (h258 : v ≤ 258) :
    spelled (lengthElement v) = some v ∧ (lengthElement v).wellFormed = true := by
  obtain ⟨hrow, hbase, hlast⟩ := rowFor_spec (t := lenTable) (by decide) h3
  obtain ⟨-, hfits⟩ := rowFor_lenTable h3 h258
  have hne : rowFor lenTable v = 27 → v - (tableRow lenTable (rowFor lenTable v)).base ≠ 31 := by
    intro h27 h31
    rw [h27] at h31 hlast
    have hv : v - 227 = 31 := h31
    exact absurd (hlast 28 (by decide) (show 258 ≤ v by omega)) (by decide)
  obtain ⟨i, hi⟩ := lengthInstr_total hrow hne
  obtain ⟨-, hwf, hspelled⟩ := lengthInstr_ok hi hfits
  rw [lengthElement, hi]
  exact ⟨by rw [hspelled, Nat.add_sub_cancel' hbase], hwf⟩

/-- The element that spells a legal distance stands for it (30_encoding.md R97). -/
theorem distanceElement_spec {v : Nat} (h1 : 1 ≤ v) (hmax : v ≤ 32768) :
    spelled (distanceElement v) = some v ∧ (distanceElement v).wellFormed = true := by
  obtain ⟨hrow, hbase, -⟩ := rowFor_spec (t := distTable) (by decide) h1
  obtain ⟨-, hfits⟩ := rowFor_distTable h1 hmax
  obtain ⟨i, hi⟩ := distanceInstr_total hrow (v - (tableRow distTable (rowFor distTable v)).base)
  obtain ⟨-, hwf, hspelled⟩ := distanceInstr_ok hi hfits
  rw [distanceElement, hi]
  exact ⟨by rw [hspelled, Nat.add_sub_cancel' hbase], hwf⟩

/-- Settles O24: the row of largest base, the fit of the difference, and the element so spelled, for each table. -/
theorem rowSelection : Obligations.RowSelection := by
  refine ⟨fun v h3 h258 => ?_, fun v h1 hmax => ?_⟩
  · obtain ⟨hrow, hbase, hlast⟩ := rowFor_spec (t := lenTable) (by decide) h3
    exact ⟨hrow, hbase, hlast, (rowFor_lenTable h3 h258).2, lengthElement_spec h3 h258⟩
  · obtain ⟨hrow, hbase, hlast⟩ := rowFor_spec (t := distTable) (by decide) h1
    exact ⟨hrow, hbase, hlast, (rowFor_distTable h1 hmax).2, distanceElement_spec h1 hmax⟩

/-! ## Requests at the port -/

/-- A request at the port's head is run on the rest (20_memory.md R62). -/
theorem step_request {s : State} {r : Request} {rest : List PortEvent} (h : s.port = .request r :: rest) :
    step s = runRequest r { s with port := rest } := by
  rw [step, takePort, h]

/-- Settles O5: the request is taken from the port, and its instruction run. -/
theorem stepRunsDecodedInstruction : Obligations.StepRunsDecodedInstruction := by
  intro s r rest i hport hdecode
  rw [step_request hport, runRequest, hdecode]

/-- An opcode outside R80's list is illegal (30_encoding.md R104). -/
theorem decodeCommand_illegal {c : Command}
    (h : c.op.toNat ∉ [0x00, 0x01, 0x02, 0x10, 0x20, 0x21, 0x22, 0x23, 0x30, 0x31, 0x40, 0x41, 0x42, 0x43, 0x44, 0x50,
      0x51, 0x52]) : decodeCommand c = .error (.illegalCommand c.op) := by
  unfold decodeCommand
  split
  iterate 18
    next hop => exact absurd (by rw [hop]; decide) h
  next => rfl

/-- Settles O7: the opcode is rejected, and a machine ready for commands takes the fault, with the opcode in INFO. -/
theorem illegalOpcodeFaults : Obligations.IllegalOpcodeFaults := by
  intro s op args rest hready hport hop
  have hstep : step s = runIllegal op { s with port := rest } := by
    rw [step_request hport, runRequest, decode, decodeCommand_illegal hop]
  refine ⟨raise ⟨.illegalCmd, infoNat op.toNat⟩ { s with port := rest }, ?_, ?_⟩
  · exact hstep.trans (runCommand_ready (s := { s with port := rest }) hready _)
  · have hinfo : infoNat op.toNat = op.setWidth 64 :=
      (infoNat_of_lt (op.isLt.trans (by decide))).trans (BitVec.ofNat_toNat 64 op)
    rw [← hinfo]
    exact faultEntry_raise ⟨.illegalCmd, infoNat op.toNat⟩ _

end Sys2Proof.Proofs
end

section
/-! PROOFS. A stream element leaves the state that PUTBITS of its whole field leaves (40_bytecodec_bitwriter.md R124),
with ACC anywhere within its width: a code and its extra bits, put one after the other, are one field. -/

namespace Sys2Proof.Proofs

open Sys2Proof.Machine Sys2Proof.Laws

/-! ## PUTBITS as an entry and a flush -/

/-- PUTBITS before its flush loop (R124): the field enters above the pending bits. -/
def enter (v n : Nat) (w : BitWriter) : BitWriter := { w with acc := w.acc ||| v <<< w.cnt, cnt := w.cnt + n }

/-- An accumulator within its register, fewer than eight of its bits pending; the bits above those may be set
(10_state.md R22, R23). -/
structure Fits (w : BitWriter) : Prop where
  wide   : 32 ≤ w.width
  few    : w.cnt < 8
  within : w.acc < 2 ^ w.width

/-- A field of up to 24 bits enters without passing ACC's width. -/
theorem enter_acc_lt {w : BitWriter} (hw : Fits w) {v n : Nat} (hn : n ≤ 24) (hv : v < 2 ^ n) :
    w.acc ||| v <<< w.cnt < 2 ^ w.width := by
  have hshift : v <<< w.cnt < 2 ^ w.width :=
    (Nat.shiftLeft_lt hv).trans_le (Nat.pow_le_pow_right (by decide) (by have := hw.wide; have := hw.few; omega))
  exact Nat.or_lt_two_pow hw.within hshift

theorem putBits_eq_flush {w : BitWriter} (hw : Fits w) {v n : Nat} (hn : n ≤ 24) (hv : v < 2 ^ n) :
    w.putBits v n = BitWriter.flushBytes ((w.cnt + n) / 8) (enter v n w) := by
  rw [BitWriter.putBits, Nat.mod_eq_of_lt (enter_acc_lt hw hn hv)]
  rfl

theorem flushBytes_add (j k : Nat) : ∀ w : BitWriter,
    BitWriter.flushBytes (j + k) w = BitWriter.flushBytes k (BitWriter.flushBytes j w) := by
  induction j with
  | zero => intro w; rw [Nat.zero_add]; rfl
  | succ j ih => intro w; rw [Nat.succ_add, BitWriter.flushBytes, BitWriter.flushBytes, ih]

/-- A byte that is pending already is emitted alike before and after a field enters. -/
theorem enter_flushByte {w : BitWriter} (v n : Nat) (h : 8 ≤ w.cnt) :
    enter v n w.flushByte = (enter v n w).flushByte := by
  obtain ⟨c, hc⟩ := Nat.exists_eq_add_of_le h
  have hbyte : BitVec.ofNat 8 (w.acc ||| v <<< w.cnt) = BitVec.ofNat 8 w.acc := by
    have hfield : BitVec.ofNat 8 (v <<< w.cnt) = 0#8 := by
      apply BitVec.eq_of_toNat_eq
      rw [BitVec.toNat_ofNat, hc, Nat.shiftLeft_eq, Nat.pow_add, Nat.mul_left_comm, Nat.mul_mod_right]
      rfl
    rw [BitVec.ofNat_or, hfield, BitVec.or_zero]
  have hacc : (w.acc ||| v <<< w.cnt) >>> 8 = w.acc >>> 8 ||| v <<< (w.cnt - 8) := by
    rw [Nat.shiftRight_or_distrib, hc, Nat.add_sub_cancel_left, Nat.add_comm 8 c, Nat.shiftLeft_add,
      Nat.shiftLeft_shiftRight]
  simp only [enter, BitWriter.flushByte, hbyte, hacc, BitWriter.mk.injEq, true_and, and_true]
  omega

/-- So a field may enter before the bytes that are pending already are flushed. -/
theorem enter_flushBytes (v n k : Nat) : ∀ {w : BitWriter}, 8 * k ≤ w.cnt →
    enter v n (BitWriter.flushBytes k w) = BitWriter.flushBytes k (enter v n w) := by
  induction k with
  | zero => intro w _; rfl
  | succ k ih =>
    intro w h
    rw [BitWriter.flushBytes, BitWriter.flushBytes, ← enter_flushByte v n (by omega),
      ih (by rw [BitWriter.flushByte]; dsimp only; omega)]

/-- Two fields that enter one after the other are one. -/
theorem enter_enter {w : BitWriter} {v m : Nat} (u n : Nat) (hv : v < 2 ^ m) :
    enter u n (enter v m w) = enter (v + 2 ^ m * u) (m + n) w := by
  have hjoin : v + 2 ^ m * u = v ||| u <<< m := by
    rw [Nat.shiftLeft_eq, Nat.mul_comm u, Nat.add_comm v, Nat.two_pow_add_eq_or_of_lt hv, Nat.lor_comm]
  simp only [enter, hjoin, Nat.shiftLeft_or_distrib, Nat.or_assoc, Nat.add_assoc, ← Nat.shiftLeft_add,
    Nat.add_comm m w.cnt]

/-- What the flush loop leaves, and the bytes it emits. -/
theorem flushBytes_eq (k : Nat) : ∀ w : BitWriter, BitWriter.flushBytes k w =
    { w with
      acc := w.acc >>> (8 * k)
      cnt := w.cnt - 8 * k
      out := w.out ++ (List.range k).map fun j => BitVec.ofNat 8 (w.acc >>> (8 * j)) } := by
  induction k with
  | zero => intro w; simp [BitWriter.flushBytes]
  | succ k ih =>
    intro w
    rw [BitWriter.flushBytes, ih, List.range_succ_eq_map, List.map_cons, List.map_map]
    simp only [BitWriter.flushByte, ← Nat.shiftRight_add, List.append_assoc, Function.comp_def, Nat.mul_succ,
      Nat.mul_zero, Nat.shiftRight_zero, List.singleton_append, Nat.add_comm 8, Nat.sub_sub]

/-! ## Primitives that put one field -/

/-- The primitive puts the n bits of v, as one PUTBITS does. -/
structure PutsField (put : BitWriter → BitWriter) (v n : Nat) : Prop where
  short : n ≤ 24
  bound : v < 2 ^ n
  run   : ∀ {w}, Fits w → put w = BitWriter.flushBytes ((w.cnt + n) / 8) (enter v n w)

theorem PutsField.fits {put : BitWriter → BitWriter} {v n : Nat} (h : PutsField put v n) {w : BitWriter}
    (hw : Fits w) : Fits (put w) := by
  rw [h.run hw, flushBytes_eq]
  exact ⟨hw.wide, show w.cnt + n - 8 * ((w.cnt + n) / 8) < 8 by omega,
    (Nat.shiftRight_le _ _).trans_lt (enter_acc_lt hw h.short h.bound)⟩

theorem putsField_putBits {v n : Nat} (hn : n ≤ 24) (hv : v < 2 ^ n) : PutsField (BitWriter.putBits v n) v n :=
  ⟨hn, hv, fun hw => putBits_eq_flush hw hn hv⟩

/-- Fields put one after the other are one, the later above the earlier. -/
theorem PutsField.comp {f g : BitWriter → BitWriter} {v m u n : Nat} (hf : PutsField f v m) (hg : PutsField g u n)
    (hmn : m + n ≤ 24) : PutsField (fun w => g (f w)) (v + 2 ^ m * u) (m + n) where
  short := hmn
  bound := calc
    v + 2 ^ m * u < 2 ^ m * (u + 1) := by rw [Nat.mul_succ, Nat.add_comm]; exact Nat.add_lt_add_left hf.bound _
    _ ≤ 2 ^ m * 2 ^ n := Nat.mul_le_mul_left _ hg.bound
    _ = 2 ^ (m + n) := (Nat.pow_add 2 m n).symm
  run {w} hw := by
    rw [hg.run (hf.fits hw), hf.run hw, enter_flushBytes u n _ (show _ ≤ w.cnt + m by omega), enter_enter u n hf.bound,
      ← flushBytes_add]
    congr 1
    rw [flushBytes_eq]
    show (w.cnt + m) / 8 + (w.cnt + m - 8 * ((w.cnt + m) / 8) + n) / 8 = (w.cnt + (m + n)) / 8
    omega

/-- An extra-bits field, absent when it has 0 bits. -/
theorem putsField_putExtra {v n : Nat} (hn : n ≤ 24) (hv : v < 2 ^ n) : PutsField (BitWriter.putExtra v n) v n := by
  by_cases h : 0 < n
  · have hput : BitWriter.putExtra v n = BitWriter.putBits v n := funext fun w => if_pos h
    rw [hput]
    exact putsField_putBits hn hv
  · obtain rfl : n = 0 := by omega
    obtain rfl : v = 0 := Nat.lt_one_iff.1 hv
    refine ⟨hn, hv, fun {w} hw => ?_⟩
    rw [Nat.add_zero, Nat.div_eq_of_lt hw.few]
    simp [BitWriter.putExtra, BitWriter.flushBytes, enter]

/-- The header's flag below its type (30_encoding.md R84). -/
theorem putsField_putHeader (isLast : Bool) {btype : Nat} (h : btype < 4) :
    PutsField (BitWriter.putHeader isLast btype) (isLast.toNat + 2 ^ 1 * btype) 3 :=
  (putsField_putBits (by decide) (Bool.toNat_lt isLast)).comp (putsField_putBits (by decide) h) (by decide)

/-- The widths of the fixed codes. -/
theorem codeBits_le {n : Nat} (h : n ∈ [5, 7, 8]) : n ≤ 8 := by
  simp only [List.mem_cons, List.not_mem_nil, or_false] at h
  omega

/-- PUTCODE puts the reversed code (R125): its first bit is lowest. -/
theorem putsField_putCode {c : Code} (hn : c.bits ∈ [5, 7, 8]) (hv : c.value < 2 ^ c.bits) :
    PutsField (BitWriter.putCode c) (revN c.value c.bits) c.bits :=
  putsField_putBits ((codeBits_le hn).trans (by decide)) (bitsLsb_revN c.bits hn c.value hv).2

/-- A code and the extra bits above it (30_encoding.md R90, R98). -/
theorem putsField_symbol {c : Code} {extra : Nat} (hc : c.bits ∈ [5, 7, 8] ∧ c.value < 2 ^ c.bits ∧ extra ≤ 16)
    {e : Nat} (he : e < 2 ^ extra) :
    PutsField (fun w => (w.putCode c).putExtra e extra) (revN c.value c.bits + 2 ^ c.bits * e) (c.bits + extra) := by
  obtain ⟨hn, hv, hextra⟩ := hc
  have hbits := codeBits_le hn
  exact (putsField_putCode hn hv).comp (putsField_putExtra (by omega) he) (by omega)

/-! ## The state an element leaves -/

section
variable {s : State} (hf : s.faulted = false) (hacc : s.acc < 2 ^ s.params.accW)
include hf hacc

/-- An element that puts one field leaves the state after that field, and nothing else changes. -/
theorem runElement_putsField {put : BitWriter → BitWriter} {v n : Nat} (h : PutsField put v n) :
    runElement s put = .next (s.afterField v n) := by
  have hfits : Fits (s.writer s.out) := ⟨Nat.le_add_right 32 s.params.accExtra, s.cnt.isLt, hacc⟩
  have hcnt : BitVec.ofNat 3 (s.cnt.toNat + n - 8 * ((s.cnt.toNat + n) / 8)) = BitVec.ofNat 3 (s.cnt.toNat + n) := by
    apply BitVec.eq_of_toNat_eq
    rw [BitVec.toNat_ofNat, BitVec.toNat_ofNat]
    omega
  rw [runElement_live hf, h.run hfits, flushBytes_eq, State.afterField, ← hcnt]
  rfl

theorem runElement_putHeader (isLast : Bool) {btype : Nat} (h : btype < 4) :
    runElement s (BitWriter.putHeader isLast btype) = .next (s.afterField (isLast.toNat + 2 ^ 1 * btype) 3) :=
  runElement_putsField hf hacc (putsField_putHeader isLast h)

theorem runElement_putEob : runElement s BitWriter.putEob = .next (s.afterField 0 7) :=
  runElement_putsField hf hacc (putsField_putCode (c := litLenCode eobSymbol) (by decide) (by decide))

theorem runElement_putLength {row e : Nat} (hrow : row < 29) (he : e < 2 ^ (tableRow lenTable row).extra) :
    runElement s (BitWriter.putLength row e) = .next (s.afterField
      (revN (litLenCode (lenSymbol row)).value (litLenCode (lenSymbol row)).bits +
        2 ^ (litLenCode (lenSymbol row)).bits * e)
      ((litLenCode (lenSymbol row)).bits + (tableRow lenTable row).extra)) :=
  runElement_putsField hf hacc (putsField_symbol (lenCode_bounds row hrow) he)

theorem runElement_putDistance {j e : Nat} (hj : j < 30) (he : e < 2 ^ (tableRow distTable j).extra) :
    runElement s (BitWriter.putDistance j e) = .next (s.afterField
      (revN (distCode j).value (distCode j).bits + 2 ^ (distCode j).bits * e)
      ((distCode j).bits + (tableRow distTable j).extra)) :=
  runElement_putsField hf hacc (putsField_symbol (distCode_bounds j hj) he)

end

/-! ## The statements -/

/-- Settles O25: a header is its flag and its type above it, EOB the seven zero bits of symbol 256. -/
theorem headersAndEobPutTheirBits : Obligations.HeadersAndEobPutTheirBits := by
  intro s hf hacc
  have header := runElement_putHeader hf hacc
  exact ⟨header false (by decide), header false (by decide), header true (by decide), header true (by decide),
    runElement_putEob hf hacc⟩

/-- Settles O26: each is its row of LEN_TABLE with no extra bits, whose code reversed is the field. -/
theorem lengthSymbolsWithoutExtraPutTheirCode : Obligations.LengthSymbolsWithoutExtraPutTheirCode := by
  intro s hf hacc
  and_intros
  all_goals exact runElement_putLength hf hacc (e := 0) (by decide) (by decide)

/-- Settles O27: each is its row of LEN_TABLE, with the extra bits of that row's count. -/
theorem lengthSymbolsWithExtraPutCodeAndExtra : Obligations.LengthSymbolsWithExtraPutCodeAndExtra := by
  intro s hf hacc
  and_intros
  on_goal 20 => exact fun extra _ => runElement_putLength hf hacc (row := 27) (by decide) extra.isLt
  all_goals exact fun extra => runElement_putLength hf hacc (by decide) extra.isLt

/-- Settles O28: each is its row of DIST_TABLE with no extra bits. -/
theorem distanceSymbolsWithoutExtraPutTheirCode : Obligations.DistanceSymbolsWithoutExtraPutTheirCode := by
  intro s hf hacc
  and_intros
  all_goals exact runElement_putDistance hf hacc (e := 0) (by decide) (by decide)

/-- Settles O29: each is its row of DIST_TABLE, with the extra bits of that row's count. -/
theorem distanceSymbolsWithExtraPutCodeAndExtra : Obligations.DistanceSymbolsWithExtraPutCodeAndExtra := by
  intro s hf hacc
  and_intros
  all_goals exact fun extra => runElement_putDistance hf hacc (by decide) extra.isLt

end Sys2Proof.Proofs
end

section
/-! PROOFS. RESET, FINISH and RDACC (40_bytecodec_bitwriter.md R127 to R129). -/

namespace Sys2Proof.Proofs

open Sys2Proof.Machine Sys2Proof.Laws

/-! ## How the three commands run -/

theorem exec_finish (s : State) : exec .finish s = runEncoder s fun w => .ok w.align := rfl

theorem exec_rdacc (s : State) : exec .rdacc s = runValue s (.ok (.accumulator s.acc s.cnt)) := rfl

/-- RESET tests BUSY alone, not FAULT (60_exceptions.md R226). -/
theorem exec_reset_idle {s : State} (h : s.busy = false) : exec .reset s = .next (resetRegisters s) := by
  show execReset s = _
  rw [execReset, h]
  rfl

theorem runEncoder_refused {s : State} (h : s.busy = true ∨ s.faulted = true)
    (body : BitWriter → Except Raise BitWriter) : runEncoder s body = .next s :=
  runCommand_refused h _

theorem runValue_refused {s : State} (h : s.busy = true ∨ s.faulted = true) (value : Except Raise Result) :
    runValue s value = .next s :=
  runCommand_refused h _

/-! ## ALIGN -/

/-- A clean accumulator is within its register. -/
theorem fits_of_clean {w : BitWriter} (hw : Clean w) : Fits w where
  wide := hw.wide
  few := hw.few
  within := hw.clean.trans_le (Nat.pow_le_pow_right (by decide) (by have := hw.wide; have := hw.few; omega))

/-- The bytes ALIGN emits (R126): the zeros that fill the byte leave its value that of the pending bits. -/
theorem align_out {w : BitWriter} (hw : Clean w) :
    w.align.out = w.out ++ if w.cnt = 0 then [] else [BitVec.ofNat 8 w.acc] := by
  by_cases h : w.cnt = 0
  · rw [if_pos h, List.append_nil, BitWriter.align, if_neg (by omega)]
  · have hfull : w.cnt + (8 - w.cnt) = 8 := Nat.add_sub_cancel' hw.few.le
    rw [if_neg h, BitWriter.align, if_pos (by omega),
      putBits_eq_flush (fits_of_clean hw) (by omega) (Nat.two_pow_pos _), hfull, flushBytes_eq]
    simp [enter]

/-- ALIGN returns the pending bits as one byte, or nothing, and empties the accumulator. -/
theorem align_eq {w : BitWriter} (hw : Clean w) : w.align =
    ⟨w.width, 0, 0, w.out ++ if w.cnt = 0 then [] else [BitVec.ofNat 8 w.acc]⟩ := by
  obtain ⟨-, -, hcnt, hacc, hwidth, -⟩ := align_spec hw
  calc w.align = ⟨w.align.width, w.align.acc, w.align.cnt, w.align.out⟩ := rfl
    _ = _ := by rw [hwidth, hacc, hcnt, align_out hw]

/-! ## The statements -/

/-- Settles O31: FINISH is ALIGN of the carry. -/
theorem finishPadsAndReturns : Obligations.FinishPadsAndReturns := by
  intro s
  rw [exec_finish]
  refine ⟨fun hready hclean => ?_, fun hfaulted => runEncoder_refused (.inr hfaulted) _⟩
  have hcnt : s.cnt.toNat = 0 ↔ s.cnt = 0 := (BitVec.toNat_eq (y := 0#3)).symm
  rw [runEncoder_ok (w := (s.writer []).align) hready rfl, align_eq (clean_writer hclean [])]
  simp only [respond, State.storeAcc, writer_cnt, writer_acc, writer_out, hcnt, List.nil_append]
  rfl

/-- Settles O30: the five registers are all RESET writes. -/
theorem resetClearsEverything : Obligations.ResetClearsEverything :=
  fun _ hidle => exec_reset_idle hidle

/-- Settles O32: RDACC runs as the value (ACC, CNT). -/
theorem rdaccReturnsTheAccumulator : Obligations.RdaccReturnsTheAccumulator := by
  intro s
  rw [exec_rdacc]
  exact ⟨fun hready => runValue_ok hready _, fun hfaulted => runValue_refused (.inr hfaulted) _⟩

end Sys2Proof.Proofs
end

section
/-! PROOFS. The tokenizer (41_lz77_tokenizer.md): its inner loop finds the longest match of a distance, its middle loop
the longest of the window and of those the nearest, so its tokens are R141's greedy ones. What R140 and R142 say of the
tokens follows from that they are greedy, with no further look at the scan. -/

namespace Sys2Proof.Proofs

open Sys2Proof.Machine Sys2Proof.Laws

/-! ## The longest match of one distance -/

/-- The inner loop counts exactly the leading positions, within `lim` and both sequences, on which the bytes agree. -/
theorem le_commonLength_iff : ∀ {l lim : Nat} {xs ys : List Byte},
    l ≤ commonLength lim xs ys ↔ l ≤ lim ∧ l ≤ ys.length ∧ ∀ k < l, xs[k]? = ys[k]?
  | 0, _, _, _ => by simp
  | _ + 1, 0, _, _ => by simp [commonLength]
  | _ + 1, _ + 1, _, [] => by simp [commonLength]
  | l + 1, lim + 1, [], y :: ys => by
    simp only [commonLength, Nat.le_zero, Nat.succ_ne_zero, false_iff, not_and, not_forall]
    exact fun _ _ => ⟨0, Nat.succ_pos l, by simp⟩
  | l + 1, lim + 1, x :: xs, y :: ys => by
    rw [commonLength]
    by_cases hxy : x = y
    · rw [if_pos hxy]
      simp only [Nat.add_le_add_iff_right, List.length_cons, le_commonLength_iff, Nat.forall_lt_succ_left',
        List.getElem?_cons_zero, List.getElem?_cons_succ, hxy, true_and]
    · simp only [if_neg hxy, Nat.le_zero, Nat.succ_ne_zero, false_iff, not_and, not_forall]
      exact fun _ _ => ⟨0, Nat.succ_pos l, by simpa using hxy⟩

/-- A match is open at `pos` exactly when its distance is a candidate and its length is at most the one found there. -/
theorem matches_iff {overlap : Bool} {input : List Byte} {window lookahead pos d l : Nat} :
    Matches overlap input window lookahead pos d l ↔ 1 ≤ d ∧ d ≤ min window pos ∧
      l ≤ matchLength overlap input pos (min lookahead (input.length - pos)) d := by
  have hcut : ∀ maxlen, l ≤ (if overlap then maxlen else min maxlen d) ↔ l ≤ maxlen ∧ (overlap = true ∨ l ≤ d) := by
    cases overlap <;> simp
  simp only [Matches, matchLength, le_commonLength_iff, hcut, List.length_drop, List.getElem?_drop]
  refine and_congr_right fun _ => and_congr_right fun _ => ⟨?_, ?_⟩
  · rintro ⟨hl, hover, heq⟩
    exact ⟨⟨hl, hover⟩, hl.trans (Nat.min_le_right _ _), heq⟩
  · rintro ⟨⟨hl, hover⟩, -, heq⟩
    exact ⟨hl, hover, heq⟩

/-! ## The nearest of the longest matches -/

/-- Of the distances 1 to n, where distance d matches `len d` bytes, `best` is a longest match and of those the nearest;
(0, 0) when nothing matches. -/
structure NearestLongest (len : Nat → Nat) (n : Nat) (best : Nat × Nat) : Prop where
  longest  : ∀ d, 1 ≤ d → d ≤ n → len d ≤ best.1
  attained : 0 < best.1 → 1 ≤ best.2 ∧ best.2 ≤ n ∧ len best.2 = best.1
  nearest  : ∀ d, 1 ≤ d → d < best.2 → len d < best.1

/-- One more distance replaces the best only when its match is strictly longer (R141). -/
theorem NearestLongest.next {len : Nat → Nat} {n : Nat} {best : Nat × Nat} (h : NearestLongest len n best) :
    NearestLongest len (n + 1) (if best.1 < len (n + 1) then (len (n + 1), n + 1) else best) := by
  obtain ⟨hlongest, hattained, hnearest⟩ := h
  split
  next hlt =>
    refine ⟨fun d h1 hd => ?_, fun _ => ⟨Nat.succ_pos n, le_rfl, rfl⟩,
      fun d h1 hd => (hlongest d h1 (Nat.le_of_lt_succ hd)).trans_lt hlt⟩
    obtain hd | rfl := Nat.le_succ_iff.1 hd
    · exact (hlongest d h1 hd).trans hlt.le
    · exact le_rfl
  next hge =>
    refine ⟨fun d h1 hd => ?_, fun hpos => ?_, hnearest⟩
    · obtain hd | rfl := Nat.le_succ_iff.1 hd
      · exact hlongest d h1 hd
      · exact Nat.le_of_not_lt hge
    · obtain ⟨h1, hn, hlen⟩ := hattained hpos
      exact ⟨h1, Nat.le_succ_of_le hn, hlen⟩

/-- The middle loop, nearest distance first, ends with the nearest of the longest matches. -/
theorem nearestLongest_foldl (len : Nat → Nat) (n : Nat) : NearestLongest len n
    ((List.range' 1 n).foldl (fun best d => if best.1 < len d then (len d, d) else best) (0, 0)) := by
  induction n with
  | zero => exact ⟨fun d h1 h0 => by omega, fun h => by simp at h, fun d h1 h0 => by simp at h0⟩
  | succ n ih =>
    rw [List.range'_1_concat, List.foldl_append, Nat.add_comm 1 n]
    exact ih.next

section
variable {overlap : Bool} {input : List Byte} {window lookahead pos : Nat}

/-- The best match that the scan finds at `pos`. -/
theorem bestMatch_nearestLongest : NearestLongest
    (matchLength overlap input pos (min lookahead (input.length - pos))) (min window pos)
    (bestMatch overlap input window pos (min lookahead (input.length - pos))) :=
  nearestLongest_foldl _ _

variable {best : Nat × Nat}
  (hbest : NearestLongest (matchLength overlap input pos (min lookahead (input.length - pos))) (min window pos) best)
include hbest

/-- No open match is longer than the best. -/
theorem NearestLongest.length_le {d l : Nat} (h : Matches overlap input window lookahead pos d l) : l ≤ best.1 := by
  obtain ⟨h1, hd, hl⟩ := matches_iff.1 h
  exact hl.trans (hbest.longest d h1 hd)

/-- A best match of some length is open. -/
theorem NearestLongest.matches (h : 0 < best.1) : Matches overlap input window lookahead pos best.2 best.1 := by
  obtain ⟨h1, hd, hl⟩ := hbest.attained h
  exact matches_iff.2 ⟨h1, hd, hl.ge⟩

/-- No open match of the same length is nearer. -/
theorem NearestLongest.distance_le {d l : Nat} (h : Matches overlap input window lookahead pos d l)
    (hl : l = best.1) : best.2 ≤ d := by
  obtain ⟨h1, -, hlen⟩ := matches_iff.1 h
  by_contra hd
  have := hbest.nearest d h1 (Nat.lt_of_not_le hd)
  omega

end

/-! ## The scan is greedy -/

section
variable {overlap : Bool} {input : List Byte} {window lookahead minMatch : Nat}

/-- With parameters that R140 admits, each turn of the scan gives the token that R141 asks for there. The fields are
within their 32 bits because the window and the lookahead are. -/
theorem greedyFrom_scanTokens (hw : window ≤ 32768) (hla : lookahead ≤ 258) (hm : 3 ≤ minMatch) (fuel : Nat) :
    ∀ {pos : Nat}, pos ≤ input.length → input.length ≤ pos + fuel →
      GreedyFrom overlap input window lookahead minMatch pos
        (scanTokens overlap input window lookahead minMatch fuel pos) := by
  induction fuel with
  | zero => intro pos hpos hfuel; exact le_antisymm hpos hfuel
  | succ fuel ih =>
    intro pos hpos hfuel
    rw [scanTokens]
    split
    next hin =>
      have hbest := bestMatch_nearestLongest (overlap := overlap) (input := input) (window := window)
        (lookahead := lookahead) (pos := pos)
      dsimp only
      generalize bestMatch overlap input window pos (min lookahead (input.length - pos)) = best at hbest ⊢
      split
      next hlong =>
        have hmatch := hbest.matches (by omega)
        have ⟨_, hd, hl, _, _⟩ := hmatch
        rw [GreedyFrom, toNat_ofNat_of_lt (by omega), toNat_ofNat_of_lt (by omega)]
        exact ⟨hmatch, hlong, fun d' l' h => ⟨hbest.length_le h, hbest.distance_le h⟩, ih (by omega) (by omega)⟩
      next hshort =>
        rw [GreedyFrom, List.getD_eq_getElem _ _ hin]
        exact ⟨List.getElem?_eq_getElem hin, fun d l h => (hbest.length_le h).trans_lt (Nat.lt_of_not_le hshort),
          ih hin (by omega)⟩
    next hend => exact le_antisymm hpos (Nat.le_of_not_lt hend)

theorem greedyFrom_tokenize (hw : window ≤ 32768) (hla : lookahead ≤ 258) (hm : 3 ≤ minMatch) :
    GreedyFrom overlap input window lookahead minMatch 0 (tokenize overlap input window lookahead minMatch) :=
  greedyFrom_scanTokens hw hla hm input.length (Nat.zero_le _) (by omega)

/-! ## What greedy tokens are -/

/-- Copying one match extends the input's prefix by it, overlapping or not (30_encoding.md R82). -/
theorem copyBack_take {d : Nat} (hd : 1 ≤ d) (l : Nat) : ∀ {pos : Nat}, d ≤ pos → pos + l ≤ input.length →
    (∀ k < l, input[pos - d + k]? = input[pos + k]?) →
    copyBack d l (input.take pos) = some (input.take (pos + l)) := by
  induction l with
  | zero => intro pos _ _ _; rfl
  | succ l ih =>
    intro pos hpos hlen heq
    have htake : (input.take pos).length = pos := List.length_take_of_le (by omega)
    have hbyte : (input.take pos).getD (pos - d) 0 = input[pos] := by
      have h0 := heq 0 (Nat.succ_pos l)
      rw [Nat.add_zero, Nat.add_zero, List.getElem?_eq_getElem (show pos < input.length by omega)] at h0
      rw [List.getD_eq_getElem?_getD, List.getElem?_take_of_lt (by omega), h0, Option.getD_some]
    rw [copyBack, htake, if_neg (by omega), hbyte, List.take_append_getElem,
      ih (by omega) (by omega) fun k hk => ?_, Nat.add_right_comm, Nat.add_assoc]
    have hk1 := heq (k + 1) (by omega)
    rwa [show pos - d + (k + 1) = pos + 1 - d + k by omega, show pos + (k + 1) = pos + 1 + k by omega] at hk1

/-- Greedy tokens from `pos` expand the input before `pos` to the whole input (R142(b)). -/
theorem expandFrom_of_greedyFrom : ∀ {toks : List Token} {pos : Nat}, pos ≤ input.length →
    GreedyFrom overlap input window lookahead minMatch pos toks → expandFrom (input.take pos) toks = some input
  | [], pos, _, h => by
    rw [GreedyFrom] at h
    rw [h, List.take_length, expandFrom]
  | .lit b :: rest, pos, _, h => by
    obtain ⟨hb, -, hrest⟩ := h
    obtain ⟨hpos, rfl⟩ := List.getElem?_eq_some_iff.1 hb
    rw [expandFrom, List.take_append_getElem, expandFrom_of_greedyFrom hpos hrest]
  | .rep d l :: rest, pos, hpos, h => by
    obtain ⟨⟨h1, hd, hl, -, heq⟩, -, -, hrest⟩ := h
    rw [expandFrom, copyBack_take h1 l.toNat (by omega) (by omega) heq, Option.bind_some,
      expandFrom_of_greedyFrom (by omega) hrest]

/-- Each greedy token stands for at least one byte of the input (R142(d)). -/
theorem length_le_of_greedyFrom (hm : 3 ≤ minMatch) : ∀ {toks : List Token} {pos : Nat},
    GreedyFrom overlap input window lookahead minMatch pos toks → pos + toks.length ≤ input.length
  | [], pos, h => le_of_eq h
  | .lit b :: rest, pos, h => by
    obtain ⟨-, -, hrest⟩ := h
    have := length_le_of_greedyFrom hm hrest
    rw [List.length_cons]; omega
  | .rep d l :: rest, pos, h => by
    obtain ⟨-, hmin, -, hrest⟩ := h
    have := length_le_of_greedyFrom hm hrest
    rw [List.length_cons]; omega

/-- Every greedy Repeat is an open match, of at least minMatch bytes, somewhere in the input (R142(a), (c)). -/
theorem matches_of_mem_greedyFrom {d l : U32} : ∀ {toks : List Token} {pos : Nat},
    GreedyFrom overlap input window lookahead minMatch pos toks → Token.rep d l ∈ toks →
    ∃ at₀, Matches overlap input window lookahead at₀ d.toNat l.toNat ∧ minMatch ≤ l.toNat
  | .lit b :: rest, pos, h, hmem => by
    obtain ⟨-, -, hrest⟩ := h
    exact matches_of_mem_greedyFrom hrest ((List.mem_cons.1 hmem).resolve_left (by simp))
  | .rep d' l' :: rest, pos, h, hmem => by
    obtain ⟨hmatch, hmin, -, hrest⟩ := h
    obtain heq | hmem := List.mem_cons.1 hmem
    · cases heq; exact ⟨pos, hmatch, hmin⟩
    · exact matches_of_mem_greedyFrom hrest hmem

/-- Tokens that are all Literals expand by their bytes. -/
theorem expandFrom_map_lit : ∀ (lits out : List Byte), expandFrom out (lits.map Token.lit) = some (out ++ lits)
  | [], out => by rw [List.map_nil, expandFrom, List.append_nil]
  | b :: lits, out => by rw [List.map_cons, expandFrom, expandFrom_map_lit, List.append_assoc, List.singleton_append]

/-- Without a Repeat, tokens are the Literals of what they expand to. -/
theorem eq_map_lit_of_no_rep : ∀ {toks : List Token}, (∀ d l, Token.rep d l ∉ toks) →
    ∃ lits : List Byte, toks = lits.map Token.lit
  | [], _ => ⟨[], rfl⟩
  | .rep d l :: _, h => absurd List.mem_cons_self (h d l)
  | .lit b :: rest, h => by
    obtain ⟨lits, rfl⟩ := eq_map_lit_of_no_rep fun d l hmem => h d l (List.mem_cons_of_mem _ hmem)
    exact ⟨b :: lits, rfl⟩

/-- When no match can be open or none can be long enough, greedy tokens are the input's Literals (R140). -/
theorem eq_map_lit_of_greedyFrom (h : window = 0 ∨ lookahead < minMatch) {toks : List Token}
    (hg : GreedyFrom overlap input window lookahead minMatch 0 toks) : toks = input.map Token.lit := by
  obtain ⟨lits, rfl⟩ := eq_map_lit_of_no_rep (toks := toks) fun d l hmem => by
    obtain ⟨pos, ⟨h1, hd, hl, -, -⟩, hmin⟩ := matches_of_mem_greedyFrom hg hmem
    omega
  have hexp := expandFrom_of_greedyFrom (Nat.zero_le _) hg
  rw [List.take_zero, expandFrom_map_lit, List.nil_append, Option.some.injEq] at hexp
  rw [hexp]

end

/-! ## Running TOKENIZE -/

section
variable {window lookahead minMatch : Nat} {s : State} (hready : s.ready) (input : List Byte)
include hready

/-- The first bound of R140 that fails is the fault; when none does, the tokens are returned. -/
theorem exec_tokenize : exec (.tokenize input window lookahead minMatch) s = .next (
    if 32768 < window then raise ⟨.badParam, 1⟩ s
    else if 258 < lookahead then raise ⟨.badParam, 2⟩ s
    else if minMatch < 3 ∨ 258 < minMatch then raise ⟨.badParam, 3⟩ s
    else respond (.tokens (tokenize s.params.tokOverlap input window lookahead minMatch)) s) := by
  obtain ⟨h1, h2, h3⟩ : infoNat 1 = 1 ∧ infoNat 2 = 2 ∧ infoNat 3 = 3 := ⟨rfl, rfl, rfl⟩
  show execTokenize input window lookahead minMatch s = _
  rw [execTokenize, checkParams, h1, h2, h3, Config.maxDist, Config.maxLen, Config.minLen]
  split_ifs
  iterate 3 exact runValue_error hready _
  exact runValue_ok hready _

theorem exec_tokenize_ok (hw : window ≤ 32768) (hla : lookahead ≤ 258) (hm3 : 3 ≤ minMatch) (hm : minMatch ≤ 258) :
    exec (.tokenize input window lookahead minMatch) s =
      .next (respond (.tokens (tokenize s.params.tokOverlap input window lookahead minMatch)) s) := by
  rw [exec_tokenize hready, if_neg (by omega), if_neg (by omega), if_neg (by omega)]

end

/-! ## The statements -/

/-- Settles O33: the tokens returned are those of the scan, which is greedy. -/
theorem tokenizeIsGreedy : Obligations.TokenizeIsGreedy :=
  fun input _ _ _ _ hready hw hla hm3 hm =>
    ⟨_, exec_tokenize_ok hready input hw hla hm3 hm, greedyFrom_tokenize hw hla hm3⟩

/-- Settles O34: greedy tokens expand to the input, each standing for a byte at least, and their Repeats are open
matches. -/
theorem tokenizeReconstructsTheInput : Obligations.TokenizeReconstructsTheInput := by
  intro input window lookahead minMatch s t hready hw hla hm3 hm h
  obtain ⟨toks, hrun, hgreedy⟩ := tokenizeIsGreedy input window lookahead minMatch s hready hw hla hm3 hm
  rw [hrun] at h
  cases h
  refine ⟨toks, rfl, expandFrom_of_greedyFrom (Nat.zero_le _) hgreedy, ?_, fun d l hmem => ?_⟩
  · rw [← Nat.zero_add toks.length]
    exact length_le_of_greedyFrom hm3 hgreedy
  · obtain ⟨pos, ⟨h1, hd, hl, -, -⟩, hmin⟩ := matches_of_mem_greedyFrom hgreedy hmem
    omega

/-- Settles O35: each bound's case is one branch of the check (R140), and past it the tokens are greedy. -/
theorem tokenizeChecksItsBounds : Obligations.TokenizeChecksItsBounds := by
  intro input window lookahead minMatch s hready
  refine ⟨_, exec_tokenize hready input, ?_, rfl, rfl, rfl⟩
  split_ifs with hw hla hm
  · exact faultEntry_raise ⟨.badParam, 1⟩ s
  · exact faultEntry_raise ⟨.badParam, 2⟩ s
  · exact faultEntry_raise ⟨.badParam, 3⟩ s
  · exact ⟨_, rfl, fun h => eq_map_lit_of_greedyFrom h (greedyFrom_tokenize (by omega) (by omega) (by omega))⟩

end Sys2Proof.Proofs
end

section
/-! PROOFS. What ENCODE emits is read back by the checking decoder (30_encoding.md R83 to R101): each field by its
reader, each block as the expansion of its tokens, and so the blocks of ENCODE's runs (42_static_huffman_encoder.md R156)
as the expansion of all of them. With the tokenizer's R142 that is the round trip. -/

namespace Sys2Proof.Proofs

open Sys2Proof.Machine Sys2Proof.Laws

/-! ## Tokens in sequence -/

theorem expandFrom_append : ∀ (before after : List Token) (out : List Byte),
    expandFrom out (before ++ after) = (expandFrom out before).bind fun o => expandFrom o after
  | [], after, out => rfl
  | .lit b :: before, after, out => expandFrom_append before after (out ++ [b])
  | .rep d l :: before, after, out => by
    rw [List.cons_append, expandFrom, expandFrom, Option.bind_assoc]
    exact Option.bind_congr fun o _ => expandFrom_append before after o

/-- A run of Literals is the Literals of its bytes. -/
theorem map_lit_byteOf {run : List Token} (h : ∀ t ∈ run, Token.isLit t = true) :
    (run.map Token.byteOf).map Token.lit = run := by
  rw [List.map_map]
  refine (List.map_congr_left fun t ht => ?_).trans (List.map_id run)
  cases t with
  | lit b => rfl
  | rep d l => exact absurd (h _ ht) Bool.false_ne_true

/-! ## Whole bytes (30_encoding.md R98, R99) -/

theorem bitsOf_cons (b : Byte) (bs : List Byte) : bitsOf (b :: bs) = bitsLsb 8 b.toNat ++ bitsOf bs := by
  rw [← List.singleton_append, bitsOf_append, bitsOf_singleton]

theorem readBytes_bitsOf (bytes : List Byte) (rest : List Bool) :
    readBytes bytes.length (bitsOf bytes ++ rest) = some (bytes, rest) := by
  induction bytes with
  | nil => rfl
  | cons b bytes ih =>
    rw [List.length_cons, readBytes, bitsOf_cons, List.append_assoc, (readLsb_eq_some_iff 8).2 ⟨b.isLt, rfl⟩,
      Option.bind_some, ih]
    simp

/-- LE16 puts its value's bits least significant first. -/
theorem bitsOf_le16 (v : U16) : bitsOf (le16 v) = bitsLsb 16 v.toNat := by
  rw [le16, bitsOf_cons, bitsOf_singleton, BitVec.extractLsb'_toNat, BitVec.extractLsb'_toNat,
    bitsLsb_mod _ _ le_rfl, bitsLsb_mod _ _ le_rfl, Nat.shiftRight_zero]
  exact (bitsLsb_add 8 8 _).symm

theorem readLsb_le16 (v : U16) (rest : List Bool) : readLsb 16 (bitsOf (le16 v) ++ rest) = some (v.toNat, rest) := by
  rw [bitsOf_le16]
  exact (readLsb_eq_some_iff 16).2 ⟨v.isLt, rfl⟩

/-! ## Blocks read back -/

/-- The bits of a block, followed by `rest`, are read as the expansion of its tokens; then the stream ends or goes on
with `rest`. -/
def ReadsBlock (run : List Token) (isLast : Bool) (block rest : List Bool) : Prop :=
  ∀ (n : Nat) (out : List Byte), inflateBlocks (n + 1) out (block ++ rest) =
    (expandFrom out run).bind fun o => if isLast then some o else inflateBlocks n o rest

/-- A stored block's padding, lengths and bytes after its header, where the stream's end is on a byte boundary: the
decoder skips the padding and finds LEN and its complement (30_encoding.md R85). -/
theorem inflateStored_block {lits : List Byte} (hlits : lits.length ≤ 65535) {pad rest : List Bool}
    (hpad : pad.length < 8) (hrest : rest.length % 8 = 0) (out : List Byte) :
    inflateStored out (pad ++ (bitsOf (le16 (BitVec.ofNat 16 lits.length) ++ le16 (~~~BitVec.ofNat 16 lits.length) ++
      lits) ++ rest)) = some (out ++ lits, rest) := by
  have hlen : (BitVec.ofNat 16 lits.length).toNat = lits.length := toNat_ofNat_of_lt (by omega)
  have hskip : ∀ bytes : List Byte, (pad ++ (bitsOf bytes ++ rest)).length % 8 = pad.length := by
    intro bytes
    rw [List.length_append, List.length_append, length_bitsOf]
    omega
  rw [inflateStored, hskip, List.drop_left, bitsOf_append, bitsOf_append, List.append_assoc, List.append_assoc,
    readLsb_le16, Option.bind_some, readLsb_le16, Option.bind_some, BitVec.toNat_not, hlen, if_pos (by omega),
    readBytes_bitsOf]
  rfl

theorem readsBlock_stored {lits : List Byte} (hlits : lits.length ≤ 65535) (isLast : Bool) {pad rest : List Bool}
    (hpad : pad.length < 8) (hrest : rest.length % 8 = 0) :
    ReadsBlock (lits.map Token.lit) isLast (bitsLsb 3 (isLast.toNat + 2 * 0) ++ pad ++
      bitsOf (le16 (BitVec.ofNat 16 lits.length) ++ le16 (~~~BitVec.ofNat 16 lits.length) ++ lits)) rest := by
  intro n out
  have hstored := inflateStored_block hlits hpad hrest out
  rw [expandFrom_map_lit, Option.bind_some, List.append_assoc, List.append_assoc]
  cases isLast with
  | false => exact congrArg (Option.bind · fun p => inflateBlocks n p.1 p.2) hstored
  | true => exact congrArg (Option.map Prod.fst) hstored

/-! ## The Repeats of a static block -/

/-- A length is put as the element that spells it (30_encoding.md R95). -/
theorem decodeElement_length {v : Nat} (h3 : 3 ≤ v) (h258 : v ≤ 258) (rest : List Bool) :
    decodeElement .litLen (symbolBits (litLenCode (lenSymbol (rowFor lenTable v)))
      (tableRow lenTable (rowFor lenTable v)).extra (v - (tableRow lenTable (rowFor lenTable v)).base) ++ rest) =
      .ok (lengthElement v, rest) := by
  obtain ⟨hrow, hfits⟩ := rowFor_lenTable h3 h258
  obtain ⟨hspelled, -⟩ := lengthElement_spec h3 h258
  rw [decodeElement, decodeLitLen_symbolBits hrow hfits]
  rw [lengthElement] at hspelled ⊢
  split at hspelled
  next hi => rw [hi]; rfl
  next => cases hspelled

/-- A distance likewise (30_encoding.md R97). -/
theorem decodeElement_distance {v : Nat} (h1 : 1 ≤ v) (hmax : v ≤ 32768) (rest : List Bool) :
    decodeElement .dist (symbolBits (distCode (rowFor distTable v))
      (tableRow distTable (rowFor distTable v)).extra (v - (tableRow distTable (rowFor distTable v)).base) ++ rest) =
      .ok (distanceElement v, rest) := by
  obtain ⟨hrow, hfits⟩ := rowFor_distTable h1 hmax
  obtain ⟨hspelled, -⟩ := distanceElement_spec h1 hmax
  rw [decodeElement, decodeDist_symbolBits hrow hfits]
  rw [distanceElement] at hspelled ⊢
  split at hspelled
  next hi => rw [hi]; rfl
  next => cases hspelled

/-- The decoder ends a static block at the end-of-block code. -/
theorem inflateRepeats_eob (fuel : Nat) (out : List Byte) (rest : List Bool) :
    inflateRepeats (fuel + 1) out (List.replicate 7 false ++ rest) = some (out, rest) := rfl

/-- Before it, a length and a distance symbol are one Repeat: the length symbol spells a number, so it is not the
end-of-block code. -/
theorem inflateRepeats_symbols {bs rest rest' : List Bool} {li di : Instr} {d l : Nat}
    (hli : decodeElement .litLen bs = .ok (li, rest)) (hl : spelled li = some l)
    (hdi : decodeElement .dist rest = .ok (di, rest')) (hd : spelled di = some d) (fuel : Nat) (out : List Byte) :
    inflateRepeats (fuel + 1) out bs = (copyBack d l out).bind fun o => inflateRepeats fuel o rest' := by
  rw [inflateRepeats, hli]
  split
  next h => cases h
  next h => cases h; cases hl
  next h =>
    cases h
    rw [hdi]
    show (spelled li).bind _ = _
    rw [hl, Option.bind_some, hd, Option.bind_some]

theorem inflateRepeats_token {t : Token} (ht : legalToken t) (fuel : Nat) (out : List Byte) (rest : List Bool) :
    inflateRepeats (fuel + 1) out (tokenBits t ++ rest) =
      (expandFrom out [t]).bind fun o => inflateRepeats fuel o rest := by
  cases t with
  | lit b => exact ht.elim
  | rep d l =>
    obtain ⟨hl3, hl258, hd1, hdmax⟩ := ht
    rw [tokenBits, List.append_assoc, inflateRepeats_symbols (decodeElement_length hl3 hl258 _)
      (lengthElement_spec hl3 hl258).1 (decodeElement_distance hd1 hdmax rest) (distanceElement_spec hd1 hdmax).1]
    rw [expandFrom, Option.bind_assoc]
    rfl

/-- A static block's tokens and its end-of-block code are read as the tokens' expansion, with fuel for each token and
the end. -/
theorem inflateRepeats_tokens : ∀ {toks : List Token} {fuel : Nat}, (∀ t ∈ toks, legalToken t) → toks.length < fuel →
    ∀ (out : List Byte) (rest : List Bool),
      inflateRepeats fuel out (toks.flatMap tokenBits ++ (List.replicate 7 false ++ rest)) =
        (expandFrom out toks).map fun o => (o, rest)
  | [], fuel + 1, _, _, out, rest => inflateRepeats_eob fuel out rest
  | t :: toks, fuel + 1, h, hfuel, out, rest => by
    have htoks : ∀ u ∈ toks, legalToken u := fun u hu => h u (List.mem_cons_of_mem t hu)
    have hlen : toks.length < fuel := Nat.lt_of_succ_lt_succ hfuel
    calc inflateRepeats (fuel + 1) out ((t :: toks).flatMap tokenBits ++ (List.replicate 7 false ++ rest))
        = (expandFrom out [t]).bind fun o =>
            inflateRepeats fuel o (toks.flatMap tokenBits ++ (List.replicate 7 false ++ rest)) := by
          rw [List.flatMap_cons, List.append_assoc, inflateRepeats_token (h t List.mem_cons_self)]
      _ = (expandFrom out [t]).bind fun o => (expandFrom o toks).map fun o => (o, rest) :=
          Option.bind_congr fun o _ => inflateRepeats_tokens htoks hlen o rest
      _ = (expandFrom out (t :: toks)).map fun o => (o, rest) := by
          rw [show t :: toks = [t] ++ toks from rfl, expandFrom_append, Option.map_bind]
          rfl

/-- A distance symbol alone has five bits, so a block holds more bits than tokens. -/
theorem length_le_length_tokenBits {toks : List Token} (h : ∀ t ∈ toks, legalToken t) :
    toks.length ≤ (toks.flatMap tokenBits).length := by
  rw [List.length_flatMap]
  have hone : ∀ t ∈ toks, 1 ≤ (tokenBits t).length := by
    intro t ht
    cases t with
    | lit b => exact (h _ ht).elim
    | rep d l => simp only [tokenBits, symbolBits, distCode, bitsMsb, List.length_append, List.length_cons]; omega
  simpa using List.sum_le_sum hone

theorem readsBlock_static {toks : List Token} (h : ∀ t ∈ toks, legalToken t) (isLast : Bool) (rest : List Bool) :
    ReadsBlock toks isLast (bitsLsb 3 (isLast.toNat + 2 * 1) ++ toks.flatMap tokenBits ++ List.replicate 7 false)
      rest := by
  intro n out
  have hfuel : toks.length < (toks.flatMap tokenBits ++ (List.replicate 7 false ++ rest)).length := by
    have := length_le_length_tokenBits h
    simp only [List.length_append, List.length_replicate]
    omega
  have hrepeats := inflateRepeats_tokens h hfuel out rest
  rw [List.append_assoc, List.append_assoc]
  cases isLast with
  | false =>
    have hnext := congrArg (Option.bind · fun p => inflateBlocks n p.1 p.2) hrepeats
    rw [Option.bind_map] at hnext
    exact hnext
  | true =>
    have hend := congrArg (Option.map Prod.fst) hrepeats
    rw [Option.map_map] at hend
    exact hend.trans Option.map_eq_bind

/-- The decoder does not look behind the final block, so padding may end it. -/
theorem ReadsBlock.pad {run : List Token} {block pad rest : List Bool} (h : ReadsBlock run true block (pad ++ rest)) :
    ReadsBlock run true (block ++ pad) rest :=
  fun n out => (congrArg _ (List.append_assoc ..)).trans (h n out)

/-! ## Blocks put -/

/-- A block encoder's run puts the bits of a block that is read back as these tokens, whatever follows it up to a byte
boundary; the final block ends on one. -/
def PutsBlock (run : List Token) (isLast : Bool) (w w' : BitWriter) : Prop :=
  ∃ block : List Bool, block ≠ [] ∧ stream w' = stream w ++ block ∧ (isLast = true → w'.cnt = 0) ∧
    ∀ rest, (w'.cnt + rest.length) % 8 = 0 → ReadsBlock run isLast block rest

theorem stream_append {w : BitWriter} (h : w.cnt = 0) (bytes : List Byte) :
    stream (w.append bytes) = stream w ++ bitsOf bytes := by
  simp [stream, BitWriter.append, h, bitsLsb, bitsOf_append]

theorem storedBlock_putsBlock {lits : List Byte} {isLast : Bool} {w w' : BitWriter} (hw : Clean w)
    (h : storedBlock lits isLast w = .ok w') : PutsBlock (lits.map Token.lit) isLast w w' := by
  simp only [storedBlock] at h
  split at h
  next => cases h
  next hlits =>
    cases h
    have hput := puts_putHeader isLast (btype := 0) (by decide)
    obtain ⟨halign, -, hcnt, -⟩ := align_spec (hput.clean w hw)
    rw [hput.stream w hw, List.append_assoc] at halign
    refine ⟨_, ?_, ((stream_append hcnt _).trans (congrArg (· ++ _) halign)).trans (List.append_assoc ..),
      fun _ => hcnt, fun rest hrest => readsBlock_stored (Nat.le_of_not_lt hlits) isLast ?_ ?_⟩
    · simp [bitsLsb]
    · rw [padding, List.length_replicate]; omega
    · rwa [show (BitWriter.append _ _).cnt = 0 from hcnt, Nat.zero_add] at hrest

theorem staticBlock_putsBlock {first : Nat} {toks : List Token} {isLast : Bool} {w w' : BitWriter} (hw : Clean w)
    (h : staticBlock first toks isLast w = .ok w') : PutsBlock toks isLast w w' := by
  unfold staticBlock at h
  split at h
  next => cases h
  next hcheck =>
    cases h
    have hlegal := (checkTokens_none toks first).1 hcheck
    have hput := puts_staticBody isLast hlegal
    cases isLast with
    | false =>
      refine ⟨_, ?_, hput.stream w hw, fun h => absurd h Bool.false_ne_true,
        fun rest _ => readsBlock_static hlegal false rest⟩
      simp [bitsLsb]
    | true =>
      obtain ⟨halign, -, hcnt, -⟩ := align_spec (hput.clean w hw)
      rw [hput.stream w hw, List.append_assoc] at halign
      refine ⟨_, ?_, halign, fun _ => hcnt, fun rest _ => (readsBlock_static hlegal true _).pad⟩
      simp [bitsLsb]

/-! ## ENCODE's blocks (42_static_huffman_encoder.md R156) -/

/-- One turn of the dispatch loop: the block of the first maximal run, final when no tokens are left, then the rest. -/
theorem encodeRuns_cons {fuel ti : Nat} {t : Token} {toks : List Token} {w w' : BitWriter} (hw : Clean w)
    (h : encodeRuns (fuel + 1) ti (t :: toks) w = .ok w') : ∃ run after w₁, t :: toks = run ++ after ∧ run ≠ [] ∧
      Clean w₁ ∧ PutsBlock run after.isEmpty w w₁ ∧ encodeRuns fuel (ti + run.length) after w₁ = .ok w' := by
  simp only [encodeRuns] at h
  split at h
  next => cases h
  next w₁ hblock =>
    refine ⟨_, _, w₁, (List.takeWhile_append_dropWhile ..).symm, ?_, ?_, ?_, h⟩
    · simp
    · split at hblock
      next => exact (keepsClean_storedBlock _ _ w w₁ hw hblock).1
      next => exact (keepsClean_staticBlock _ _ _ w w₁ hw hblock).1
    · split at hblock
      next hlit =>
        have hput := storedBlock_putsBlock hw hblock
        have hrun : ∀ u ∈ (t :: toks).takeWhile (fun u => Token.isLit u == Token.isLit t), Token.isLit u = true :=
          fun u hu => (eq_of_beq (List.mem_takeWhile_imp (p := fun u => Token.isLit u == Token.isLit t) hu)).trans hlit
        rwa [map_lit_byteOf hrun] at hput
      next => exact staticBlock_putsBlock hw hblock

theorem encodeRuns_nil (fuel ti : Nat) (w : BitWriter) : encodeRuns fuel ti [] w = .ok w := by cases fuel <;> rfl

/-- ENCODE's blocks put bits that end on a byte boundary and decode to the expansion of the tokens. -/
theorem encodeRuns_inflate (fuel : Nat) : ∀ {ti : Nat} {toks : List Token} {w w' : BitWriter}, Clean w → toks ≠ [] →
    toks.length ≤ fuel → encodeRuns fuel ti toks w = .ok w' →
    ∃ bits, stream w' = stream w ++ bits ∧ w'.cnt = 0 ∧
      ∀ n out, bits.length ≤ n → inflateBlocks n out bits = expandFrom out toks := by
  induction fuel with
  | zero => intro ti toks w w' _ hne hlen; exact absurd (List.eq_nil_of_length_eq_zero (Nat.le_zero.1 hlen)) hne
  | succ fuel ih =>
    intro ti toks w w' hw hne hlen h
    obtain ⟨t, toks, rfl⟩ := List.exists_cons_of_ne_nil hne
    obtain ⟨run, after, w₁, heq, hrun, hclean, ⟨block, hblock, hstream, hfinal, hreads⟩, hrest⟩ := encodeRuns_cons hw h
    rw [heq] at hlen ⊢
    have hblockLen := List.length_pos_iff.2 hblock
    by_cases hafter : after = []
    · subst hafter
      rw [encodeRuns_nil] at hrest
      cases hrest
      have hcnt := hfinal rfl
      refine ⟨block, hstream, hcnt, fun n out hn => ?_⟩
      obtain ⟨n, rfl⟩ := Nat.exists_eq_succ_of_ne_zero (show n ≠ 0 by omega)
      have hread := hreads [] (by rw [hcnt]; rfl) n out
      rw [List.append_nil] at hread ⊢
      exact hread.trans (Option.bind_fun_some _)
    · have hrunLen := List.length_pos_iff.2 hrun
      rw [List.length_append] at hlen
      obtain ⟨bits, hstream', hcnt, hinflate⟩ := ih hclean hafter (by omega) hrest
      have hbytes : (w₁.cnt + bits.length) % 8 = 0 := by
        have := congrArg List.length hstream'
        simp only [stream, List.length_append, length_bitsOf, length_bitsLsb, hcnt] at this
        omega
      refine ⟨block ++ bits, by rw [hstream', hstream, List.append_assoc], hcnt, fun n out hn => ?_⟩
      rw [List.length_append] at hn
      obtain ⟨n, rfl⟩ := Nat.exists_eq_succ_of_ne_zero (show n ≠ 0 by omega)
      rw [hreads bits hbytes n out, expandFrom_append, List.isEmpty_eq_false_iff.2 hafter]
      exact Option.bind_congr fun o _ => hinflate n o (by omega)

theorem exec_encode (toks : List Token) (s : State) :
    exec (.encode toks) s = runEncoder s (encodeRuns toks.length 0 toks) := rfl

/-- What ENCODE returns, when it returns bytes from an empty accumulator, decodes to what the tokens expand to. -/
theorem inflate_of_exec_encode {toks : List Token} {s t : State} {out : List Byte} (hready : s.ready) (hacc : s.acc = 0)
    (hcnt : s.cnt = 0) (hne : toks ≠ []) (h : exec (.encode toks) s = .next t) (hout : Returned [.bytes out] s t) :
    inflate out = expand toks := by
  rw [exec_encode] at h
  obtain ⟨hidle, hlive⟩ := hready
  obtain ⟨hrefused, -⟩ | ⟨-, w, hbody, rfl⟩ | ⟨-, r, -, rfl⟩ := runEncoder_cases h
  · simp [hidle, hlive] at hrefused
  · have hclean : s.carryClean := by rw [State.carryClean, hacc, hcnt]; decide
    obtain ⟨bits, hstream, hw, hinflate⟩ := encodeRuns_inflate _ (clean_writer hclean []) hne le_rfl hbody
    obtain rfl : w.out = out := by simpa [Returned] using hout
    have hbits : bitsOf w.out = bits := by
      simpa [stream, hw, hcnt, bitsLsb, bitsOf] using hstream
    rw [inflate, hbits]
    exact hinflate _ [] (Nat.le_succ _)
  · simp [Returned] at hout

/-! ## The statement -/

/-- Settles O43: TOKENIZE leaves the accumulator empty and its tokens expand to the input, which is what the bytes of
ENCODE decode to. -/
theorem tokenizeEncodeRoundTrip : Obligations.TokenizeEncodeRoundTrip := by
  intro input window lookahead minMatch s t u toks out hready hacc hcnt hne hw hla hm3 hm htok htoks _ henc hout
  obtain ⟨toks', rfl, hexpand, -⟩ :=
    tokenizeReconstructsTheInput input window lookahead minMatch s t hready hw hla hm3 hm htok
  obtain rfl : toks' = toks := by simpa [Returned] using htoks
  have htoksNe : toks' ≠ [] := by
    rintro rfl
    exact hne (Option.some.inj hexpand).symm
  rw [inflate_of_exec_encode (s := respond (.tokens toks') s) hready hacc hcnt htoksNe henc hout, hexpand]

end Sys2Proof.Proofs
end

section
/-! PROOFS. What ENC_STORED and ENC_STATIC return and leave (42_static_huffman_encoder.md R151 to R153). Both append
bits to the stream, and a clean accumulator with the bytes emitted is determined by the bits put so far. -/

namespace Sys2Proof.Proofs

open Sys2Proof.Machine Sys2Proof.Laws

/-! ## The bits put so far determine the BitWriter -/

theorem bitsLsb_inj {n v u : Nat} (hv : v < 2 ^ n) (hu : u < 2 ^ n) (h : bitsLsb n v = bitsLsb n u) : v = u := by
  have hreadv : readLsb n (bitsLsb n v ++ []) = some (v, []) := (readLsb_eq_some_iff n).2 ⟨hv, rfl⟩
  have hreadu : readLsb n (bitsLsb n u ++ []) = some (u, []) := (readLsb_eq_some_iff n).2 ⟨hu, rfl⟩
  rw [h, hreadu] at hreadv
  cases hreadv
  rfl

theorem bitsOf_inj {a b : List Byte} (h : bitsOf a = bitsOf b) : a = b := by
  have hlen : a.length = b.length := by simpa using congrArg List.length h
  have hread := readBytes_bitsOf a []
  rw [h, hlen, readBytes_bitsOf] at hread
  cases hread
  rfl

theorem length_stream (w : BitWriter) : (stream w).length = 8 * w.out.length + w.cnt := by simp [stream]

/-- Two clean BitWriters that have put the same bits hold the same, whatever the widths of their registers. -/
theorem fields_of_stream_eq {w w' : BitWriter} (hw : Clean w) (hw' : Clean w') (h : stream w = stream w') :
    w.acc = w'.acc ∧ w.cnt = w'.cnt ∧ w.out = w'.out := by
  have hlen := congrArg List.length h
  rw [length_stream, length_stream] at hlen
  have hcnt : w.cnt = w'.cnt := by have := hw.few; have := hw'.few; omega
  obtain ⟨hout, hacc⟩ := List.append_inj h (by rw [length_bitsOf, length_bitsOf]; omega)
  rw [hcnt] at hacc
  exact ⟨bitsLsb_inj (hcnt ▸ hw.clean) hw'.clean hacc, hcnt, bitsOf_inj hout⟩

/-! ## Bodies that append bits -/

/-- From w to w' the bits were put, in the same register. -/
structure Emitted (w : BitWriter) (bits : List Bool) (w' : BitWriter) : Prop where
  clean  : Clean w'
  width  : w'.width = w.width
  stream : stream w' = stream w ++ bits

/-- The body of an encoder command completes from every clean accumulator; the bits it puts depend on nothing but how
many were pending. -/
def Emits (body : BitWriter → Except Raise BitWriter) (bits : Nat → List Bool) : Prop :=
  ∀ w, Clean w → ∃ w', body w = .ok w' ∧ Emitted w (bits w.cnt) w'

theorem emitted_of_puts {put : BitWriter → BitWriter} {bits : List Bool} (h : Puts put bits) {w : BitWriter}
    (hw : Clean w) : Emitted w bits (put w) :=
  ⟨h.clean w hw, h.width w hw, h.stream w hw⟩

/-- The bits pending after some were put: those that fill no byte. -/
theorem Emitted.cnt {w w' : BitWriter} {bits : List Bool} (h : Emitted w bits w') :
    w'.cnt = (w.cnt + bits.length) % 8 := by
  have hlen := congrArg List.length h.stream
  rw [List.length_append, length_stream, length_stream] at hlen
  have := h.clean.few
  omega

theorem padding_mod (n : Nat) : padding (n % 8) = padding n := by rw [padding, padding, Nat.mod_mod]

/-- ALIGN puts the padding of the bits that are pending. -/
theorem Emitted.align {w w' : BitWriter} {bits : List Bool} (h : Emitted w bits w') :
    Emitted w (bits ++ padding (w.cnt + bits.length)) w'.align := by
  obtain ⟨hstream, hclean, -, -, hwidth, -⟩ := align_spec h.clean
  refine ⟨hclean, hwidth.trans h.width, ?_⟩
  rw [hstream, h.stream, h.cnt, padding_mod, List.append_assoc]

/-- An encoder command whose body appends bits completes with the bytes they fill. -/
theorem runEncoder_emits {s : State} (hready : s.ready) (hclean : s.carryClean)
    {body : BitWriter → Except Raise BitWriter} {bits : Nat → List Bool} (h : Emits body bits) :
    ∃ w, body (s.writer []) = .ok w ∧ Emitted (s.writer []) (bits s.cnt.toNat) w ∧
      runEncoder s body = .next (respond (.bytes w.out) (s.storeAcc w)) := by
  obtain ⟨w, hok, hemitted⟩ := h _ (clean_writer hclean [])
  exact ⟨w, hok, hemitted, runEncoder_ok hready hok⟩

/-- CNT holds a number of pending bits as it is. -/
theorem toNat_ofNat_cnt {w : BitWriter} (hw : Clean w) : (BitVec.ofNat 3 w.cnt).toNat = w.cnt :=
  toNat_ofNat_of_lt hw.few

/-! ## ENC_STORED -/

theorem exec_encStored (lits : List Byte) (isLast : Bool) (s : State) :
    exec (.encStored lits isLast) s = runEncoder s (storedBlock lits isLast) := rfl

theorem storedBlock_error {lits : List Byte} (h : 65535 < lits.length) (isLast : Bool) (w : BitWriter) :
    storedBlock lits isLast w = .error ⟨.formatLimit, infoNat lits.length⟩ :=
  if_pos h

theorem storedBlock_ok {lits : List Byte} (h : lits.length ≤ 65535) (isLast : Bool) (w : BitWriter) :
    storedBlock lits isLast w = .ok ((w.putHeader isLast 0).align.append
      (le16 (BitVec.ofNat 16 lits.length) ++ le16 (~~~BitVec.ofNat 16 lits.length) ++ lits)) :=
  if_neg (Nat.not_lt.2 h)

/-- The bits of a stored block that starts after c bits of a byte (30_encoding.md R85). -/
def storedBits (lits : List Byte) (isLast : Bool) (c : Nat) : List Bool :=
  bitsLsb 3 (isLast.toNat + 2 * 0) ++ padding (c + 3) ++
    bitsOf (le16 (BitVec.ofNat 16 lits.length) ++ le16 (~~~BitVec.ofNat 16 lits.length) ++ lits)

theorem emits_storedBlock {lits : List Byte} (h : lits.length ≤ 65535) (isLast : Bool) :
    Emits (storedBlock lits isLast) (storedBits lits isLast) := by
  intro w hw
  have halign := (emitted_of_puts (puts_putHeader isLast (btype := 0) (by decide)) hw).align
  obtain ⟨-, -, hcnt, -⟩ := align_spec ((puts_putHeader isLast (btype := 0) (by decide)).clean w hw)
  refine ⟨_, storedBlock_ok h isLast w, clean_append halign.clean _, halign.width, ?_⟩
  rw [stream_append hcnt, halign.stream, length_bitsLsb, storedBits, List.append_assoc]

/-- A header of a stored block and the padding after it: the last-flag stands above the pending bits in the first byte,
and when they were 6 or 7, BTYPE's zeros reach into a second. -/
theorem putHeader_align {w : BitWriter} (hw : Clean w) (isLast : Bool) : (w.putHeader isLast 0).align =
    ⟨w.width, 0, 0, w.out ++ BitVec.ofNat 8 (w.acc + isLast.toNat * 2 ^ w.cnt) ::
      (if w.cnt ≤ 5 then [] else [0x00#8])⟩ := by
  have hput := putsField_putHeader isLast (btype := 0) (by decide)
  have hfield : w.acc ||| isLast.toNat <<< w.cnt = w.acc + isLast.toNat * 2 ^ w.cnt := by
    rw [Nat.shiftLeft_eq, Nat.lor_comm, Nat.mul_comm, ← Nat.two_pow_add_eq_or_of_lt hw.clean, Nat.add_comm]
  have hbyte : (w.acc + isLast.toNat * 2 ^ w.cnt) >>> 8 = 0 := by
    have hlt : w.acc + isLast.toNat * 2 ^ w.cnt < 2 ^ (w.cnt + 1) :=
      hfield ▸ or_shift_lt hw.clean (Bool.toNat_lt isLast)
    rw [Nat.shiftRight_eq_div_pow]
    exact Nat.div_eq_of_lt (hlt.trans_le (Nat.pow_le_pow_right (by decide) hw.few))
  rw [align_eq ((puts_putHeader isLast (btype := 0) (by decide)).clean w hw), hput.run (fits_of_clean hw),
    flushBytes_eq]
  simp only [enter, Nat.mul_zero, Nat.add_zero, hfield]
  have hfew := hw.few
  obtain hc | hc | hc : w.cnt ≤ 4 ∨ w.cnt = 5 ∨ 6 ≤ w.cnt := by omega
  · rw [show (w.cnt + 3) / 8 = 0 by omega, if_neg (by omega), if_pos (by omega)]
    simp
  · rw [hc]
    simp
  · rw [show (w.cnt + 3) / 8 = 1 by omega, if_neg (by omega), if_neg (by omega)]
    simp [List.range_succ, hbyte]

/-- LE16 in the arithmetic of its value (40_bytecodec_bitwriter.md R120). -/
theorem le16_eq (v : U16) : le16 v = [BitVec.ofNat 8 (v.toNat % 256), BitVec.ofNat 8 (v.toNat / 256)] := by
  have hlow : v.extractLsb' 0 8 = BitVec.ofNat 8 (v.toNat % 256) := by
    apply BitVec.eq_of_toNat_eq
    simp
  have hhigh : v.extractLsb' 8 8 = BitVec.ofNat 8 (v.toNat / 256) := by
    apply BitVec.eq_of_toNat_eq
    simp [Nat.shiftRight_eq_div_pow]
  rw [le16, hlow, hhigh]

/-- Settles O36: the header and its padding are one or two bytes, after which LEN, NLEN and the data stand on a byte
boundary. -/
theorem encStoredEmitsTheBlock : Obligations.EncStoredEmitsTheBlock := by
  intro lits isLast s hready
  rw [exec_encStored]
  refine ⟨fun hlong => ?_, fun hclean hlits => ?_⟩
  · exact ⟨_, runEncoder_error hready (storedBlock_error hlong isLast _), faultEntry_raise ⟨.formatLimit, _⟩ s⟩
  · have hlen : (BitVec.ofNat 16 lits.length).toNat = lits.length := toNat_ofNat_of_lt (by omega)
    rw [runEncoder_ok hready (storedBlock_ok hlits isLast _), putHeader_align (clean_writer hclean []), le16_eq,
      le16_eq, BitVec.toNat_not, hlen]
    simp only [BitWriter.append, writer_out, List.nil_append, List.append_assoc]
    rfl

/-! ## ENC_STATIC -/

theorem exec_encStatic (toks : List Token) (isLast : Bool) (s : State) :
    exec (.encStatic toks isLast) s = runEncoder s (staticBlock 0 toks isLast) := rfl

theorem staticBlock_ok {toks : List Token} (h : ∀ t ∈ toks, legalToken t) (first : Nat) (isLast : Bool)
    (w : BitWriter) : staticBlock first toks isLast w = .ok (w.putStaticBlock toks isLast) := by
  rw [staticBlock, (checkTokens_none toks first).2 h]

theorem staticBlock_error {before after : List Token} {tok : Token} (hb : ∀ t ∈ before, legalToken t)
    (ht : ¬ legalToken tok) (first : Nat) (isLast : Bool) (w : BitWriter) :
    staticBlock first (before ++ tok :: after) isLast w =
      .error ⟨if Token.isLit tok then .literalInStatic else .tokenRange, infoNat (first + before.length)⟩ := by
  rw [staticBlock, checkTokens_offender hb ht]

/-- The element that spells a legal length is requested by its row and extra value (30_encoding.md R95). -/
theorem encode_lengthElement {v : Nat} (h3 : 3 ≤ v) (h258 : v ≤ 258) : encode (lengthElement v) =
    lengthRequest (rowFor lenTable v) (v - (tableRow lenTable (rowFor lenTable v)).base) := by
  obtain ⟨hspelled, -⟩ := lengthElement_spec h3 h258
  rw [lengthElement] at hspelled ⊢
  split at hspelled
  next hi => exact (lengthInstr_ok hi (rowFor_lenTable h3 h258).2).1
  next => cases hspelled

/-- A distance likewise (30_encoding.md R97). -/
theorem encode_distanceElement {v : Nat} (h1 : 1 ≤ v) (hmax : v ≤ 32768) : encode (distanceElement v) =
    distanceRequest (rowFor distTable v) (v - (tableRow distTable (rowFor distTable v)).base) := by
  obtain ⟨hspelled, -⟩ := distanceElement_spec h1 hmax
  rw [distanceElement] at hspelled ⊢
  split at hspelled
  next hi => exact (distanceInstr_ok hi (rowFor_distTable h1 hmax).2).1
  next => cases hspelled

theorem flatMap_elementBits_tokenElements {t : Token} (ht : legalToken t) :
    (tokenElements t).flatMap elementBits = tokenBits t := by
  cases t with
  | lit b => exact ht.elim
  | rep d l =>
    obtain ⟨hl3, hl258, hd1, hdmax⟩ := ht
    simp only [tokenElements, List.flatMap_cons, List.flatMap_nil, List.append_nil, elementBits,
      encode_lengthElement hl3 hl258, encode_distanceElement hd1 hdmax]
    rfl

/-- The elements of a static block hold the bits that its header, its tokens and the end-of-block code put. -/
theorem blockBits_eq {toks : List Token} (h : ∀ t ∈ toks, legalToken t) (isLast : Bool) : blockBits toks isLast =
    bitsLsb 3 (isLast.toNat + 2 * 1) ++ toks.flatMap tokenBits ++ List.replicate 7 false := by
  have hheader : elementBits (if isLast then .hdrStaticLast else .hdrStaticNotlast) =
      bitsLsb 3 (isLast.toNat + 2 * 1) := by cases isLast <;> rfl
  have htoks : (toks.flatMap tokenElements).flatMap elementBits = toks.flatMap tokenBits := by
    rw [List.flatMap_assoc]
    exact List.flatMap_congr fun t ht => flatMap_elementBits_tokenElements (h t ht)
  rw [blockBits, blockElements, List.flatMap_cons, List.flatMap_append, hheader, htoks, List.append_assoc]
  rfl

/-- The bits of a static block that starts after c bits of a byte, its padding included (30_encoding.md R86, R153). -/
def staticBits (toks : List Token) (isLast : Bool) (c : Nat) : List Bool :=
  blockBits toks isLast ++ if isLast then padding (c + (blockBits toks isLast).length) else []

theorem putStaticBlock_emitted {toks : List Token} (h : ∀ t ∈ toks, legalToken t) (isLast : Bool) {w : BitWriter}
    (hw : Clean w) : Emitted w (staticBits toks isLast w.cnt) (w.putStaticBlock toks isLast) := by
  have hbody := emitted_of_puts (puts_staticBody isLast h) hw
  rw [← blockBits_eq h isLast] at hbody
  cases isLast with
  | false => rw [staticBits, if_neg Bool.false_ne_true, List.append_nil]; exact hbody
  | true => exact hbody.align

theorem emits_staticBlock {toks : List Token} (h : ∀ t ∈ toks, legalToken t) (first : Nat) (isLast : Bool) :
    Emits (staticBlock first toks isLast) (staticBits toks isLast) :=
  fun w hw => ⟨_, staticBlock_ok h first isLast w, putStaticBlock_emitted h isLast hw⟩

/-- The end-of-block code's seven zeros are all that can be pending after it. -/
theorem putEob_acc {w : BitWriter} (hw : Clean w) : w.putEob.acc = 0 := by
  have hcode : w.putEob = w.putBits 0 7 := rfl
  obtain ⟨-, -, -, -, hacc, -⟩ := putBits_spec hw (v := 0) (n := 7) (by decide) (by decide)
  rw [hcode, hacc, Nat.zero_shiftLeft, Nat.or_zero, Nat.shiftRight_eq_div_pow]
  refine Nat.div_eq_of_lt (hw.clean.trans_le (Nat.pow_le_pow_right (by decide) ?_))
  have := hw.few
  omega

/-- A static block leaves ACC 0 (R153). -/
theorem putStaticBlock_acc {toks : List Token} (h : ∀ t ∈ toks, legalToken t) (isLast : Bool) {w : BitWriter}
    (hw : Clean w) : (w.putStaticBlock toks isLast).acc = 0 := by
  cases isLast with
  | false =>
    have htoks := (puts_putHeader false (btype := 1) (by decide)).comp
      (puts_foldl toks fun t ht => puts_putToken (h t ht))
    exact putEob_acc (htoks.clean w hw)
  | true =>
    obtain ⟨-, -, -, hacc, -⟩ := align_spec ((puts_staticBody true h).clean w hw)
    exact hacc

/-- Settles O37: the block's bits follow the pending ones, so their number says how many bytes are filled and how many
bits are left. -/
theorem encStaticEmitsTheBlock : Obligations.EncStaticEmitsTheBlock := by
  intro toks isLast s hready hclean h
  obtain ⟨w, hok, hemitted, hrun⟩ := runEncoder_emits hready hclean (emits_staticBlock h 0 isLast)
  have hacc : w.acc = 0 := by
    rw [staticBlock_ok h] at hok
    cases hok
    exact putStaticBlock_acc h isLast (clean_writer hclean [])
  have hcnt : BitVec.ofNat 3 w.cnt =
      BitVec.ofNat 3 (if isLast then 0 else s.cnt.toNat + (blockBits toks isLast).length) := by
    apply BitVec.eq_of_toNat_eq
    rw [toNat_ofNat_cnt hemitted.clean, hemitted.cnt, staticBits, writer_cnt, BitVec.toNat_ofNat, List.length_append]
    cases isLast with
    | false => simp
    | true => simp only [if_true, padding, List.length_replicate]; omega
  have hstream : bitsOf w.out ++ bitsLsb w.cnt w.acc = s.carryBits ++ staticBits toks isLast s.cnt.toNat :=
    hemitted.stream
  refine ⟨w.out, _, (exec_encStatic ..).trans hrun, ?_, ?_, ?_⟩
  · rw [← hcnt, ← hacc]
    rfl
  · rw [State.carryBits, respond_cnt, storeAcc_cnt, toNat_ofNat_cnt hemitted.clean, List.append_assoc]
    exact hstream
  · have hlen := congrArg List.length hstream
    have hfew := hemitted.clean.few
    simp only [List.length_append, length_bitsOf, length_bitsLsb, State.carryBits, staticBits] at hlen
    cases isLast with
    | false => simp only [Bool.false_eq_true, if_false, List.length_nil, Nat.add_zero] at hlen ⊢; omega
    | true => simp only [if_true, padding, List.length_replicate] at hlen ⊢; omega

/-- Settles O39: the token check stops at the first offender. -/
theorem encStaticRefusesTokens : Obligations.EncStaticRefusesTokens := by
  intro before after tok isLast s hready hb ht
  refine ⟨_, runEncoder_error hready (staticBlock_error hb ht 0 isLast _), ?_⟩
  rw [Nat.zero_add]
  cases tok with
  | lit b => exact faultEntry_raise ⟨.literalInStatic, _⟩ s
  | rep d l => exact faultEntry_raise ⟨.tokenRange, _⟩ s

end Sys2Proof.Proofs
end

section
/-! PROOFS. A static block is its elements run one by one (42_static_huffman_encoder.md R152, R153): they put the same
bits (log 1 for running them alone). -/

namespace Sys2Proof.Proofs

open Sys2Proof.Machine Sys2Proof.Laws

theorem Emitted.trans {w w₁ w₂ : BitWriter} {a b : List Bool} (h : Emitted w a w₁) (h' : Emitted w₁ b w₂) :
    Emitted w (a ++ b) w₂ :=
  ⟨h'.clean, h'.width.trans h.width, by rw [h'.stream, h.stream, List.append_assoc]⟩

/-- The next command starts from what a clean BitWriter of the register's width has left. -/
theorem writer_storeAcc {s : State} {w : BitWriter} (hw : Clean w) (hwidth : w.width = s.params.accW)
    (out : List Byte) : (s.storeAcc w).writer out = { w with out := out } := by
  rw [State.writer, storeAcc_params, storeAcc_acc, storeAcc_cnt, toNat_ofNat_cnt hw, ← hwidth]

/-- Out of the faulted state an element puts its bits and the state stays out of it. -/
theorem exec_element {i : Instr} (hi : isElement i = true) {s : State} (hf : s.faulted = false)
    (hclean : s.carryClean) :
    ∃ t, exec i s = .next t ∧ t.faulted = false ∧ Emitted (s.writer s.out) (elementBits i) (t.writer t.out) := by
  cases runsAs s i with
  | element _ put puts run =>
    have hemitted := emitted_of_puts puts (clean_writer hclean s.out)
    refine ⟨_, run.trans (runElement_live hf put), hf, ?_⟩
    exact (writer_storeAcc hemitted.clean hemitted.width _).symm ▸ hemitted
  | reset hreset => subst hreset; cases hi
  | search data offsets hsearch => subst hsearch; cases hi
  | value hvalue =>
    obtain hvalue | rfl := hvalue
    · cases hvalue <;> cases hi
    · cases hi
  | encoder hencoder => cases hencoder <;> cases hi

/-- Elements run one after the other put their bits one after the other. -/
theorem runElements_emitted : ∀ {is : List Instr}, (∀ i ∈ is, isElement i = true) →
    ∀ {s : State}, s.faulted = false → s.carryClean →
    ∃ u, runElements is s = some u ∧ Emitted (s.writer s.out) (is.flatMap elementBits) (u.writer u.out)
  | [], _, s, _, hclean => ⟨s, rfl, clean_writer hclean s.out, rfl, (List.append_nil _).symm⟩
  | i :: is, h, s, hf, hclean => by
    obtain ⟨t, hexec, hft, hfirst⟩ := exec_element (h i List.mem_cons_self) hf hclean
    obtain ⟨u, hrun, hrest⟩ := runElements_emitted (fun j hj => h j (List.mem_cons_of_mem i hj)) hft hfirst.clean.clean
    exact ⟨u, by rw [runElements, hexec]; exact hrun, hfirst.trans hrest⟩

theorem isElement_of_blockElements {toks : List Token} (h : ∀ t ∈ toks, legalToken t) (isLast : Bool) :
    ∀ i ∈ blockElements toks isLast, isElement i = true := by
  intro i hi
  simp only [blockElements, List.mem_cons, List.mem_append, List.mem_flatMap, List.not_mem_nil, or_false] at hi
  obtain rfl | ⟨t, ht, hi⟩ | rfl := hi
  · cases isLast <;> rfl
  · cases t with
    | lit b => exact (h _ ht).elim
    | rep d l =>
      obtain ⟨hl3, hl258, hd1, hdmax⟩ := h _ ht
      simp only [tokenElements, List.mem_cons, List.not_mem_nil, or_false] at hi
      obtain rfl | rfl := hi
      · rw [isElement, encode_lengthElement hl3 hl258]; rfl
      · rw [isElement, encode_distanceElement hd1 hdmax]; rfl
  · rfl

/-- Settles O38: the block and the run of its elements put the same bits, and these determine ACC, CNT and the bytes. -/
theorem encStaticIsItsElements : Obligations.EncStaticIsItsElements := by
  intro toks s hready hclean hout h
  obtain ⟨w, -, hblock, hrun⟩ := runEncoder_emits hready hclean (emits_staticBlock h 0 false)
  obtain ⟨u, hu, helements⟩ := runElements_emitted (isElement_of_blockElements h false) hready.2 hclean
  have hstream : stream w = stream (u.writer u.out) := by
    rw [hblock.stream, helements.stream, hout, staticBits, if_neg Bool.false_ne_true, List.append_nil, blockBits]
  obtain ⟨hacc, hcnt, hbytes⟩ := fields_of_stream_eq hblock.clean helements.clean hstream
  refine ⟨u, hu, (exec_encStatic ..).trans (hrun.trans ?_)⟩
  rw [respond, State.storeAcc, hacc, hcnt, hbytes, writer_cnt, BitVec.ofNat_toNat, BitVec.setWidth_eq]
  rfl

end Sys2Proof.Proofs
end

section
/-! PROOFS. ENCODE (42_static_huffman_encoder.md R156): one block for each maximal run of Literals or of Repeats. Proofs
about it go by these runs. -/

namespace Sys2Proof.Proofs

open Sys2Proof.Machine Sys2Proof.Laws

/-! ## Maximal runs -/

/-- The tokens `run ++ rest` begin with the maximal run `run`, of Literals or of Repeats. -/
structure FirstRun (literals : Bool) (run rest : List Token) : Prop where
  nonempty : run ≠ []
  same     : ∀ t ∈ run, Token.isLit t = literals
  maximal  : ∀ u ∈ rest.head?, Token.isLit u ≠ literals

theorem exists_firstRun : ∀ (t : Token) (toks : List Token),
    ∃ run rest, t :: toks = run ++ rest ∧ FirstRun (Token.isLit t) run rest
  | t, [] => ⟨[t], [], rfl, by simp, by simp, by simp⟩
  | t, u :: toks => by
    obtain ⟨run, rest, heq, hrun⟩ := exists_firstRun u toks
    by_cases hkind : Token.isLit u = Token.isLit t
    · rw [hkind] at hrun
      exact ⟨t :: run, rest, by rw [heq, List.cons_append], by simp, by simpa using hrun.same, hrun.maximal⟩
    · exact ⟨[t], u :: toks, rfl, by simp, by simp, by simpa using hkind⟩

/-- What every token sequence has that the empty one has and that a maximal run hands on from the tokens after it. -/
theorem induction_on_runs {P : List Token → Prop} (nil : P [])
    (run : ∀ literals run rest, FirstRun literals run rest → P rest → P (run ++ rest)) (toks : List Token) :
    P toks := by
  induction hn : toks.length using Nat.strong_induction_on generalizing toks with
  | h n ih =>
    cases toks with
    | nil => exact nil
    | cons t toks =>
      obtain ⟨first, rest, heq, hfirst⟩ := exists_firstRun t toks
      rw [heq] at hn ⊢
      have hlen := List.length_pos_iff.2 hfirst.nonempty
      rw [List.length_append] at hn
      exact run _ first rest hfirst (ih rest.length (by omega) rest rfl)

/-- A maximal run stays one when tokens are added after it, unless they extend it. -/
theorem FirstRun.append {literals : Bool} {run rest after : List Token} (h : FirstRun literals run rest)
    (hafter : rest = [] → ∀ u ∈ after.head?, Token.isLit u ≠ literals) : FirstRun literals run (rest ++ after) where
  nonempty := h.nonempty
  same := h.same
  maximal := by
    cases rest with
    | nil => exact hafter rfl
    | cons u rest => exact h.maximal

theorem FirstRun.takeWhile {t : Token} {run rest : List Token} (h : FirstRun (Token.isLit t) run rest) :
    (run ++ rest).takeWhile (fun u => Token.isLit u == Token.isLit t) = run ∧
      (run ++ rest).dropWhile (fun u => Token.isLit u == Token.isLit t) = rest := by
  have hsame : ∀ u ∈ run, (Token.isLit u == Token.isLit t) = true := fun u hu => beq_iff_eq.2 (h.same u hu)
  rw [List.takeWhile_append_of_pos hsame, List.dropWhile_append_of_pos hsame]
  cases rest with
  | nil => simp
  | cons u rest =>
    simp [h.maximal u rfl]

/-- The block of a run whose first token has index `first` in the command's operand. -/
def runBlock (literals : Bool) (first : Nat) (run : List Token) (isLast : Bool) (w : BitWriter) :
    Except Raise BitWriter :=
  if literals then storedBlock (run.map Token.byteOf) isLast w else staticBlock first run isLast w

/-- One turn of the dispatch loop. -/
theorem encodeRuns_firstRun {literals : Bool} {run rest : List Token} (h : FirstRun literals run rest)
    (fuel first : Nat) (w : BitWriter) : encodeRuns (fuel + 1) first (run ++ rest) w =
      (runBlock literals first run rest.isEmpty w).bind (encodeRuns fuel (first + run.length) rest) := by
  obtain ⟨t, run', rfl⟩ := List.exists_cons_of_ne_nil h.nonempty
  obtain rfl : Token.isLit t = literals := h.same t List.mem_cons_self
  obtain ⟨htake, hdrop⟩ := h.takeWhile
  rw [List.cons_append] at htake hdrop ⊢
  simp only [encodeRuns, htake, hdrop]
  rw [runBlock]
  split
  next hblock => rw [hblock]; rfl
  next hblock => rw [hblock]; rfl

/-! ## Encodable runs -/

theorem encodable_left {a b : List Token} (h : Encodable (a ++ b)) : Encodable a := by
  obtain ⟨hrange, hshort⟩ := h
  refine ⟨fun d l hmem => hrange d l (List.mem_append_left b hmem), fun before run after heq => ?_⟩
  exact hshort before run (after ++ b) (by rw [heq, List.append_assoc])

theorem encodable_right {a b : List Token} (h : Encodable (a ++ b)) : Encodable b := by
  obtain ⟨hrange, hshort⟩ := h
  refine ⟨fun d l hmem => hrange d l (List.mem_append_right a hmem), fun before run after heq => ?_⟩
  exact hshort (a ++ before) run after (by rw [heq]; simp only [List.append_assoc])

theorem legalToken_of_encodable {toks : List Token} (h : Encodable toks) (hrep : ∀ t ∈ toks, Token.isLit t = false) :
    ∀ t ∈ toks, legalToken t := by
  intro t ht
  cases t with
  | lit b => exact absurd (hrep _ ht).symm Bool.false_ne_true
  | rep d l => exact h.1 d l ht

theorem length_le_of_encodable {run : List Token} (h : Encodable run) (hlit : ∀ t ∈ run, Token.isLit t = true) :
    (run.map Token.byteOf).length ≤ 65535 :=
  h.2 [] (run.map Token.byteOf) [] (by rw [map_lit_byteOf hlit, List.nil_append, List.append_nil])

/-- The block of an encodable run puts the same bits wherever the run stands in the operand. -/
theorem emits_runBlock {literals : Bool} {run : List Token} (hsame : ∀ t ∈ run, Token.isLit t = literals)
    (h : Encodable run) (isLast : Bool) : ∃ bits, ∀ first, Emits (runBlock literals first run isLast) bits := by
  cases literals with
  | false => exact ⟨_, fun first => emits_staticBlock (legalToken_of_encodable h hsame) first isLast⟩
  | true => exact ⟨_, fun _ => emits_storedBlock (length_le_of_encodable h hsame) isLast⟩

/-! ## Bodies in sequence -/

theorem emits_ok : Emits .ok fun _ => [] :=
  fun w hw => ⟨w, rfl, hw, rfl, (List.append_nil _).symm⟩

theorem Emits.bind {f g : BitWriter → Except Raise BitWriter} {a b : Nat → List Bool} (hf : Emits f a)
    (hg : Emits g b) : Emits (fun w => (f w).bind g) fun c => a c ++ b ((c + (a c).length) % 8) := by
  intro w hw
  obtain ⟨w₁, hok₁, hfirst⟩ := hf w hw
  obtain ⟨w₂, hok₂, hsecond⟩ := hg w₁ hfirst.clean
  rw [hfirst.cnt] at hsecond
  exact ⟨w₂, (congrArg (Except.bind · g) hok₁).trans hok₂, hfirst.trans hsecond⟩

/-- The same bits put after the same carry fill the same bytes, whatever bytes were emitted before. -/
theorem emitted_prepend {w₁ w₂ v : BitWriter} {bits : List Bool} (h : Emitted w₁ bits w₂)
    (hv : Emitted { w₁ with out := [] } bits v) : w₂ = { v with out := w₁.out ++ v.out } := by
  have hcarry : bitsOf v.out ++ bitsLsb v.cnt v.acc = bitsLsb w₁.cnt w₁.acc ++ bits := hv.stream
  have hstream : stream w₂ = stream { v with out := w₁.out ++ v.out } := by
    rw [h.stream, stream, stream, bitsOf_append, List.append_assoc, List.append_assoc, hcarry]
  obtain ⟨hacc, hcnt, hout⟩ := fields_of_stream_eq (w' := { v with out := w₁.out ++ v.out }) h.clean
    ⟨hv.clean.wide, hv.clean.few, hv.clean.clean⟩ hstream
  calc w₂ = ⟨w₂.width, w₂.acc, w₂.cnt, w₂.out⟩ := rfl
    _ = _ := by rw [h.width, ← show v.width = w₁.width from hv.width, hacc, hcnt, hout]

/-- The blocks of encodable tokens put the same bits wherever the tokens stand in the operand, with a turn of the loop
for each token. -/
theorem emits_encodeRuns (toks : List Token) (h : Encodable toks) :
    ∃ bits, ∀ fuel first, toks.length ≤ fuel → Emits (encodeRuns fuel first toks) bits := by
  induction toks using induction_on_runs with
  | nil => exact ⟨_, fun fuel first _ => by rw [funext (encodeRuns_nil fuel first)]; exact emits_ok⟩
  | run literals run rest hrun ih =>
    obtain ⟨a, ha⟩ := emits_runBlock hrun.same (encodable_left h) rest.isEmpty
    obtain ⟨b, hb⟩ := ih (encodable_right h)
    refine ⟨fun c => a c ++ b ((c + (a c).length) % 8), fun fuel first hfuel => ?_⟩
    have hlen := List.length_pos_iff.2 hrun.nonempty
    rw [List.length_append] at hfuel
    obtain ⟨fuel, rfl⟩ := Nat.exists_eq_succ_of_ne_zero (show fuel ≠ 0 by omega)
    rw [funext (encodeRuns_firstRun hrun fuel first)]
    exact (ha first).bind (hb fuel _ (by omega))

/-! ## What ENCODE returns -/

theorem storeAcc_writer (s : State) (out : List Byte) : s.storeAcc (s.writer out) = s := by
  rw [State.storeAcc, writer_acc, writer_cnt, BitVec.ofNat_toNat, BitVec.setWidth_eq]

/-- Settles O40: every block of encodable tokens completes, and the final one ends on a byte boundary. -/
theorem encodeCompletes : Obligations.EncodeCompletes := by
  intro toks s hready hclean h
  rw [exec_encode]
  refine ⟨?_, fun hne => ?_⟩
  · rintro rfl
    rw [runEncoder_ok hready (encodeRuns_nil _ _ _), storeAcc_writer]
    rfl
  · obtain ⟨bits, hbits⟩ := emits_encodeRuns toks h
    obtain ⟨w, hok, hemitted, hrun⟩ := runEncoder_emits hready hclean (hbits toks.length 0 le_rfl)
    obtain ⟨-, -, hcnt, -⟩ := encodeRuns_inflate _ (clean_writer hclean []) hne le_rfl hok
    have hacc : w.acc = 0 := by
      have hlt := hemitted.clean.clean
      rw [hcnt] at hlt
      exact Nat.lt_one_iff.1 hlt
    refine ⟨w.out, hrun.trans ?_⟩
    rw [State.storeAcc, hacc, hcnt]
    rfl

/-- The command that puts a run's block alone. -/
theorem exec_runBlock (literals : Bool) (run : List Token) (isLast : Bool) (s : State) :
    exec (if literals then .encStored (run.map Token.byteOf) isLast else .encStatic run isLast) s =
      runEncoder s (runBlock literals 0 run isLast) := by
  cases literals <;> rfl

/-- Tokens of one kind are of the kind that asking all of them gives. -/
theorem isLit_eq_all {run : List Token} (h : ∀ t ∈ run, ∀ u ∈ run, Token.isLit t = Token.isLit u) :
    ∀ t ∈ run, Token.isLit t = run.all Token.isLit := by
  intro t ht
  rw [Bool.eq_iff_iff, List.all_eq_true]
  exact ⟨fun hlit u hu => (h u hu t ht).trans hlit, fun hall => hall t ht⟩

/-- Settles O41: the first block leaves the carry from which the rest puts the same bits, whether ENCODE goes on or is
issued again. -/
theorem encodeAlternatesBlocks : Obligations.EncodeAlternatesBlocks := by
  intro run rest s hready hclean h hne hsame hmax
  have hkind := isLit_eq_all hsame
  obtain ⟨t, ht⟩ := List.exists_mem_of_ne_nil run hne
  have hfirst : FirstRun (run.all Token.isLit) run rest :=
    ⟨hne, hkind, fun u hu heq => hmax t ht u hu ((hkind t ht).trans heq.symm)⟩
  obtain ⟨a, ha⟩ := emits_runBlock hkind (encodable_left h) rest.isEmpty
  obtain ⟨b, hb⟩ := emits_encodeRuns rest (encodable_right h)
  obtain ⟨w₁, hok₁, hblock, hrun₁⟩ := runEncoder_emits hready hclean (ha 0)
  have hcnt₁ := toNat_ofNat_cnt hblock.clean
  have hclean₁ : (respond (.bytes w₁.out) (s.storeAcc w₁)).carryClean := by
    rw [State.carryClean, respond_cnt, storeAcc_cnt, hcnt₁]
    exact hblock.clean.clean
  have hcarry : (respond (.bytes w₁.out) (s.storeAcc w₁)).writer [] = { w₁ with out := [] } :=
    writer_storeAcc hblock.clean hblock.width []
  obtain ⟨v, -, hrest, hrun₂⟩ := runEncoder_emits (s := respond (.bytes w₁.out) (s.storeAcc w₁)) hready hclean₁
    (hb rest.length 0 le_rfl)
  rw [hcarry, respond_cnt, storeAcc_cnt, hcnt₁] at hrest
  obtain ⟨fuel, hfuel⟩ := Nat.exists_eq_succ_of_ne_zero (show (run ++ rest).length ≠ 0 by simp [hne])
  obtain ⟨w₂, hok₂, hwhole⟩ := hb fuel (0 + run.length)
    (by have := List.length_pos_iff.2 hne; rw [List.length_append] at hfuel; omega) w₁ hblock.clean
  have hok : encodeRuns (run ++ rest).length 0 (run ++ rest) (s.writer []) = .ok w₂ := by
    rw [hfuel, encodeRuns_firstRun hfirst, hok₁]
    exact hok₂
  refine ⟨w₁.out, v.out, _, _, (exec_runBlock ..).trans hrun₁, rfl, (exec_encode ..).trans hrun₂, rfl, ?_⟩
  rw [exec_encode, runEncoder_ok hready hok, emitted_prepend hwhole hrest]
  rfl

/-- Settles O42: encodable or not, what ENCODE returns from an empty accumulator is read back. -/
theorem encodedStreamInflates : Obligations.EncodedStreamInflates :=
  fun _ _ _ _ hready hacc hcnt _ hne h hout => inflate_of_exec_encode hready hacc hcnt hne h hout

/-! ## What ENCODE refuses -/

/-- The turn of an encodable run passes the tokens after it on, from a clean accumulator or not. -/
theorem encodeRuns_skip {literals : Bool} {run rest : List Token} (hrun : FirstRun literals run rest)
    (h : Encodable run) (fuel first : Nat) (w : BitWriter) :
    ∃ w₁, encodeRuns (fuel + 1) first (run ++ rest) w = encodeRuns fuel (first + run.length) rest w₁ := by
  rw [encodeRuns_firstRun hrun]
  cases literals with
  | false => exact ⟨_, congrArg (Except.bind · _) (staticBlock_ok (legalToken_of_encodable h hrun.same) ..)⟩
  | true => exact ⟨_, congrArg (Except.bind · _) (storedBlock_ok (length_le_of_encodable h hrun.same) ..)⟩

/-- A Repeat out of range ends the run of Repeats it stands in. -/
theorem encodeRuns_illegal_repeat {run : List Token} (hrun : ∀ t ∈ run, legalToken t) {d l : U32}
    (hbad : ¬ legalToken (.rep d l)) (after : List Token) (fuel first : Nat) (w : BitWriter) :
    encodeRuns (fuel + 1) first (run ++ .rep d l :: after) w = .error ⟨.tokenRange, infoNat (first + run.length)⟩ := by
  obtain ⟨bad, rest, heq, hfirst⟩ := exists_firstRun (.rep d l) after
  obtain ⟨t, bad, rfl⟩ := List.exists_cons_of_ne_nil hfirst.nonempty
  obtain ⟨rfl, -⟩ := List.cons.inj heq
  have hwhole : FirstRun false (run ++ .rep d l :: bad) rest := by
    refine ⟨List.append_ne_nil_of_right_ne_nil _ hfirst.nonempty, fun t ht => ?_, hfirst.maximal⟩
    obtain ht | ht := List.mem_append.1 ht
    · cases t with
      | lit b => exact (hrun _ ht).elim
      | rep d l => rfl
    · exact hfirst.same t ht
  rw [heq, ← List.append_assoc, encodeRuns_firstRun hwhole]
  exact congrArg (Except.bind · _) (staticBlock_error hrun hbad ..)

theorem encodeRuns_error_range {before : List Token} (h : Encodable before) {d l : U32}
    (hbad : ¬ legalToken (.rep d l)) (after : List Token) : ∀ (fuel first : Nat) (w : BitWriter), before.length < fuel →
    encodeRuns fuel first (before ++ .rep d l :: after) w =
      .error ⟨.tokenRange, infoNat (first + before.length)⟩ := by
  induction before using induction_on_runs with
  | nil =>
    intro fuel first w hfuel
    obtain ⟨fuel, rfl⟩ := Nat.exists_eq_succ_of_ne_zero (Nat.ne_zero_of_lt hfuel)
    exact encodeRuns_illegal_repeat (run := []) (by simp) hbad after fuel first w
  | run literals run rest hrun ih =>
    intro fuel first w hfuel
    obtain ⟨fuel, rfl⟩ := Nat.exists_eq_succ_of_ne_zero (Nat.ne_zero_of_lt hfuel)
    by_cases hjoin : rest = [] ∧ literals = false
    · obtain ⟨rfl, rfl⟩ := hjoin
      rw [List.append_nil] at h ⊢
      exact encodeRuns_illegal_repeat (legalToken_of_encodable h hrun.same) hbad after fuel first w
    · have happend : FirstRun literals run (rest ++ .rep d l :: after) := by
        refine hrun.append fun hnil u hu heq => hjoin ⟨hnil, ?_⟩
        cases hu
        exact heq.symm
      have hlen := List.length_pos_iff.2 hrun.nonempty
      rw [List.length_append] at hfuel ⊢
      obtain ⟨w₁, hskip⟩ := encodeRuns_skip happend (encodable_left h) fuel first w
      rw [List.append_assoc, hskip, ih (encodable_right h) fuel _ w₁ (by omega), Nat.add_assoc]

theorem encodeRuns_error_long {before after : List Token} (h : Encodable before)
    (hbefore : ∀ u ∈ before.getLast?, Token.isLit u = false) {run : List Byte} (hlong : 65535 < run.length)
    (hafter : ∀ u ∈ after.head?, Token.isLit u = false) : ∀ (fuel first : Nat) (w : BitWriter), before.length < fuel →
    encodeRuns fuel first (before ++ (run.map Token.lit ++ after)) w = .error ⟨.formatLimit, infoNat run.length⟩ := by
  obtain ⟨b, run', hcons⟩ := List.exists_cons_of_ne_nil (show run ≠ [] by rintro rfl; simp at hlong)
  induction before using induction_on_runs with
  | nil =>
    intro fuel first w hfuel
    obtain ⟨fuel, rfl⟩ := Nat.exists_eq_succ_of_ne_zero (Nat.ne_zero_of_lt hfuel)
    have hfirst : FirstRun true (run.map Token.lit) after := by
      refine ⟨by simp [hcons], fun t ht => ?_, fun u hu => by simp [hafter u hu]⟩
      obtain ⟨b, -, rfl⟩ := List.mem_map.1 ht
      rfl
    have hbytes : (run.map Token.lit).map Token.byteOf = run := by
      rw [List.map_map]
      exact List.map_id run
    rw [List.nil_append, encodeRuns_firstRun hfirst, runBlock, if_pos rfl, hbytes, storedBlock_error hlong]
    rfl
  | run literals first rest hrun ih =>
    intro fuel index w hfuel
    obtain ⟨fuel, rfl⟩ := Nat.exists_eq_succ_of_ne_zero (Nat.ne_zero_of_lt hfuel)
    have happend : FirstRun literals first (rest ++ (run.map Token.lit ++ after)) := by
      refine hrun.append fun hnil u hu => ?_
      rw [hcons] at hu
      cases hu
      rw [hnil, List.append_nil] at hbefore
      have hlast := List.getLast?_eq_some_getLast hrun.nonempty
      rw [← hrun.same _ (List.getLast_mem hrun.nonempty), hbefore _ hlast]
      exact Bool.false_ne_true.symm
    have hrest : ∀ u ∈ rest.getLast?, Token.isLit u = false := by
      intro u hu
      refine hbefore u ?_
      rw [Option.mem_def] at hu ⊢
      rw [List.getLast?_append, hu, Option.some_or]
    have hlen := List.length_pos_iff.2 hrun.nonempty
    rw [List.length_append] at hfuel
    obtain ⟨w₁, hskip⟩ := encodeRuns_skip happend (encodable_left h) fuel index w
    rw [List.append_assoc, hskip, ih (encodable_right h) hrest fuel _ w₁ (by omega)]

/-- Settles O44: the runs before the bad one complete, and its own check ends ENCODE. -/
theorem encodeRefusesTokens : Obligations.EncodeRefusesTokens := by
  intro before after s hready h
  refine ⟨fun d l hbad => ?_, fun run hlong hbefore hafter => ?_⟩
  · have herror := encodeRuns_error_range h hbad after (before ++ .rep d l :: after).length 0 (s.writer []) (by simp)
    rw [Nat.zero_add] at herror
    exact ⟨_, runEncoder_error hready herror, faultEntry_raise ⟨.tokenRange, _⟩ s⟩
  · rw [List.append_assoc]
    have herror := encodeRuns_error_long h hbefore hlong hafter (before ++ (run.map Token.lit ++ after)).length 0
      (s.writer []) (by simp; omega)
    exact ⟨_, runEncoder_error hready herror, faultEntry_raise ⟨.formatLimit, _⟩ s⟩

end Sys2Proof.Proofs
end

section
/-! PROOFS. What an encoder command returns depends on nothing but its operands, ACC and CNT
(42_static_huffman_encoder.md R150, R159). -/

namespace Sys2Proof.Proofs

open Sys2Proof.Machine Sys2Proof.Laws

/-- From every clean accumulator the body of an encoder command does one thing: it puts the same bits, or raises the
same fault. -/
def Settled (body : BitWriter → Except Raise BitWriter) : Prop :=
  (∃ bits, Emits body bits) ∨ ∃ r, ∀ w, Clean w → body w = .error r

theorem Settled.bind {f g : BitWriter → Except Raise BitWriter} (hf : Settled f) (hg : Settled g) :
    Settled fun w => (f w).bind g := by
  obtain ⟨a, ha⟩ | ⟨r, hr⟩ := hf
  · obtain ⟨b, hb⟩ | ⟨r, hr⟩ := hg
    · exact .inl ⟨_, ha.bind hb⟩
    · refine .inr ⟨r, fun w hw => ?_⟩
      obtain ⟨w₁, hok, hfirst⟩ := ha w hw
      exact (congrArg (Except.bind · g) hok).trans (hr w₁ hfirst.clean)
  · exact .inr ⟨r, fun w hw => congrArg (Except.bind · g) (hr w hw)⟩

theorem settled_align : Settled fun w => .ok w.align := by
  refine .inl ⟨padding, fun w hw => ⟨_, rfl, ?_⟩⟩
  obtain ⟨hstream, hclean, -, -, hwidth, -⟩ := align_spec hw
  exact ⟨hclean, hwidth, hstream⟩

theorem settled_storedBlock (lits : List Byte) (isLast : Bool) : Settled (storedBlock lits isLast) := by
  by_cases h : lits.length ≤ 65535
  · exact .inl ⟨_, emits_storedBlock h isLast⟩
  · exact .inr ⟨_, fun w _ => storedBlock_error (Nat.lt_of_not_le h) isLast w⟩

theorem settled_staticBlock (first : Nat) (toks : List Token) (isLast : Bool) :
    Settled (staticBlock first toks isLast) := by
  cases hcheck : checkTokens first toks with
  | none => exact .inl ⟨_, emits_staticBlock ((checkTokens_none toks first).1 hcheck) first isLast⟩
  | some r => exact .inr ⟨r, fun w _ => by rw [staticBlock, hcheck]⟩

theorem settled_runBlock (literals : Bool) (first : Nat) (run : List Token) (isLast : Bool) :
    Settled (runBlock literals first run isLast) := by
  cases literals with
  | false => exact settled_staticBlock first run isLast
  | true => exact settled_storedBlock _ isLast

theorem settled_encodeRuns (fuel : Nat) : ∀ first toks, Settled (encodeRuns fuel first toks) := by
  induction fuel with
  | zero => exact fun _ _ => .inl ⟨_, emits_ok⟩
  | succ fuel ih =>
    intro first toks
    cases toks with
    | nil => exact .inl ⟨_, emits_ok⟩
    | cons t toks =>
      obtain ⟨run, rest, heq, hrun⟩ := exists_firstRun t toks
      rw [heq, funext (encodeRuns_firstRun hrun fuel first)]
      exact (settled_runBlock ..).bind (ih _ rest)

theorem exec_writesCarry {i : Instr} (hi : WritesCarry i) :
    ∃ body, Settled body ∧ ∀ s, exec i s = runEncoder s body := by
  cases hi with
  | encStored lits isLast => exact ⟨_, settled_storedBlock lits isLast, exec_encStored lits isLast⟩
  | encStatic toks isLast => exact ⟨_, settled_staticBlock 0 toks isLast, exec_encStatic toks isLast⟩
  | encode toks => exact ⟨_, settled_encodeRuns toks.length 0 toks, exec_encode toks⟩
  | finish => exact ⟨_, settled_align, exec_finish⟩

/-- Settles O17: after the same pending bits the same bits are put, and these determine the bytes, ACC and CNT, in a
register of any width. -/
theorem encoderBytesDependOnCarryAlone : Obligations.EncoderBytesDependOnCarryAlone := by
  intro i s s' t t' hi hready hready' hclean hacc hcnt h h'
  have hclean' : s'.carryClean := by rw [State.carryClean, ← hacc, ← hcnt]; exact hclean
  obtain ⟨body, ⟨bits, hbits⟩ | ⟨r, hr⟩, run⟩ := exec_writesCarry hi
  · obtain ⟨w, -, hw, hrun⟩ := runEncoder_emits hready hclean hbits
    obtain ⟨w', -, hw', hrun'⟩ := runEncoder_emits hready' hclean' hbits
    have hstream : stream w = stream w' := by
      rw [hw.stream, hw'.stream, stream, stream, writer_acc, writer_acc, writer_cnt, writer_cnt, hacc, hcnt]
      rfl
    obtain ⟨haccs, hcnts, houts⟩ := fields_of_stream_eq hw.clean hw'.clean hstream
    rw [run, hrun] at h
    rw [run, hrun'] at h'
    cases h
    cases h'
    refine .inl ⟨.bytes w.out, rfl, ?_, haccs, congrArg (BitVec.ofNat 3) hcnts⟩
    rw [houts]
    rfl
  · rw [run, runEncoder_error hready (hr _ (clean_writer hclean []))] at h
    rw [run, runEncoder_error hready' (hr _ (clean_writer hclean' []))] at h'
    cases h
    cases h'
    exact .inr ⟨r.cause.code, r.info, faultEntry_raise r s, faultEntry_raise r s'⟩

end Sys2Proof.Proofs
end

section
/-! PROOFS. FIVE_BYTE_REPEAT (42_static_huffman_encoder.md R158): its count of bits is the length of the static block of
the two halves, and it takes the least split whose count fits. -/

namespace Sys2Proof.Proofs

open Sys2Proof.Machine Sys2Proof.Laws

/-! ## The bits of the two halves -/

@[simp] theorem length_bitsMsb (n v : Nat) : (bitsMsb n v).length = n := by
  induction n with
  | zero => rfl
  | succ n ih => rw [bitsMsb, List.length_cons, ih]

/-- tokbits counts the bits of a Repeat (R152). -/
theorem length_tokenBits (d l : U32) : (tokenBits (.rep d l)).length = tokBits d.toNat l.toNat := by
  simp only [tokenBits, tokBits, symbolBits, List.length_append, length_bitsMsb, length_bitsLsb, Nat.add_assoc]

/-- A Repeat of l bytes split after a of them. -/
def halves (d : U32) (l a : Nat) : List Token := [.rep d (BitVec.ofNat 32 a), .rep d (BitVec.ofNat 32 (l - a))]

theorem toNat_halves {l : U32} {a : Nat} (hal : a + 3 ≤ l.toNat) :
    (BitVec.ofNat 32 a).toNat = a ∧ (BitVec.ofNat 32 (l.toNat - a)).toNat = l.toNat - a := by
  have := l.isLt
  exact ⟨toNat_ofNat_of_lt (by omega), toNat_ofNat_of_lt (by omega)⟩

section
variable {d l : U32} (h : legalToken (.rep d l)) {a : Nat} (ha : 3 ≤ a) (hal : a + 3 ≤ l.toNat)
include h ha hal

theorem legalToken_halves : ∀ t ∈ halves d l.toNat a, legalToken t := by
  obtain ⟨hfirst, hsecond⟩ := toNat_halves hal
  obtain ⟨-, hl258, hd⟩ := h
  intro t ht
  simp only [halves, List.mem_cons, List.not_mem_nil, or_false] at ht
  obtain rfl | rfl := ht
  · exact ⟨by omega, by omega, hd⟩
  · exact ⟨by omega, by omega, hd⟩

theorem length_blockBits_halves : (blockBits (halves d l.toNat a) false).length =
    3 + tokBits d.toNat a + tokBits d.toNat (l.toNat - a) + 7 := by
  obtain ⟨hfirst, hsecond⟩ := toNat_halves hal
  rw [blockBits_eq (legalToken_halves h ha hal), halves]
  simp only [List.flatMap_cons, List.flatMap_nil, List.append_nil, List.length_append, length_bitsLsb, length_tokenBits,
    hfirst, hsecond, List.length_replicate]
  omega

end

/-! ## The least split that fits -/

/-- A split into two legal halves whose static block has the number of bits the rule asks for. -/
def SplitFits (rule : Config.FiveByteRule) (d : U32) (l a : Nat) : Prop :=
  3 ≤ a ∧ a + 3 ≤ l ∧
    (if rule = .ceil then 33 ≤ (blockBits (halves d l a) false).length ∧ (blockBits (halves d l a) false).length ≤ 40
     else (blockBits (halves d l a) false).length = 40)

theorem fitsFive_iff (rule : Config.FiveByteRule) (n : Nat) :
    fitsFive rule n = true ↔ if rule = .ceil then 33 ≤ n ∧ n ≤ 40 else n = 40 := by
  cases rule <;> simp [fitsFive]

theorem SplitFits.length {rule : Config.FiveByteRule} {d : U32} {l a : Nat} (h : SplitFits rule d l a) :
    33 ≤ (blockBits (halves d l a) false).length ∧ (blockBits (halves d l a) false).length ≤ 40 := by
  obtain ⟨-, -, h⟩ := h
  split at h
  next => exact h
  next => omega

/-- The split's test is the one R158 scans for, in the range it scans. -/
theorem splitFits_iff {d l : U32} (h : legalToken (.rep d l)) (rule : Config.FiveByteRule) (a : Nat) :
    SplitFits rule d l.toNat a ↔ (3 ≤ a ∧ a < 3 + (l.toNat - 5)) ∧
      fitsFive rule (3 + tokBits d.toNat a + tokBits d.toNat (l.toNat - a) + 7) = true := by
  have hrange : (3 ≤ a ∧ a < 3 + (l.toNat - 5)) ↔ 3 ≤ a ∧ a + 3 ≤ l.toNat := by omega
  rw [SplitFits, hrange, ← and_assoc]
  refine and_congr_right fun ⟨ha, hal⟩ => ?_
  rw [fitsFive_iff, length_blockBits_halves h ha hal]

theorem fiveByteSplit_some {d l : U32} (h : legalToken (.rep d l)) {rule : Config.FiveByteRule} {a : Nat}
    (hsplit : fiveByteSplit rule d.toNat l.toNat = some a) :
    SplitFits rule d l.toNat a ∧ ∀ b, SplitFits rule d l.toNat b → a ≤ b := by
  obtain ⟨hfits, hmem, hleast⟩ := List.find?_range'_eq_some.1 hsplit
  refine ⟨(splitFits_iff h rule a).2 ⟨List.mem_range'_1.1 hmem, hfits⟩, fun b hb => ?_⟩
  obtain ⟨⟨hb3, -⟩, hbfits⟩ := (splitFits_iff h rule b).1 hb
  by_contra hlt
  have := hleast b hb3 (by omega)
  rw [hbfits] at this
  cases this

theorem fiveByteSplit_none {d l : U32} (h : legalToken (.rep d l)) {rule : Config.FiveByteRule}
    (hsplit : fiveByteSplit rule d.toNat l.toNat = none) (a : Nat) : ¬ SplitFits rule d l.toNat a := by
  intro ha
  obtain ⟨⟨ha3, hal⟩, hfits⟩ := (splitFits_iff h rule a).1 ha
  have := List.find?_range'_eq_none.1 hsplit a ha3 hal
  rw [hfits] at this
  cases this

/-- From an empty scratch accumulator the block of a split that fits, padded, is five bytes. -/
theorem fiveByteBlock_spec {d l : U32} (h : legalToken (.rep d l)) {rule : Config.FiveByteRule} {a : Nat}
    (ha : SplitFits rule d l.toNat a) {width : Nat} (hwidth : 32 ≤ width) :
    (fiveByteBlock width d l.toNat a).length = 5 ∧ bitsOf (fiveByteBlock width d l.toNat a) =
      blockBits (halves d l.toNat a) false ++ padding (blockBits (halves d l.toNat a) false).length := by
  have hempty : Clean ⟨width, 0, 0, []⟩ := ⟨hwidth, Nat.zero_lt_succ 7, Nat.two_pow_pos 0⟩
  have hput := putStaticBlock_emitted (legalToken_halves h ha.1 ha.2.1) false hempty
  obtain ⟨-, -, hcnt, -⟩ := align_spec hput.clean
  have hstream := hput.align.stream
  rw [stream, hcnt, staticBits, if_neg Bool.false_ne_true, List.append_nil, Nat.zero_add] at hstream
  have hbits : bitsOf (fiveByteBlock width d l.toNat a) = blockBits (halves d l.toNat a) false ++
      padding (blockBits (halves d l.toNat a) false).length := (List.append_nil _).symm.trans hstream
  refine ⟨?_, hbits⟩
  obtain ⟨h33, h40⟩ := ha.length
  have hlen := congrArg List.length hbits
  rw [length_bitsOf, List.length_append, padding, List.length_replicate] at hlen
  omega

/-! ## The statements -/

theorem exec_fiveByteRepeat_legal {d l : U32} (h : legalToken (.rep d l)) (s : State) :
    exec (.fiveByteRepeat (.rep d l)) s = runValue s (.ok (.bytes (fiveByteResult s.params d l))) := by
  have hcheck := (checkTokens_none [.rep d l] 0).2 (by simpa using h)
  show execFiveByteRepeat (.rep d l) s = _
  simp only [execFiveByteRepeat, hcheck]

theorem exec_fiveByteRepeat_illegal {tok : Token} (h : ¬ legalToken tok) (s : State) :
    exec (.fiveByteRepeat tok) s =
      runValue s (.error ⟨if Token.isLit tok then .literalInStatic else .tokenRange, infoNat 0⟩) := by
  show execFiveByteRepeat tok s = _
  have hcheck := checkTokens_offender (before := []) (after := []) (by simp) h 0
  rw [List.nil_append] at hcheck
  simp only [execFiveByteRepeat, hcheck, List.length_nil, Nat.add_zero]

/-- Settles O45: the scan finds the least split that fits, and its block is padded to five bytes. -/
theorem fiveByteRepeatSplits : Obligations.FiveByteRepeatSplits := by
  intro d l s hready h
  refine ⟨_, (exec_fiveByteRepeat_legal h s).trans (runValue_ok hready _), ?_⟩
  rw [fiveByteResult]
  cases hsplit : fiveByteSplit s.params.fiveByte d.toNat l.toNat with
  | none => exact .inr ⟨rfl, fiveByteSplit_none h hsplit⟩
  | some a =>
    obtain ⟨hfits, hleast⟩ := fiveByteSplit_some h hsplit
    obtain ⟨hlen, hbits⟩ := fiveByteBlock_spec h hfits (width := s.params.accW) (Nat.le_add_right 32 _)
    exact .inl ⟨a, hfits, hleast, hlen, hbits⟩

/-- Settles O46: the token check stops at the one token, whose index is 0. -/
theorem fiveByteRepeatRefusesTokens : Obligations.FiveByteRepeatRefusesTokens := by
  intro tok s hready h
  refine ⟨_, (exec_fiveByteRepeat_illegal h s).trans (runValue_error hready _), ?_⟩
  have hinfo : infoNat 0 = 0 := infoNat_of_lt (by decide)
  rw [hinfo]
  cases tok with
  | lit b => exact faultEntry_raise ⟨.literalInStatic, 0⟩ s
  | rep d l => exact faultEntry_raise ⟨.tokenRange, 0⟩ s

end Sys2Proof.Proofs
end

section
/-! PROOFS. CRC32 and CRC32_CONT (43_crc32.md R173 to R175). The sum of R175 and the CRC agree because both are reduced
and `rc_crc32` gives the CRC's residue byte by byte; CRC32_CONT resumes because CRC_UPDATE is a left fold. -/

namespace Sys2Proof.Proofs

open Sys2Proof.Machine Sys2Proof.Laws

/-! ## A sum of reduced polynomials -/

theorem deg_xor_lt_32 {a b : Poly} (ha : deg a < 32) (hb : deg b < 32) : deg (a ^^^ b) < 32 :=
  lt_of_le_of_lt (deg_xor_le a b) (max_lt ha hb)

/-- A sum of reduced polynomials is reduced, and its residue is the sum of theirs. -/
theorem foldl_xor_spec {α : Type} {f : α → Poly} (hf : ∀ a, deg (f a) < 32) (l : List α) :
    ∀ acc : Poly, deg acc < 32 →
      deg (l.foldl (fun p a => p ^^^ f a) acc) < 32 ∧
      residue (l.foldl (fun p a => p ^^^ f a) acc) = residue acc + (l.map fun a => residue (f a)).sum := by
  induction l with
  | nil => intro acc hacc; exact ⟨hacc, (add_zero _).symm⟩
  | cons a l ih =>
    intro acc hacc
    obtain ⟨hdeg, hres⟩ := ih _ (deg_xor_lt_32 hacc (hf a))
    refine ⟨hdeg, hres.trans ?_⟩
    rw [residue_xor, List.map_cons, List.sum_cons, add_assoc]

/-- The residue of a reduced polynomial times a power of x. -/
theorem residue_mulMod_xPowMod {a : Poly} (ha : deg a < 32) (k : Nat) :
    residue (mulMod a (xPowMod k)) = residue a * AdjoinRoot.root Gp ^ k := by
  obtain ⟨hdeg, hres⟩ := xPowMod_spec k
  rw [residue_mulMod ha hdeg, hres]

/-! ## The bytes of a sequence (43_crc32.md R175) -/

/-- REV8 of a byte as a polynomial. -/
def bytePoly (b : Byte) : Poly := (rev8 b).setWidth 64

/-- A byte in the top eight bits of a word is, in the "mathematical" order, its REV8. -/
theorem toMath_topByte (b : Byte) : toMath (b.setWidth 32 <<< 24) = bytePoly b := by
  apply BitVec.eq_of_getLsbD_eq
  intro i _
  rw [getLsbD_toMath, bytePoly, rev8, BitVec.getLsbD_setWidth, BitVec.getLsbD_reverse, BitVec.getMsbD,
    BitVec.getLsbD_shiftLeft, BitVec.getLsbD_setWidth]
  by_cases h : i < 8
  · simp [h, show i < 32 by omega, show i < 64 by omega, show ¬ 31 - i < 24 by omega,
      show 31 - i - 24 = 7 - i by omega, show 31 - i < 32 by omega, show 7 - i < 32 by omega]
  · by_cases h32 : i < 32
    · simp [h, show 31 - i < 24 by omega]
    · simp [h, h32]

theorem deg_bytePoly (b : Byte) : deg (bytePoly b) < 32 := toMath_topByte b ▸ deg_toMath _

/-- A byte in the low eight bits of the register, where R172 puts it, is REV8 of it times x^24. -/
theorem rc_byte (b : Byte) : rc (b.setWidth 32) = residue (bytePoly b) * AdjoinRoot.root Gp ^ 24 := by
  have hback : b.setWidth 32 = (b.setWidth 32 <<< 24) >>> 24 := by
    apply BitVec.eq_of_getLsbD_eq
    intro i _
    rw [BitVec.getLsbD_ushiftRight, BitVec.getLsbD_shiftLeft, BitVec.getLsbD_setWidth, BitVec.getLsbD_setWidth]
    by_cases h : i < 8
    · simp [show i < 32 by omega, show 24 + i < 32 by omega]
    · simp [BitVec.getLsbD_of_ge b i (by omega)]
  have hlow : ∀ i < 24, (b.setWidth 32 <<< 24).getLsbD i = false := fun i hi => by
    rw [BitVec.getLsbD_shiftLeft]; simp [hi]
  rw [hback, rc_shiftRight hlow, rc, toMath_topByte]

/-- The term of R175 for byte k of a sequence. -/
def byteTerm (m : List Byte) (k : Nat) : Poly :=
  mulMod (bytePoly (m.getD k 0)) (xPowMod (8 * (m.length - 1 - k) + 32))

theorem residue_byteTerm (m : List Byte) (k : Nat) :
    residue (byteTerm m k) =
      residue (bytePoly (m.getD k 0)) * AdjoinRoot.root Gp ^ (8 * (m.length - 1 - k) + 32) :=
  residue_mulMod_xPowMod (deg_bytePoly _) _

theorem residue_byteTerm_cons_zero (b : Byte) (m : List Byte) :
    residue (byteTerm (b :: m) 0) = rc (b.setWidth 32) * AdjoinRoot.root Gp ^ (8 * (m.length + 1)) := by
  rw [residue_byteTerm, rc_byte, List.getD_cons_zero, List.length_cons, mul_assoc, ← pow_add]
  congr 2
  omega

theorem residue_byteTerm_cons_succ (b : Byte) (m : List Byte) (k : Nat) :
    residue (byteTerm (b :: m) (k + 1)) = residue (byteTerm m k) := by
  rw [residue_byteTerm, residue_byteTerm, List.getD_cons_succ, List.length_cons,
    show m.length + 1 - 1 - (k + 1) = m.length - 1 - k by omega]

/-- A sequence's contribution to its CRC is the sum of its terms. -/
theorem seqValue_eq_sum (m : List Byte) :
    seqValue m = ((List.range m.length).map fun k => residue (byteTerm m k)).sum := by
  induction m with
  | nil => rfl
  | cons b m ih =>
    have htail : (fun k => residue (byteTerm (b :: m) k)) ∘ Nat.succ = fun k => residue (byteTerm m k) :=
      funext fun k => residue_byteTerm_cons_succ b m k
    rw [seqValue, ih, List.length_cons, List.range_succ_eq_map, List.map_cons, List.map_map, List.sum_cons, htail,
      residue_byteTerm_cons_zero]

/-! ## The algebraic form of CRC32 -/

/-- F of R175: the initial value and the final XOR value, all coefficients below x^32 set. -/
theorem toMath_crcInit : toMath Config.crcInit = 0xFFFFFFFF#64 := by decide +kernel

/-- REV32 of the CRC is the reduced polynomial of R175. -/
theorem toMath_crc32 (m : List Byte) :
    toMath (crc32 m) =
      (List.range m.length).foldl (fun p k => p ^^^ byteTerm m k) 0 ^^^
        mulMod 0xFFFFFFFF#64 (xPowMod (8 * m.length)) ^^^ 0xFFFFFFFF#64 := by
  have hF : deg 0xFFFFFFFF#64 < 32 := by decide
  obtain ⟨hdeg, hsum⟩ := foldl_xor_spec (f := byteTerm m) (fun k => deg_mulMod _ _)
    (List.range m.length) 0 (by decide)
  refine residue_inj (deg_toMath _) (deg_xor_lt_32 (deg_xor_lt_32 hdeg (deg_mulMod _ _)) hF) ?_
  have hinit : rc Config.crcInit = residue 0xFFFFFFFF#64 := congrArg residue toMath_crcInit
  have hxor : rc Config.crcXorOut = residue 0xFFFFFFFF#64 := hinit
  calc residue (toMath (crc32 m))
      = rc Config.crcInit * AdjoinRoot.root Gp ^ (8 * m.length) + seqValue m + rc Config.crcXorOut := rc_crc32 m
    _ = seqValue m + residue 0xFFFFFFFF#64 * AdjoinRoot.root Gp ^ (8 * m.length) + residue 0xFFFFFFFF#64 := by
        rw [hinit, hxor, add_comm (seqValue m)]
    _ = _ := by
        rw [residue_xor, residue_xor, hsum, residue_zero, zero_add, ← seqValue_eq_sum, residue_mulMod_xPowMod hF]

/-! ## Resuming (43_crc32.md R174) -/

theorem crcUpdate_append (r : U32) (a b : List Byte) : crcUpdate r (a ++ b) = crcUpdate (crcUpdate r a) b :=
  List.foldl_append

/-- The final XOR undoes itself. -/
theorem xorOut_xorOut (r : U32) : r ^^^ Config.crcXorOut ^^^ Config.crcXorOut = r := by
  rw [BitVec.xor_assoc, BitVec.xor_self, BitVec.xor_zero]

theorem crc32Cont_nil (conv : Config.CrcContConvention) (prior : U32) : crc32Cont conv [] prior = prior := by
  cases conv with
  | finalised => exact xorOut_xorOut prior
  | raw => rfl

/-- A finished CRC, complemented again, is the register it came from. -/
theorem crc32_xor_xorOut (a : List Byte) : crc32 a ^^^ Config.crcXorOut = crcUpdate Config.crcInit a :=
  xorOut_xorOut _

theorem crc32Cont_finalised_crc32 (a b : List Byte) : crc32Cont .finalised b (crc32 a) = crc32 (a ++ b) := by
  rw [crc32Cont, crc32_xor_xorOut, ← crcUpdate_append, crc32]

theorem crc32_nil : crc32 [] = 0 := by decide

theorem crc32Cont_finalised_zero (b : List Byte) : crc32Cont .finalised b 0 = crc32 b := by
  rw [← crc32_nil, crc32Cont_finalised_crc32, List.nil_append]

/-! ## The statements -/

theorem exec_crc32 (input : List Byte) (s : State) :
    exec (.crc32 input) s = runValue s (.ok (.crc (crc32 input))) := rfl

theorem exec_crc32Cont (input : List Byte) (prior : U32) (s : State) :
    exec (.crc32Cont input prior) s = runValue s (.ok (.crc (crc32Cont s.params.crcCont input prior))) := rfl

/-- Settles O47: both sides are reduced and have the residue that `rc_crc32` gives. -/
theorem crc32ReturnsTheRemainder : Obligations.Crc32ReturnsTheRemainder := by
  intro input s hready
  exact ⟨crc32 input, (exec_crc32 input s).trans (runValue_ok hready _), toMath_crc32 input⟩

/-- Settles O48: each convention's composition law, from CRC_UPDATE being a left fold. -/
theorem crc32ContResumes : Obligations.Crc32ContResumes := by
  intro b prior s hready
  refine ⟨crc32Cont s.params.crcCont b prior, ?_, ?_, ?_, ?_⟩
  · exact (exec_crc32Cont b prior s).trans (runValue_ok hready _)
  · rintro rfl
    exact crc32Cont_nil _ _
  · intro hconv
    rw [hconv]
    refine ⟨rfl, ?_, ?_⟩
    · rintro a rfl
      exact crc32Cont_finalised_crc32 a b
    · rintro rfl
      exact crc32Cont_finalised_zero b
  · intro hconv
    rw [hconv]
    refine ⟨rfl, ?_⟩
    rintro rfl
    rfl

end Sys2Proof.Proofs
end

section
/-! PROOFS. MULRAW, DIVMOD, XGCD, MINV and DIVIDE (44_gf2_poly.md R181 to R187). The exact product of two words, a number
with no bound on its width, is tied to the polynomials of Laws/Polynomial.lean by what its bits are; from there on
uniqueness is that of division by a monic polynomial and of quotients in the field modulo G. -/

namespace Sys2Proof.Proofs

open Sys2Proof.Machine Sys2Proof.Laws Polynomial

/-! ## Numbers as polynomials, without a width -/

/-- The bits of a number are the coefficients of a polynomial (00_scope.md R12). -/
def Spells (n : Nat) (p : (ZMod 2)[X]) : Prop := ∀ i, p.coeff i = if n.testBit i then 1 else 0

theorem spells_toNat (a : Poly) : Spells a.toNat (polyOf a) := coeff_polyOf a

theorem spells_zero : Spells 0 0 := fun i => by rw [coeff_zero, Nat.zero_testBit]; rfl

section
variable {n m : Nat} {p q : (ZMod 2)[X]} (hn : Spells n p) (hm : Spells m q)
include hn

theorem Spells.shiftLeft (s : Nat) : Spells (n <<< s) (p * X ^ s) := by
  intro i
  rw [coeff_mul_X_pow', Nat.testBit_shiftLeft, hn]
  by_cases hs : s ≤ i <;> simp [hs]

include hm

/-- Addition modulo 2 is the exclusive or. -/
theorem Spells.xor : Spells (n ^^^ m) (p + q) := by
  intro i
  rw [coeff_add, hn, hm, Nat.testBit_xor]
  generalize n.testBit i = x
  generalize m.testBit i = y
  revert x y
  decide

theorem Spells.eq_iff : n = m ↔ p = q := by
  constructor
  · rintro rfl
    ext i
    rw [hn, hm]
  · rintro rfl
    refine Nat.eq_of_testBit_eq fun i => ?_
    have hi := (hn i).symm.trans (hm i)
    generalize n.testBit i = x at hi ⊢
    generalize m.testBit i = y at hi ⊢
    revert x y
    decide

end

/-- The unbounded carry-less product is the product of the polynomials. -/
theorem spells_exactProduct (a b : Poly) : Spells (exactProduct a b) (polyOf a * polyOf b) := by
  have partialSum : ∀ k, Spells
      ((List.range k).foldl (fun p i => if b.getLsbD i then p ^^^ (a.toNat <<< i) else p) 0)
      (polyOf a * ∑ i ∈ Finset.range k, if b.getLsbD i then X ^ i else 0) := by
    intro k
    induction k with
    | zero => rw [Finset.range_zero, Finset.sum_empty, mul_zero]; exact spells_zero
    | succ k ih =>
      rw [List.range_succ, List.foldl_append, Finset.sum_range_succ, mul_add]
      simp only [List.foldl_cons, List.foldl_nil]
      split
      · exact ih.xor ((spells_toNat a).shiftLeft k)
      · rw [mul_zero, add_zero]; exact ih
  exact partialSum 64

theorem exactProduct_eq_iff {a b c : Poly} : exactProduct a b = c.toNat ↔ polyOf a * polyOf b = polyOf c :=
  (spells_exactProduct a b).eq_iff (spells_toNat c)

/-! ## Degrees -/

theorem getLsbD_deg {a : Poly} (ha : a ≠ 0) : a.getLsbD (deg a) = true :=
  Nat.testBit_log2 fun h => ha (BitVec.eq_of_toNat_eq h)

theorem isDegree_iff {a : Poly} {n : Nat} : IsDegree a n ↔ a ≠ 0 ∧ deg a = n := by
  constructor
  · rintro ⟨hn, hhigh⟩
    have ha : a ≠ 0 := fun h => by simp [h] at hn
    refine ⟨ha, le_antisymm ?_ ?_⟩
    · by_contra hlt
      simpa [getLsbD_deg ha] using hhigh (deg a) (not_le.1 hlt)
    · by_contra hlt
      simpa [hn] using getLsbD_eq_false_of_deg_lt (not_le.1 hlt)
  · rintro ⟨ha, rfl⟩
    exact ⟨getLsbD_deg ha, fun m hm => getLsbD_eq_false_of_deg_lt hm⟩

theorem degree_polyOf {a : Poly} (ha : a ≠ 0) : (polyOf a).degree = deg a := by
  rw [degree_eq_natDegree (polyOf_eq_zero.not.2 ha), natDegree_polyOf ha]

theorem degree_polyOf_lt_iff {r b : Poly} (hb : b ≠ 0) :
    (polyOf r).degree < (polyOf b).degree ↔ r = 0 ∨ deg r < deg b := by
  rw [degree_polyOf hb]
  by_cases hr : r = 0
  · simp [hr]
  · rw [degree_polyOf hr, Nat.cast_lt, or_iff_right hr]

/-- The remainder's bound of R182, "r is 0 or of smaller degree", as one comparison of degrees. -/
theorem isDegree_lt_iff {r b : Poly} (hb : b ≠ 0) :
    (∀ m n, IsDegree r m → IsDegree b n → m < n) ↔ (polyOf r).degree < (polyOf b).degree := by
  simp only [degree_polyOf_lt_iff hb, isDegree_iff]
  constructor
  · intro h
    by_cases hr : r = 0
    · exact .inl hr
    · exact .inr (h _ _ ⟨hr, rfl⟩ ⟨hb, rfl⟩)
  · rintro (hr | hlt) m n ⟨hr', rfl⟩ ⟨-, rfl⟩
    · exact absurd hr hr'
    · exact hlt

/-- Below degree 32 is below 2^32. -/
theorem toNat_lt_iff_deg_lt {a : Poly} : a.toNat < 2 ^ 32 ↔ deg a < 32 := by
  by_cases h : a.toNat = 0
  · simp [deg, h]
  · exact (Nat.log2_lt h).symm

/-! ## Division -/

/-- The unbounded form of a = q b + r. -/
theorem exactProduct_xor_eq_iff {q b r a : Poly} :
    exactProduct q b ^^^ r.toNat = a.toNat ↔ polyOf q * polyOf b + polyOf r = polyOf a :=
  ((spells_exactProduct q b).xor (spells_toNat r)).eq_iff (spells_toNat a)

theorem degree_divPair_lt {a b : Poly} (hb : b ≠ 0) : (polyOf (divPair a b).2).degree < (polyOf b).degree :=
  (degree_polyOf_lt_iff hb).2 (divPair_spec hb).2

/-- No other pair is quotient and remainder: division by a monic polynomial is unique. -/
theorem divPair_unique {a b q r : Poly} (hb : b ≠ 0) (h : polyOf q * polyOf b + polyOf r = polyOf a)
    (hlt : (polyOf r).degree < (polyOf b).degree) : q = (divPair a b).1 ∧ r = (divPair a b).2 := by
  have unique : ∀ q' r' : Poly, polyOf q' * polyOf b + polyOf r' = polyOf a → (polyOf r').degree < (polyOf b).degree →
      polyOf a /ₘ polyOf b = polyOf q' ∧ polyOf a %ₘ polyOf b = polyOf r' := fun q' r' h' hlt' =>
    div_modByMonic_unique _ _ (monic_polyOf hb) ⟨by rw [← h', add_comm, mul_comm], hlt'⟩
  obtain ⟨hq, hr⟩ := unique q r h hlt
  obtain ⟨hq', hr'⟩ := unique _ _ (divPair_spec hb).1 (degree_divPair_lt hb)
  exact ⟨polyOf_inj (hq.symm.trans hq'), polyOf_inj (hr.symm.trans hr')⟩

/-- A word that divides a word does so with a word as quotient. -/
theorem exists_exactProduct_of_dvd {g a : Poly} (h : polyOf g ∣ polyOf a) : ∃ u, exactProduct g u = a.toNat := by
  by_cases hg : g = 0
  · rw [polyOf_eq_zero.2 hg, zero_dvd_iff] at h
    exact ⟨0, exactProduct_eq_iff.2 (by rw [polyOf_zero, mul_zero, h])⟩
  · obtain ⟨hdiv, -⟩ := divPair_spec (a := a) hg
    rw [← hdiv] at h
    have hrem : polyOf (divPair a g).2 = 0 :=
      eq_zero_of_dvd_of_degree_lt ((dvd_add_right (dvd_mul_left _ _)).1 h) (degree_divPair_lt hg)
    exact ⟨(divPair a g).1, exactProduct_eq_iff.2 (by rw [← hdiv, hrem, add_zero, mul_comm])⟩

/-! ## The extended Euclidean recursion (R183) -/

theorem xgcdRec_zero (fuel : Nat) (a : Poly) : xgcdRec fuel a 0 = (a, 1, 0) := by
  cases fuel <;> rfl

theorem xgcdRec_succ (fuel : Nat) (a : Poly) {b : Poly} (hb : b ≠ 0) : xgcdRec (fuel + 1) a b =
    ((xgcdRec fuel b (divPair a b).2).1, (xgcdRec fuel b (divPair a b).2).2.2,
      (xgcdRec fuel b (divPair a b).2).2.1 ^^^ clmul (divPair a b).1 (xgcdRec fuel b (divPair a b).2).2.2) := by
  rw [xgcdRec, if_neg hb]

theorem deg_remainder_lt (a : Poly) {b : Poly} (hb : b ≠ 0) {fuel : Nat} (h : deg b < fuel + 1)
    (hr : (divPair a b).2 ≠ 0) : deg (divPair a b).2 < fuel :=
  ((divPair_spec hb).2.resolve_left hr).trans_le (Nat.lt_succ_iff.1 h)

/-- Calls beyond the divisor's degree change nothing. -/
theorem xgcdRec_fuel : ∀ (fuel : Nat) (a b : Poly), (b ≠ 0 → deg b < fuel) →
    xgcdRec (fuel + 1) a b = xgcdRec fuel a b := by
  intro fuel
  induction fuel with
  | zero =>
    intro a b h
    obtain rfl : b = 0 := by
      by_contra hb
      exact absurd (h hb) (Nat.not_lt_zero _)
    rw [xgcdRec_zero, xgcdRec_zero]
  | succ fuel ih =>
    intro a b h
    by_cases hb : b = 0
    · rw [hb, xgcdRec_zero, xgcdRec_zero]
    · rw [xgcdRec_succ (fuel + 1) a hb, xgcdRec_succ fuel a hb, ih b _ (deg_remainder_lt a hb (h hb))]

theorem extendedGcd_zero (a : Poly) : extendedGcd a 0 = (a, 1, 0) := xgcdRec_zero 64 a

/-- The recursion without its count of calls. -/
theorem extendedGcd_of_ne_zero (a : Poly) {b : Poly} (hb : b ≠ 0) : extendedGcd a b =
    ((extendedGcd b (divPair a b).2).1, (extendedGcd b (divPair a b).2).2.2,
      (extendedGcd b (divPair a b).2).2.1 ^^^ clmul (divPair a b).1 (extendedGcd b (divPair a b).2).2.2) := by
  have hfuel : extendedGcd b (divPair a b).2 = xgcdRec 63 b (divPair a b).2 :=
    xgcdRec_fuel 63 b _ (deg_remainder_lt a hb (deg_lt b))
  rw [hfuel]
  exact xgcdRec_succ 63 a hb

/-! ## The field modulo G -/

theorem modG_eq_zero_iff {a : Poly} : modG a = 0 ↔ residue a = 0 := by
  rw [← residue_eq_zero (modG_spec a).2, residue_modG]

/-- A product of reduced words is the reduced word whose residue is the product of theirs. -/
theorem mulMod_modG_eq_iff {v b c : Poly} (hv : deg v < 32) (hc : deg c < 32) :
    mulMod v (modG b) = c ↔ residue v * residue b = residue c := by
  rw [← residue_modG b, ← residue_mulMod hv (modG_spec b).2]
  exact ⟨congrArg residue, residue_inj (deg_mulMod _ _) hc⟩

/-- Quotients in the field are unique, G being irreducible (R180). -/
theorem residue_mul_right_cancel {u v b : Poly} (hu : deg u < 32) (hv : deg v < 32) (hb : residue b ≠ 0)
    (h : residue v * residue b = residue u * residue b) : v = u := by
  have : Fact (Irreducible Gp) := ⟨Gp_irreducible⟩
  exact residue_inj hv hu (mul_right_cancel₀ hb h)

/-- A reduced word whose product with b has the residue of c is, in the words of R186 and R187, the one word below 2^32
whose MULMOD with b mod G is c. -/
theorem unique_mulMod_modG {u b c : Poly} (hb : residue b ≠ 0) (hu : deg u < 32) (hc : deg c < 32)
    (h : residue u * residue b = residue c) :
    u.toNat < 2 ^ 32 ∧ mulMod u (modG b) = c ∧ ∀ v : Poly, v.toNat < 2 ^ 32 → mulMod v (modG b) = c → v = u := by
  refine ⟨toNat_lt_iff_deg_lt.2 hu, (mulMod_modG_eq_iff hu hc).2 h, fun v hv hmul => ?_⟩
  have hvdeg := toNat_lt_iff_deg_lt.1 hv
  exact residue_mul_right_cancel hu hvdeg hb (((mulMod_modG_eq_iff hvdeg hc).1 hmul).trans h.symm)

/-! ## The commands run -/

theorem exec_mulraw (a b : Poly) (s : State) :
    exec (.mulraw a b) s = runValue s ((multiplyRaw a b).map .poly) := rfl

theorem exec_divmod (a b : Poly) (s : State) :
    exec (.divmod a b) s = runValue s ((divideRaw a b).map fun qr => .quotRem qr.1 qr.2) := rfl

theorem exec_xgcd (a b : Poly) (s : State) : exec (.xgcd a b) s =
    runValue s (.ok (.bezout (extendedGcd a b).1 (extendedGcd a b).2.1 (extendedGcd a b).2.2)) := rfl

theorem exec_minv (a : Poly) (s : State) : exec (.minv a) s = runValue s ((modInverse a).map .poly) := rfl

theorem exec_divide (a b : Poly) (s : State) : exec (.divide a b) s = runValue s ((fieldDivide a b).map .poly) := rfl

section
variable {s : State} (hready : s.ready) {α : Type} {value : Except Raise α} (f : α → Result)
include hready

theorem runValue_map_ok {v : α} (h : value = .ok v) :
    runValue s (value.map f) = .next { s with results := s.results ++ [f v] } := by
  rw [h]
  exact runValue_ok hready _

/-- A computation that fails takes the fault it names. -/
theorem runValue_map_error {r : Raise} (h : value = .error r) :
    ∃ t, runValue s (value.map f) = .next t ∧ FaultEntry r.cause.code r.info s t := by
  rw [h]
  exact ⟨_, runValue_error hready r, faultEntry_raise r s⟩

end

/-! ## MULRAW -/

theorem multiplyRaw_overflow {a b : Poly} {m n : Nat} (ha : IsDegree a m) (hb : IsDegree b n) (h : 63 < m + n) :
    multiplyRaw a b = .error ⟨.polyOverflow, BitVec.ofNat 64 (m + n)⟩ := by
  obtain ⟨ha0, rfl⟩ := isDegree_iff.1 ha
  obtain ⟨hb0, rfl⟩ := isDegree_iff.1 hb
  have hinfo : infoNat (deg a + deg b) = BitVec.ofNat 64 (deg a + deg b) :=
    infoNat_of_lt ((Nat.add_lt_add (deg_lt a) (deg_lt b)).trans (by decide))
  rw [multiplyRaw, if_pos ⟨ha0, hb0, h⟩, hinfo]

theorem multiplyRaw_fits {a b : Poly} (h : ∀ m n, IsDegree a m → IsDegree b n → m + n ≤ 63) :
    multiplyRaw a b = .ok (clmul a b) ∧ (clmul a b).toNat = exactProduct a b := by
  have hfit : ¬ (a ≠ 0 ∧ b ≠ 0 ∧ 63 < deg a + deg b) := fun ⟨ha, hb, hlt⟩ =>
    absurd (h _ _ (isDegree_iff.2 ⟨ha, rfl⟩) (isDegree_iff.2 ⟨hb, rfl⟩)) (not_le.2 hlt)
  refine ⟨if_neg hfit, (exactProduct_eq_iff.2 (polyOf_clmul ?_).symm).symm⟩
  rw [not_and_or, not_and_or, not_not, not_not, not_lt] at hfit
  exact hfit

/-- Settles O49: the fault's test is on the sum of the degrees, and below it the loop of R181 loses no bit. -/
theorem mulrawIsTheProduct : Obligations.MulrawIsTheProduct := by
  intro a b s hready
  rw [exec_mulraw]
  refine ⟨fun m n ha hb hover => runValue_map_error hready _ (multiplyRaw_overflow ha hb hover), fun hfits => ?_⟩
  obtain ⟨hok, hproduct⟩ := multiplyRaw_fits hfits
  exact ⟨_, runValue_map_ok hready _ hok, hproduct⟩

/-! ## DIVMOD -/

/-- Settles O50: the loop's pair is a quotient and remainder, and division by a monic polynomial has one. -/
theorem divmodIsLongDivision : Obligations.DivmodIsLongDivision := by
  intro a b s hready
  rw [exec_divmod]
  refine ⟨fun hb => runValue_map_error hready _ (if_pos hb), fun hb => ?_⟩
  refine ⟨_, _, runValue_map_ok hready _ (if_neg hb), ?_, ?_, fun q' r' h hlt => ?_⟩
  · exact exactProduct_xor_eq_iff.2 (divPair_spec hb).1
  · exact (isDegree_lt_iff hb).2 (degree_divPair_lt hb)
  · exact divPair_unique hb (exactProduct_xor_eq_iff.1 h) ((isDegree_lt_iff hb).1 hlt)

/-! ## XGCD -/

/-- Settles O51: the model's count of calls is never used up. -/
theorem xgcdFollowsTheRecursion : Obligations.XgcdFollowsTheRecursion := by
  intro a b s hready
  refine ⟨(exec_xgcd a b s).trans (runValue_ok hready _), ?_, extendedGcd_of_ne_zero a⟩
  rintro rfl
  exact extendedGcd_zero a

/-- What XGCD adds to the results is its three values. -/
theorem xgcd_returned {a b g x y : Poly} {s t : State} (hready : s.ready) (h : exec (.xgcd a b) s = .next t)
    (hret : Returned [.bezout g x y] s t) : extendedGcd a b = (g, x, y) := by
  rw [exec_xgcd, runValue_ok hready] at h
  cases h
  rw [Returned, respond_results, List.append_cancel_left_eq] at hret
  injection hret with hrecord
  injection hrecord with hg hx hy
  exact Prod.ext hg (Prod.ext hx hy)

/-- Settles O52: the identity and the divisibilities of the recursion, read off the bits of the exact products. -/
theorem xgcdIsBezout : Obligations.XgcdIsBezout := by
  intro a b s t g x y hready h hret
  have hspec := extendedGcd_spec a b
  rw [xgcd_returned hready h hret] at hspec
  obtain ⟨hbezout, hga, hgb, -⟩ := hspec
  refine ⟨?_, exists_exactProduct_of_dvd hga, exists_exactProduct_of_dvd hgb⟩
  exact (((spells_exactProduct x a).xor (spells_exactProduct y b)).eq_iff (spells_toNat g)).2 hbezout

/-! ## MINV and DIVIDE -/

/-- Settles O53: the inverse of `modInverse_spec` is the one quotient of 1 by the operand. -/
theorem minvIsTheInverse : Obligations.MinvIsTheInverse := by
  intro a s hready
  rw [exec_minv, show (divPair a Config.G).2 = modG a from rfl, Ne, modG_eq_zero_iff]
  rcases modInverse_spec a with ⟨hzero, herr⟩ | ⟨hne, inv, hok, hdeg, hinv⟩
  · exact ⟨fun _ => runValue_map_error hready _ herr, fun hne => absurd hzero hne⟩
  · refine ⟨fun hzero => absurd hzero hne, fun _ => ⟨inv, runValue_map_ok hready _ hok, ?_⟩⟩
    exact unique_mulMod_modG hne hdeg (by decide) (hinv.trans residue_one.symm)

/-- Settles O54: the quotient of `fieldDivide_spec` is the only one. -/
theorem divideIsFieldDivision : Obligations.DivideIsFieldDivision := by
  intro a b s hready
  rw [exec_divide, show (divPair b Config.G).2 = modG b from rfl, show (divPair a Config.G).2 = modG a from rfl, Ne,
    modG_eq_zero_iff]
  rcases fieldDivide_spec a b with ⟨hzero, herr⟩ | ⟨hne, q, hok, hdeg, hquot⟩
  · exact ⟨fun _ => runValue_map_error hready _ herr, fun hne => absurd hzero hne⟩
  · refine ⟨fun hzero => absurd hzero hne, fun _ => ⟨q, runValue_map_ok hready _ hok, ?_⟩⟩
    exact unique_mulMod_modG hne hdeg (modG_spec a).2 (hquot.trans (residue_modG a).symm)

end Sys2Proof.Proofs
end

section
/-! PROOFS. SOLVE_RANK1 and BRUTEFORCE (45_crc_solver.md R200 to R207), and the offset check of all three solver
commands. The self-consistent CRCs are those that `validSet` names, so R207's three cases decide what both commands
return. -/

namespace Sys2Proof.Proofs

open Sys2Proof.Machine Sys2Proof.Laws

/-! ## The self-consistent CRCs (45_crc_solver.md R207) -/

section
variable {data : List Byte} {offsets : List Nat}

/-- Solving over zeroed slots or over the operand's own bytes is the same (R201). -/
theorem fillSlots_zeroSlots (c : U32) (offsets : List Nat) (data : List Byte) :
    fillSlots c offsets (zeroSlots offsets data) = fillSlots c offsets data := fillSlots_fillSlots c 0 offsets data

theorem selfConsistent_iff_has (hfit : SlotsFit data.length offsets) (c : U32) :
    SelfConsistent data offsets c ↔ ValidSet.has (validSet data offsets) c := by
  rw [← validSet_has hfit, validCandidate, fillSlots_zeroSlots, beq_iff_eq, SelfConsistent]

/-- 1 + S is reduced, so it is 0 as a word exactly when it is 0 in the field. -/
theorem residue_denominator_eq_zero (n : Nat) (offsets : List Nat) :
    residue (1 ^^^ slotSum n offsets) = 0 ↔ 1 ^^^ slotSum n offsets = 0 :=
  residue_eq_zero (deg_xor_lt_32 (by decide) (slotSum_spec n offsets).1)

theorem basePoly_eq_zero :
    basePoly offsets data = 0 ↔ rev32 (crc32 (fillSlots 0 offsets data)) = 0 := by
  rw [basePoly, toMath, zeroSlots]
  generalize rev32 (crc32 (fillSlots 0 offsets data)) = r
  constructor <;> intro h <;> bv_omega

/-- R207's first case, where SOLVE_RANK1 divides by 1 + S. -/
theorem solve_of_den_ne_zero (hden : 1 ^^^ slotSum data.length offsets ≠ 0) :
    ∃ c, validSet data offsets = .only c ∧ solveOne data offsets = .ok (fillSlots c offsets data, c) := by
  rcases fieldDivide_spec (basePoly offsets data) (1 ^^^ slotSum data.length offsets) with
    ⟨hzero, -⟩ | ⟨-, u, hok, -, -⟩
  · exact absurd ((residue_denominator_eq_zero _ _).1 hzero) hden
  · refine ⟨toImpl u, by rw [validSet, hok], ?_⟩
    rw [solveOne, hok, ← fillSlots_zeroSlots]
    rfl

/-- R207's other two cases, where it cannot. -/
theorem solve_of_den_eq_zero (hden : 1 ^^^ slotSum data.length offsets = 0) :
    validSet data offsets = (if basePoly offsets data = 0 then .every else .empty) ∧
    solveOne data offsets = .error ⟨.notInvertible, 0⟩ := by
  rcases fieldDivide_spec (basePoly offsets data) (1 ^^^ slotSum data.length offsets) with
    ⟨-, herr⟩ | ⟨hne, -⟩
  · exact ⟨by rw [validSet, herr], by rw [solveOne, herr]; rfl⟩
  · exact absurd ((residue_denominator_eq_zero _ _).2 hden) hne

end

/-- Settles O56: the three cases of R207 are those of `validSet`. -/
theorem selfConsistentCrcCount : Obligations.SelfConsistentCrcCount := by
  intro data offsets hfit
  refine ⟨fun hden => ?_, fun hden hbase c => ?_, fun hden hbase c => ?_⟩
  · obtain ⟨c, hset, -⟩ := solve_of_den_ne_zero hden
    exact ⟨c, fun c' => by rw [selfConsistent_iff_has hfit, hset]; rfl⟩
  · rw [selfConsistent_iff_has hfit, (solve_of_den_eq_zero hden).1, if_neg (basePoly_eq_zero.not.2 hbase)]
    exact id
  · rw [selfConsistent_iff_has hfit, (solve_of_den_eq_zero hden).1, if_pos (basePoly_eq_zero.2 hbase)]
    trivial

/-! ## SOLVE_RANK1 -/

theorem exec_solveRank1_of_fit {data : List Byte} {offsets : List Nat} (hfit : SlotsFit data.length offsets)
    (s : State) : exec (.solveRank1 data offsets) s =
      runValue s ((solveOne data offsets).map fun v => .solved v.1 v.2) := by
  rw [show exec (.solveRank1 data offsets) s = execSolveRank1 data offsets s from rfl, execSolveRank1,
    checkOffsets_of_fit hfit]

theorem getElem?_le32 (c : U32) : ∀ k < 4, (le32 c)[k]? = some (c.extractLsb' (8 * k) 8)
  | 0, _ | 1, _ | 2, _ | 3, _ => rfl

/-- Settles O55: the one candidate that `validSet` names is the CRC returned. -/
theorem solveRank1IsAFixedPoint : Obligations.SolveRank1IsAFixedPoint := by
  intro data offsets s hready hfit
  rw [exec_solveRank1_of_fit hfit]
  refine ⟨fun hden => ?_, fun hden => runValue_map_error hready _ (solve_of_den_eq_zero hden).2⟩
  obtain ⟨c, hset, hsolve⟩ := solve_of_den_ne_zero hden
  have honly : ∀ c', SelfConsistent data offsets c' ↔ c' = c := fun c' => by
    rw [selfConsistent_iff_has hfit, hset]; rfl
  refine ⟨fillSlots c offsets data, c, runValue_map_ok hready _ hsolve, (honly c).2 rfl, length_fillSlots _ _ _,
    fun p hp => getElem?_fillSlots_of_not_covered hp, fun o ho k hk => ?_, fun c' => (honly c').1⟩
  rw [getElem?_fillSlots_of_mem rfl hfit o ho k hk, getElem?_le32 c k hk]

/-! ## The lanes of BRUTEFORCE (45_crc_solver.md R206) -/

/-- What a lane finds is the least candidate of its sub-range that is valid. -/
theorem laneFinds_eq_some {v : ValidSet} {lanes w : Nat} {c : U32} (hw : w < lanes)
    (h : laneFinds v lanes w = some c) :
    ValidSet.has v c ∧ laneStart lanes w ≤ c.toNat ∧ c.toNat < laneStart lanes (w + 1) ∧
      ∀ c' : U32, laneStart lanes w ≤ c'.toNat → c'.toNat < c.toNat → ¬ ValidSet.has v c' := by
  unfold laneFinds at h
  cases v with
  | empty => cases h
  | only d =>
    simp only [Option.ite_none_right_eq_some, Option.some.injEq] at h
    obtain ⟨⟨hlo, hhi⟩, rfl⟩ := h
    refine ⟨rfl, hlo, hhi, fun c' _ hlt heq => ?_⟩
    rw [show c' = d from heq] at hlt
    exact lt_irrefl _ hlt
  | every =>
    simp only [Option.ite_none_right_eq_some, Option.some.injEq] at h
    obtain ⟨hlt, rfl⟩ := h
    have hfirst : (BitVec.ofNat 32 (laneStart lanes w)).toNat = laneStart lanes w := by
      rw [BitVec.toNat_ofNat]
      exact Nat.mod_eq_of_lt (hlt.trans_le (laneStart_le (by omega) (by omega)))
    rw [hfirst]
    exact ⟨trivial, le_rfl, hlt, fun c' hlo hhi => absurd hhi (not_lt.2 hlo)⟩

/-- A lane with a valid candidate in its sub-range finds one. -/
theorem laneFinds_ne_none {v : ValidSet} {lanes w : Nat} {c : U32} (hc : ValidSet.has v c)
    (hlo : laneStart lanes w ≤ c.toNat) (hhi : c.toNat < laneStart lanes (w + 1)) : laneFinds v lanes w ≠ none := by
  unfold laneFinds
  cases v with
  | empty => exact absurd hc id
  | only d =>
    obtain rfl : c = d := hc
    simp [hlo, hhi]
  | every => simp [hlo.trans_lt hhi]

/-- The sub-ranges cover all 2^32 candidates. -/
theorem exists_lane {lanes : Nat} (hlanes : 0 < lanes) (c : U32) :
    ∃ w < lanes, laneStart lanes w ≤ c.toNat ∧ c.toNat < laneStart lanes (w + 1) := by
  have hlast : c.toNat < laneStart lanes (lanes - 1 + 1) := by
    rw [Nat.sub_add_cancel hlanes, laneStart, Nat.mul_div_cancel_left _ hlanes]
    exact c.isLt
  have hex : ∃ w, c.toNat < laneStart lanes (w + 1) := ⟨_, hlast⟩
  refine ⟨Nat.find hex, (Nat.find_min' hex hlast).trans_lt (Nat.sub_lt hlanes Nat.one_pos), ?_, Nat.find_spec hex⟩
  cases hleast : Nat.find hex with
  | zero => rw [laneStart, Nat.zero_mul, Nat.zero_div]; exact Nat.zero_le _
  | succ w => exact not_lt.1 (Nat.find_min hex (hleast ▸ Nat.lt_succ_self w))

theorem mem_laneHits {v : ValidSet} {lanes : Nat} {c : U32} :
    c ∈ laneHits v lanes ↔ ∃ w < lanes, laneFinds v lanes w = some c := by
  simp [laneHits, List.mem_filterMap]

theorem laneHits_eq_nil {v : ValidSet} {lanes : Nat} (hlanes : 0 < lanes) :
    laneHits v lanes = [] ↔ ∀ c, ¬ ValidSet.has v c := by
  rw [List.eq_nil_iff_forall_not_mem]
  constructor
  · intro hnone c hc
    obtain ⟨w, hw, hlo, hhi⟩ := exists_lane hlanes c
    obtain ⟨d, hd⟩ := Option.ne_none_iff_exists'.1 (laneFinds_ne_none hc hlo hhi)
    exact hnone d (mem_laneHits.2 ⟨w, hw, hd⟩)
  · intro hnone c hc
    obtain ⟨w, hw, hfind⟩ := mem_laneHits.1 hc
    exact hnone c (laneFinds_eq_some hw hfind).1

/-- Whatever lane the free value names, RESULT is the candidate of a lane that matched, if any did. -/
theorem pickHit_cases (draw : Nat) (hits : List U32) :
    (hits = [] ∧ pickHit draw hits = none) ∨ ∃ c ∈ hits, pickHit draw hits = some c := by
  match hits with
  | [] => exact .inl ⟨rfl, rfl⟩
  | [c] => exact .inr ⟨c, List.mem_singleton_self c, rfl⟩
  | c :: d :: cs =>
    have hlt : Config.freeLane draw % (cs.length + 2) < (c :: d :: cs).length := Nat.mod_lt _ (Nat.succ_pos _)
    refine .inr ⟨_, ?_, rfl⟩
    rw [List.getD_eq_getElem _ _ hlt]
    exact List.getElem_mem _

/-! ## BRUTEFORCE -/

theorem exec_bruteforce_of_fit {data : List Byte} {offsets : List Nat} (hfit : SlotsFit data.length offsets)
    {s : State} (hready : s.ready) : exec (.bruteforce data offsets) s = .next (searchLanes data offsets s) := by
  rw [show exec (.bruteforce data offsets) s = execBruteforce data offsets s from rfl, execBruteforce,
    checkOffsets_of_fit hfit, runCommand_ready hready]

theorem lanes_pos (p : Config.Params) : 0 < p.lanes := Nat.lt_of_lt_of_le Nat.one_pos (Nat.le_add_right 1 _)

/-- Clearing FOUND before setting it leaves no trace. -/
theorem clear_then_set_found : ∀ b : BitVec 8, b &&& ~~~foundBit ||| foundBit = b ||| 0x08#8 := by decide

theorem searchLanes_of_hit {data : List Byte} {offsets : List Nat} {s : State} {c : U32}
    (h : pickHit s.draws (laneHits (validSet data offsets) s.params.lanes) = some c) :
    searchLanes data offsets s = { s with
      status := s.status ||| 0x08#8, results := s.results ++ [.searched (fillSlots c offsets data) c true],
      draws := s.draws + 1 } := by
  rw [searchLanes, h, ← clear_then_set_found, ← fillSlots_zeroSlots]
  rfl

theorem searchLanes_of_miss {data : List Byte} {offsets : List Nat} {s : State}
    (h : pickHit s.draws (laneHits (validSet data offsets) s.params.lanes) = none) :
    searchLanes data offsets s = { s with
      status := (s.status &&& 0xF7#8) ||| 0x04#8,
      results := s.results ++ [.searched (fillSlots 0 offsets data) 0 false] } := by
  rw [searchLanes, h]
  rfl

/-- Settles O58: the lane whose candidate is RESULT holds it as its least valid one. -/
theorem bruteforceFindsAValidCrc : Obligations.BruteforceFindsAValidCrc := by
  intro data offsets s hready hfit ⟨c₀, hc₀⟩
  have hsome : laneHits (validSet data offsets) s.params.lanes ≠ [] := fun hnil =>
    (laneHits_eq_nil (lanes_pos _)).1 hnil c₀ ((selfConsistent_iff_has hfit c₀).1 hc₀)
  rcases pickHit_cases s.draws (laneHits (validSet data offsets) s.params.lanes) with
    ⟨hnil, -⟩ | ⟨c, hmem, hpick⟩
  · exact absurd hnil hsome
  obtain ⟨w, hw, hfind⟩ := mem_laneHits.1 hmem
  obtain ⟨hhas, hlo, hhi, hleast⟩ := laneFinds_eq_some hw hfind
  refine ⟨c, w, _, exec_bruteforce_of_fit hfit hready, (selfConsistent_iff_has hfit c).2 hhas, hw, hlo, hhi,
    fun c' hlo' hlt' => (selfConsistent_iff_has hfit c').not.2 (hleast c' hlo' hlt'), ?_⟩
  rw [searchLanes_of_hit hpick]

/-- Settles O59: with no valid candidate no lane matches. -/
theorem bruteforceExhausts : Obligations.BruteforceExhausts := by
  intro data offsets s hready hfit hnone
  have hnil : laneHits (validSet data offsets) s.params.lanes = [] :=
    (laneHits_eq_nil (lanes_pos _)).2 fun c => (selfConsistent_iff_has hfit c).not.1 (hnone c)
  rw [exec_bruteforce_of_fit hfit hready, searchLanes_of_miss (by rw [hnil]; rfl)]

/-! ## The offset check (45_crc_solver.md R201) -/

/-- The first offending slot of one buffer is the one reported. -/
theorem checkOffsets_offender {n o : Nat} {before after : List Nat} (hfit : SlotsFit n before)
    (hbad : n < o + 4 ∨ ∃ p ∈ before.getLast?, o < p + 4) :
    checkOffsets n (before ++ o :: after) = some ⟨.badOffset, infoOffset 0 o⟩ := by
  have hfst : (before.map fun o => (o, 0)).map Prod.fst = before := by simp [Function.comp_def]
  rw [checkOffsets, List.map_append, List.map_cons, firstBadSlot_offender (hfst.symm ▸ hfit)]
  · rfl
  · intro p hp
    obtain ⟨-, -, rfl⟩ := List.mem_map.1 hp
    exact Nat.one_pos
  · intro q hq
    cases hq
  · rcases hbad with hend | ⟨p, hp, hlt⟩
    · exact .inl hend
    · refine .inr (.inl ⟨p, ?_, hlt⟩)
      rw [← List.getLast?_map, hfst, Option.or_none]
      exact hp

theorem exec_solveRank1_badOffset {data : List Byte} {offsets : List Nat} {s : State} {r : Raise} (hready : s.ready)
    (h : checkOffsets data.length offsets = some r) : exec (.solveRank1 data offsets) s = .next (raise r s) := by
  rw [show exec (.solveRank1 data offsets) s = execSolveRank1 data offsets s from rfl, execSolveRank1, h]
  exact runValue_error hready r

theorem exec_bruteforce_badOffset {data : List Byte} {offsets : List Nat} {s : State} {r : Raise} (hready : s.ready)
    (h : checkOffsets data.length offsets = some r) : exec (.bruteforce data offsets) s = .next (raise r s) := by
  rw [show exec (.bruteforce data offsets) s = execBruteforce data offsets s from rfl, execBruteforce, h]
  exact runCommand_ready hready _

theorem exec_solveSystem_badOffset {files : List FileSpec} {s : State} {r : Raise} (hready : s.ready)
    (h : checkFiles files.length 0 files = some r) : exec (.solveSystem files) s = .next (raise r s) := by
  rw [show exec (.solveSystem files) s = execSolveSystem files s from rfl, execSolveSystem, h]
  exact runValue_error hready r

/-- Settles O60: the check comes before all arithmetic, and it stops at the first offender. -/
theorem solversCheckOffsets : Obligations.SolversCheckOffsets := by
  intro s hready
  constructor
  · intro data before after o hfit hbad
    have hcheck := checkOffsets_offender (after := after) hfit hbad
    exact ⟨⟨_, exec_solveRank1_badOffset hready hcheck, faultEntry_raise ⟨.badOffset, _⟩ s⟩,
      _, exec_bruteforce_badOffset hready hcheck, faultEntry_raise ⟨.badOffset, _⟩ s⟩
  · intro fb fa f before after o j hslots hfb hfit hids hbad
    have hfirst : firstBadSlot f.data.length (fb ++ f :: fa).length none f.slots = some o := by
      rw [hslots]
      refine firstBadSlot_offender hfit hids (fun q hq => by cases hq) ?_
      rcases hbad with hend | ⟨p, hp, hlt⟩ | hid
      · exact .inl hend
      · exact .inr (.inl ⟨p.1, by rw [Option.or_none]; exact Option.mem_map_of_mem Prod.fst hp, hlt⟩)
      · exact .inr (.inr hid)
    have hcheck := checkFiles_offender (fa := fa) hfirst fb 0 hfb
    rw [Nat.zero_add] at hcheck
    exact ⟨_, exec_solveSystem_badOffset hready hcheck, faultEntry_raise ⟨.badOffset, _⟩ s⟩

end Sys2Proof.Proofs
end

section
/-! PROOFS. SOLVE_SYSTEM (45_crc_solver.md R204, R205). The CRCs of mutually embedding files are the solutions of one
linear system over the field, in which column n, the constant, has weight 1; what the elimination does to that system is
`eliminate_spec`. -/

namespace Sys2Proof.Proofs

open Sys2Proof.Machine Sys2Proof.Laws Polynomial

/-! ## The CRC of a completed file (45_crc_solver.md R200, R204) -/

/-- A write over one slot keeps two buffers equal outside the other slots. -/
theorem writeBytes_agree {c : U32} {o : Nat} {offsets : List Nat} {d d' : List Byte} (hlen : d.length = d'.length)
    (h : ∀ p, ¬ Covered (o :: offsets) p → d[p]? = d'[p]?) {p : Nat} (hp : ¬ Covered offsets p) :
    (writeBytes (le32 c) o d)[p]? = (writeBytes (le32 c) o d')[p]? := by
  rw [getElem?_writeBytes, getElem?_writeBytes, hlen, length_le32]
  split
  · rfl
  · next hout =>
    by_cases hend : p < d'.length
    · refine h p fun ⟨o', ho', hin⟩ => ?_
      rcases List.mem_cons.1 ho' with rfl | ho'
      · exact hout ⟨hin.1, hin.2, hend⟩
      · exact hp ⟨o', ho', hin⟩
    · rw [List.getElem?_eq_none (by omega), List.getElem?_eq_none (by omega)]

theorem completeFile_cons (crcs : List U32) (slot : Nat × Nat) (slots : List (Nat × Nat)) (d : List Byte) :
    completeFile crcs ⟨d, slot :: slots⟩ =
      completeFile crcs ⟨writeBytes (le32 (crcs.getD slot.2 0)) slot.1 d, slots⟩ := rfl

/-- What the slots held before does not matter (R201). -/
theorem completeFile_congr (crcs : List U32) (slots : List (Nat × Nat)) : ∀ {d d' : List Byte}, d.length = d'.length →
    (∀ p, ¬ Covered (slots.map Prod.fst) p → d[p]? = d'[p]?) →
    completeFile crcs ⟨d, slots⟩ = completeFile crcs ⟨d', slots⟩ := by
  induction slots with
  | nil => exact fun _ h => List.ext_getElem? fun p => h p fun ⟨_, ho, _⟩ => List.not_mem_nil ho
  | cons slot slots ih =>
    intro d d' hlen h
    rw [completeFile_cons, completeFile_cons]
    exact ih (by rw [length_writeBytes, length_writeBytes, hlen]) fun p hp => writeBytes_agree hlen h hp

theorem length_completeFile (crcs : List U32) (slots : List (Nat × Nat)) :
    ∀ d : List Byte, (completeFile crcs ⟨d, slots⟩).length = d.length := by
  induction slots with
  | nil => exact fun _ => rfl
  | cons slot slots ih => exact fun d => by rw [completeFile_cons, ih, length_writeBytes]

theorem zeroSlots_byte {data : List Byte} {offsets : List Nat} (hfit : SlotsFit data.length offsets) :
    ∀ o ∈ offsets, ∀ k < 4, (zeroSlots offsets data)[o + k]? = some 0 := by
  intro o ho k hk
  rw [zeroSlots, getElem?_fillSlots_of_mem rfl hfit o ho k hk, getElem?_le32 0 k hk]
  exact congrArg some BitVec.extractLsb'_zero

/-- Each slot adds its own CRC, times the power of x that its place is worth. -/
theorem seqValue_completeFile (crcs : List U32) {n : Nat} (slots : List (Nat × Nat)) : ∀ d : List Byte, d.length = n →
    SlotsFit n (slots.map Prod.fst) → (∀ o ∈ slots.map Prod.fst, ∀ k < 4, d[o + k]? = some 0) →
    seqValue (completeFile crcs ⟨d, slots⟩) = seqValue d +
      (slots.map fun p => rc (crcs.getD p.2 0) * AdjoinRoot.root Gp ^ (8 * (n - p.1))).sum := by
  induction slots with
  | nil => exact fun d _ _ _ => (add_zero _).symm
  | cons slot slots ih =>
    obtain ⟨o, j⟩ := slot
    intro d hlen hfit hzero
    simp only [List.map_cons, SlotsFit, List.pairwise_cons, List.mem_cons, forall_eq_or_imp] at hfit hzero
    obtain ⟨⟨hend, hends⟩, habove, hpairs⟩ := hfit
    have hrest := ih (writeBytes (le32 (crcs.getD j 0)) o d) (by rw [length_writeBytes, hlen]) ⟨hends, hpairs⟩ <| by
      intro o' ho' k hk
      have := habove o' ho'
      rw [getElem?_writeBytes, if_neg (by simp only [length_le32]; omega)]
      exact hzero.2 o' ho' k hk
    rw [completeFile_cons, hrest, seqValue_writeBytes_le32 _ (hlen ▸ hend) hzero.1, hlen, List.map_cons, List.sum_cons,
      add_assoc]

/-- Sorting a file's slots by the file they name. -/
theorem sum_slots_by_file {R : Type} [CommSemiring R] {n : Nat} (g h : Nat → R) (slots : List (Nat × Nat)) :
    (∀ p ∈ slots, p.2 < n) → (slots.map fun p => g p.2 * h p.1).sum =
      ∑ j ∈ Finset.range n, (((slots.filter fun p => p.2 == j).map Prod.fst).map h).sum * g j := by
  induction slots with
  | nil => intro _; simp
  | cons slot slots ih =>
    intro hids
    have hcons : ∀ j, ((((slot :: slots).filter fun p => p.2 == j).map Prod.fst).map h).sum =
        (if slot.2 = j then h slot.1 else 0) + (((slots.filter fun p => p.2 == j).map Prod.fst).map h).sum := by
      intro j
      by_cases hj : slot.2 = j <;> simp [hj]
    have hmem : slot.2 ∈ Finset.range n := Finset.mem_range.2 (hids slot List.mem_cons_self)
    simp only [hcons, add_mul, Finset.sum_add_distrib, ite_mul, zero_mul, Finset.sum_ite_eq, if_pos hmem]
    rw [List.map_cons, List.sum_cons, ih fun p hp => hids p (List.mem_cons_of_mem _ hp), mul_comm]

/-- R205's equation for a file: the CRC of the completed file, in the CRCs put into it. -/
theorem rc_crc32_completeFile (crcs : List U32) {n : Nat} {f : FileSpec}
    (hfit : SlotsFit f.data.length (f.slots.map Prod.fst)) (hids : ∀ p ∈ f.slots, p.2 < n) :
    rc (crc32 (completeFile crcs f)) = rc (crc32 (zeroSlots (f.slots.map Prod.fst) f.data)) +
      ∑ j ∈ Finset.range n,
        residue (slotSum f.data.length ((f.slots.filter fun p => p.2 == j).map Prod.fst)) * rc (crcs.getD j 0) := by
  have hlen : (zeroSlots (f.slots.map Prod.fst) f.data).length = f.data.length := length_fillSlots _ _ _
  have hzeroed : completeFile crcs f = completeFile crcs ⟨zeroSlots (f.slots.map Prod.fst) f.data, f.slots⟩ :=
    completeFile_congr crcs f.slots hlen.symm fun p hp => (getElem?_fillSlots_of_not_covered hp).symm
  have hsum := sum_slots_by_file (fun j => rc (crcs.getD j 0))
    (fun o => AdjoinRoot.root Gp ^ (8 * (f.data.length - o))) f.slots hids
  rw [hzeroed, rc_crc32, rc_crc32, length_completeFile,
    seqValue_completeFile crcs f.slots _ hlen hfit (zeroSlots_byte hfit), hsum]
  simp only [(slotSum_spec _ _).2]
  ring

/-! ## Field elements as words -/

/-- Every element of the field is the residue of a reduced polynomial. -/
theorem exists_reduced (x : AdjoinRoot Gp) : ∃ a : Poly, deg a < 32 ∧ residue a = x := by
  obtain ⟨p, rfl⟩ := AdjoinRoot.mk_surjective x
  induction p using Polynomial.induction_on' with
  | add p q hp hq =>
    obtain ⟨a, ha, hpa⟩ := hp
    obtain ⟨b, hb, hqb⟩ := hq
    exact ⟨a ^^^ b, deg_xor_lt_32 ha hb, by rw [residue_xor, hpa, hqb, map_add]⟩
  | monomial k c =>
    obtain rfl | rfl : c = 0 ∨ c = 1 := by revert c; decide
    · exact ⟨0, by decide, by rw [residue_zero, monomial_zero_right, map_zero]⟩
    · obtain ⟨hdeg, hres⟩ := xPowMod_spec k
      exact ⟨xPowMod k, hdeg, by rw [hres, monomial_one_right_eq_X_pow, map_pow, AdjoinRoot.mk_X]⟩

theorem rc_toImpl {a : Poly} (ha : deg a < 32) : rc (toImpl a) = residue a := by rw [rc, toMath_toImpl ha]

theorem exists_crc (x : AdjoinRoot Gp) : ∃ c : U32, rc c = x := by
  obtain ⟨a, ha, rfl⟩ := exists_reduced x
  exact ⟨toImpl a, rc_toImpl ha⟩

theorem exists_word (x : AdjoinRoot Gp) : ∃ u : U32, residue (u.setWidth 64) = x := by
  obtain ⟨a, ha, rfl⟩ := exists_reduced x
  have hlt := toNat_lt_iff_deg_lt.2 ha
  exact ⟨a.setWidth 32, congrArg residue (by bv_omega)⟩

theorem deg_setWidth_lt (u : U32) : deg (u.setWidth 64) < 32 :=
  toNat_lt_iff_deg_lt.1 (by rw [BitVec.toNat_setWidth]; omega)

theorem residue_setWidth_eq_zero {u : U32} : residue (u.setWidth 64) = 0 ↔ u = 0 := by
  rw [residue_eq_zero (deg_setWidth_lt u)]
  constructor <;> intro h <;> bv_omega

/-- The field has characteristic 2. -/
theorem eq_iff_add_eq_zero {x y : AdjoinRoot Gp} : x = y ↔ x + y = 0 := by
  constructor
  · rintro rfl
    exact add_self_residue x
  · intro h
    linear_combination h - add_self_residue y

theorem one_ne_zero_residue : (1 : AdjoinRoot Gp) ≠ 0 := by
  rw [← residue_one, Ne, residue_eq_zero (by decide)]
  decide

/-! ## Rows under weights -/

theorem rowValue_congr {n : Nat} {v v' : Nat → AdjoinRoot Gp} (h : ∀ j ≤ n, v j = v' j) (m : Matrix) (r : Nat) :
    rowValue n v m r = rowValue n v' m r :=
  Finset.sum_congr rfl fun j hj => by rw [h j (Nat.lt_succ_iff.1 (Finset.mem_range.1 hj))]

theorem solves_add {n : Nat} {v v' : Nat → AdjoinRoot Gp} {m : Matrix} (h : Solves n v m) (h' : Solves n v' m) :
    Solves n (fun j => v j + v' j) m := by
  intro r hr
  have hsum : rowValue n (fun j => v j + v' j) m r = rowValue n v m r + rowValue n v' m r := by
    simp only [rowValue, mul_add, Finset.sum_add_distrib]
  rw [hsum, h r hr, h' r hr, add_zero]

/-- Once the columns are unit columns, a row names its weight. -/
theorem rowValue_of_unitColumns {n : Nat} {m : Matrix} (hunit : ∀ j < n, UnitColumn n m j) (v : Nat → AdjoinRoot Gp)
    {r : Nat} (hr : r < n) : rowValue n v m r = v r + ent m r n * v n := by
  rw [rowValue, Finset.sum_range_succ, Finset.sum_congr rfl fun j hj => by rw [hunit j (Finset.mem_range.1 hj) r hr]]
  simp only [ite_mul, one_mul, zero_mul, Finset.sum_ite_eq, if_pos (Finset.mem_range.2 hr)]

section
variable {files : List FileSpec} {i : Nat} {f : FileSpec} (hf : files[i]? = some f)
include hf

theorem ent_buildMatrix {j : Nat} (hj : j < files.length) :
    ent (buildMatrix files) i j = residue (systemCoeff f i j) := by
  rw [ent, entry, (buildMatrix_spec files).2 i f hf, (buildRow_spec f).2.2.1 j hj, systemCoeff]

theorem ent_buildMatrix_constant : ent (buildMatrix files) i files.length =
    rc (crc32 (zeroSlots (f.slots.map Prod.fst) f.data)) := by
  rw [ent, entry, (buildMatrix_spec files).2 i f hf, (buildRow_spec f).2.2.2, basePoly, rc]

theorem rowValue_buildMatrix (v : Nat → AdjoinRoot Gp) : rowValue files.length v (buildMatrix files) i =
    (∑ j ∈ Finset.range files.length, residue (systemCoeff f i j) * v j) +
      rc (crc32 (zeroSlots (f.slots.map Prod.fst) f.data)) * v files.length := by
  rw [rowValue, Finset.sum_range_succ, ent_buildMatrix_constant hf]
  exact congrArg (· + _) (Finset.sum_congr rfl fun j hj => by rw [ent_buildMatrix hf (Finset.mem_range.1 hj)])

end

theorem solves_buildMatrix_iff {files : List FileSpec} {v : Nat → AdjoinRoot Gp} :
    Solves files.length v (buildMatrix files) ↔
      ∀ (i : Nat) (f : FileSpec), files[i]? = some f → rowValue files.length v (buildMatrix files) i = 0 :=
  ⟨fun h i _ hf => h i (List.getElem?_eq_some_iff.1 hf).1, fun h i hi => h i _ (List.getElem?_eq_getElem hi)⟩

/-! ## CRCs as weights (45_crc_solver.md R205) -/

/-- The weights that a list of CRCs gives the columns; that of the constant is 1. -/
noncomputable def weights (crcs : List U32) (j : Nat) : AdjoinRoot Gp :=
  if j < crcs.length then rc (crcs.getD j 0) else 1

theorem weights_of_lt {crcs : List U32} {j : Nat} (h : j < crcs.length) : weights crcs j = rc (crcs.getD j 0) :=
  if_pos h

theorem weights_length {crcs : List U32} {n : Nat} (h : crcs.length = n) : weights crcs n = 1 :=
  if_neg (not_lt.2 h.le)

/-- A file's row is zero exactly when its CRC is the one listed. -/
theorem rowValue_weights_eq_zero_iff {files : List FileSpec} (hfit : FilesFit files) {crcs : List U32}
    (hlen : crcs.length = files.length) {i : Nat} {f : FileSpec} (hf : files[i]? = some f) :
    rowValue files.length (weights crcs) (buildMatrix files) i = 0 ↔
      crcs[i]? = some (crc32 (completeFile crcs f)) := by
  obtain ⟨hslots, hids⟩ := hfit f (List.mem_of_getElem? hf)
  have hi : i < files.length := (List.getElem?_eq_some_iff.1 hf).1
  have hweights : ∀ j ∈ Finset.range files.length, residue (systemCoeff f i j) * weights crcs j =
      residue (slotSum f.data.length ((f.slots.filter fun p => p.2 == j).map Prod.fst)) * rc (crcs.getD j 0) +
        if i = j then rc (crcs.getD j 0) else 0 := by
    intro j hj
    rw [weights_of_lt (hlen.symm ▸ Finset.mem_range.1 hj), systemCoeff, residue_xor, add_mul]
    split
    · rw [residue_one, one_mul]
    · rw [residue_zero, zero_mul]
  have hrow : rowValue files.length (weights crcs) (buildMatrix files) i =
      rc (crcs.getD i 0) + rc (crc32 (completeFile crcs f)) := by
    rw [rowValue_buildMatrix hf, Finset.sum_congr rfl hweights, Finset.sum_add_distrib, Finset.sum_ite_eq,
      if_pos (Finset.mem_range.2 hi), weights_length hlen, rc_crc32_completeFile crcs hslots hids]
    ring
  have hentry : crcs[i]? = some (crcs.getD i 0) := by
    rw [List.getD_eq_getElem _ _ (hlen ▸ hi), List.getElem?_eq_getElem]
  rw [hrow, ← eq_iff_add_eq_zero, hentry, Option.some_inj]
  exact ⟨rc_inj, congrArg rc⟩

/-- The CRCs of the completed files are the solutions of the system. -/
theorem consistent_iff_solves {files : List FileSpec} (hfit : FilesFit files) (crcs : List U32) :
    Consistent files crcs ↔
      crcs.length = files.length ∧ Solves files.length (weights crcs) (buildMatrix files) := by
  rw [Consistent, solves_buildMatrix_iff]
  refine and_congr_right fun hlen => forall₃_congr fun i f hf => ?_
  exact (rowValue_weights_eq_zero_iff hfit hlen hf).symm

/-- Every solution that gives the constant weight 1 is a list of CRCs. -/
theorem exists_consistent_of_solves {files : List FileSpec} (hfit : FilesFit files) {v : Nat → AdjoinRoot Gp}
    (hone : v files.length = 1) (hsol : Solves files.length v (buildMatrix files)) :
    ∃ crcs, Consistent files crcs ∧ ∀ j < files.length, rc (crcs.getD j 0) = v j := by
  choose crc hcrc using exists_crc
  obtain ⟨crcs, hcrcs⟩ : ∃ crcs, crcs = (List.range files.length).map fun j => crc (v j) := ⟨_, rfl⟩
  have hlen : crcs.length = files.length := by rw [hcrcs, List.length_map, List.length_range]
  have hget : ∀ j < files.length, rc (crcs.getD j 0) = v j := by
    intro j hj
    rw [List.getD_eq_getElem _ _ (hlen.symm ▸ hj)]
    simp only [hcrcs, List.getElem_map, List.getElem_range, hcrc]
  have hagree : ∀ j ≤ files.length, weights crcs j = v j := by
    intro j hj
    rcases hj.lt_or_eq with hlt | rfl
    · rw [weights_of_lt (hlen.symm ▸ hlt), hget j hlt]
    · rw [weights_length hlen, hone]
  refine ⟨crcs, (consistent_iff_solves hfit crcs).2 ⟨hlen, fun r hr => ?_⟩, hget⟩
  rw [rowValue_congr hagree, hsol r hr]

/-! ## Dependent columns (60_exceptions.md R221) -/

theorem deg_systemCoeff (f : FileSpec) (i j : Nat) : deg (systemCoeff f i j) < 32 :=
  deg_xor_lt_32 (slotSum_spec _ _).1 (by split <;> decide)

/-- Multiples of columns 0 to k, as weights of all columns. -/
noncomputable def columnWeights (k : Nat) (u : Nat → U32) (j : Nat) : AdjoinRoot Gp :=
  if j ≤ k then residue ((u j).setWidth 64) else 0

theorem columnWeights_of_le {k : Nat} (u : Nat → U32) {j : Nat} (h : j ≤ k) :
    columnWeights k u j = residue ((u j).setWidth 64) := if_pos h

theorem columnWeights_of_lt {k : Nat} (u : Nat → U32) {j : Nat} (h : k < j) : columnWeights k u j = 0 :=
  if_neg (not_le.2 h)

/-- Weights that vanish above column k are multiples of columns 0 to k. -/
theorem exists_columnWeights {k : Nat} {v : Nat → AdjoinRoot Gp} (hv : ∀ j, k < j → v j = 0) :
    ∃ u, columnWeights k u = v := by
  choose word hword using exists_word
  refine ⟨fun j => word (v j), funext fun j => ?_⟩
  rcases le_or_gt j k with hj | hj
  · rw [columnWeights_of_le _ hj, hword]
  · rw [columnWeights_of_lt _ hj, hv j hj]

/-- The sum of multiples of columns 0 to k in one row, as the row's value. -/
theorem columns_sum_eq_zero_iff {files : List FileSpec} {i k : Nat} {f : FileSpec} (hf : files[i]? = some f)
    (hk : k < files.length) (u : Nat → U32) :
    (List.range (k + 1)).foldl (fun acc j => acc ^^^ mulMod (systemCoeff f i j) ((u j).setWidth 64)) 0 = 0 ↔
      rowValue files.length (columnWeights k u) (buildMatrix files) i = 0 := by
  obtain ⟨hdeg, hsum⟩ := foldl_xor_spec (f := fun j => mulMod (systemCoeff f i j) ((u j).setWidth 64))
    (fun j => deg_mulMod _ _) (List.range (k + 1)) 0 (by decide)
  have hterm : ∀ j ∈ Finset.range (k + 1), residue (mulMod (systemCoeff f i j) ((u j).setWidth 64)) =
      residue (systemCoeff f i j) * columnWeights k u j := by
    intro j hj
    rw [residue_mulMod (deg_systemCoeff f i j) (deg_setWidth_lt _),
      columnWeights_of_le u (Nat.lt_succ_iff.1 (Finset.mem_range.1 hj))]
  have hlist : ((List.range (k + 1)).map fun j => residue (mulMod (systemCoeff f i j) ((u j).setWidth 64))).sum =
      ∑ j ∈ Finset.range (k + 1), residue (mulMod (systemCoeff f i j) ((u j).setWidth 64)) := rfl
  have htail : ∑ j ∈ Finset.range (k + 1), residue (systemCoeff f i j) * columnWeights k u j =
      ∑ j ∈ Finset.range files.length, residue (systemCoeff f i j) * columnWeights k u j := by
    refine Finset.sum_subset (Finset.range_mono hk) fun j _ hj => ?_
    rw [columnWeights_of_lt u (by simpa [Nat.lt_succ_iff] using hj), mul_zero]
  rw [← residue_eq_zero hdeg, hsum, residue_zero, zero_add, hlist, Finset.sum_congr rfl hterm, htail,
    rowValue_buildMatrix hf, columnWeights_of_lt u hk, mul_zero, add_zero]

/-- Dependence of the first columns, in the field. -/
theorem columnsDependent_iff {files : List FileSpec} {k : Nat} (hk : k < files.length) : ColumnsDependent files k ↔
    ∃ v : Nat → AdjoinRoot Gp, (∃ j ≤ k, v j ≠ 0) ∧ (∀ j, k < j → v j = 0) ∧
      Solves files.length v (buildMatrix files) := by
  have hdep : ∀ u : Nat → U32, (∀ (i : Nat) (f : FileSpec), files[i]? = some f →
      (List.range (k + 1)).foldl (fun acc j => acc ^^^ mulMod (systemCoeff f i j) ((u j).setWidth 64)) 0 = 0) ↔
      Solves files.length (columnWeights k u) (buildMatrix files) := fun u => by
    rw [solves_buildMatrix_iff]
    exact forall₃_congr fun i f hf => columns_sum_eq_zero_iff hf hk u
  have hnonzero : ∀ (u : Nat → U32) {j : Nat}, j ≤ k → (u j ≠ 0 ↔ columnWeights k u j ≠ 0) := fun u j hj => by
    rw [columnWeights_of_le u hj, Ne, Ne, residue_setWidth_eq_zero]
  constructor
  · rintro ⟨u, ⟨j, hj, hne⟩, hu⟩
    exact ⟨columnWeights k u, ⟨j, hj, (hnonzero u hj).1 hne⟩, fun _ => columnWeights_of_lt u, (hdep u).1 hu⟩
  · rintro ⟨v, ⟨j, hj, hne⟩, hhigh, hv⟩
    obtain ⟨u, rfl⟩ := exists_columnWeights hhigh
    exact ⟨u, ⟨j, hj, (hnonzero u hj).2 hne⟩, (hdep u).2 hv⟩

/-! ## SOLVE_SYSTEM -/

/-- A matrix of unit columns has its solution in its last column. -/
theorem solves_iff_of_unitColumns {n : Nat} {m : Matrix} (hshape : Shape n m) (hunit : ∀ j < n, UnitColumn n m j)
    {crcs : List U32} (hlen : crcs.length = n) :
    Solves n (weights crcs) m ↔ crcs = (List.range n).map fun i => toImpl (entry m i n) := by
  have hrow : ∀ r (hr : r < n), rowValue n (weights crcs) m r = 0 ↔ crcs[r]'(hlen ▸ hr) = toImpl (entry m r n) := by
    intro r hr
    rw [rowValue_of_unitColumns hunit _ hr, weights_of_lt (hlen ▸ hr), List.getD_eq_getElem _ _ (hlen ▸ hr),
      weights_length hlen, mul_one, ← eq_iff_add_eq_zero, ent, ← rc_toImpl (hshape.low_entry hr le_rfl)]
    exact ⟨rc_inj, congrArg rc⟩
  constructor
  · intro hsol
    refine List.ext_getElem (by rw [hlen, List.length_map, List.length_range]) fun r hr _ => ?_
    rw [List.getElem_map, List.getElem_range]
    exact (hrow r (hlen ▸ hr)).1 (hsol r (hlen ▸ hr))
  · intro heq r hr
    refine (hrow r hr).2 ?_
    simp only [heq, List.getElem_map, List.getElem_range]

/-- What SOLVE_SYSTEM's arithmetic can do: it returns the one list of CRCs; or it stops at the least dependent column,
and then no list is the only one. -/
theorem solveFiles_cases {files : List FileSpec} (hfit : FilesFit files) :
    (∃ crcs, solveFiles files = .ok crcs ∧ ∀ other, Consistent files other ↔ other = crcs) ∨
    ∃ k < files.length, solveFiles files = .error ⟨.rankDeficient, infoNat k⟩ ∧ ColumnsDependent files k ∧
      (∀ j < k, ¬ ColumnsDependent files j) ∧
      ∀ crcs, Consistent files crcs → ∃ other, Consistent files other ∧ other ≠ crcs := by
  rcases eliminate_spec (buildMatrix_spec files).1 with
    ⟨m, hok, hshape, hunit, hkeep⟩ | ⟨k, hk, herr, ⟨v, hvk, hhigh, hsol⟩, hleast⟩
  · refine .inl ⟨_, by rw [solveFiles, hok]; rfl, fun other => ?_⟩
    rw [consistent_iff_solves hfit, ← hkeep]
    constructor
    · rintro ⟨hlen, hsolves⟩
      exact (solves_iff_of_unitColumns hshape hunit hlen).1 hsolves
    · intro heq
      have hlen : other.length = files.length := by rw [heq, List.length_map, List.length_range]
      exact ⟨hlen, (solves_iff_of_unitColumns hshape hunit hlen).2 heq⟩
  · refine .inr ⟨k, hk, by rw [solveFiles, herr]; rfl, ?_, fun j hj hdep => ?_, fun crcs hcons => ?_⟩
    · exact (columnsDependent_iff hk).2 ⟨v, ⟨k, le_rfl, hvk ▸ one_ne_zero_residue⟩, hhigh, hsol⟩
    · obtain ⟨v', ⟨i, -, hne⟩, hhigh', hsol'⟩ := (columnsDependent_iff (hj.trans hk)).1 hdep
      exact hne (hleast v' (fun i hi => hhigh' i (hj.trans_le hi)) hsol' i)
    · -- adding the dependence to a solution gives another
      obtain ⟨hlen, hsolves⟩ := (consistent_iff_solves hfit crcs).1 hcons
      obtain ⟨other, hother, hget⟩ := exists_consistent_of_solves hfit
        (by rw [hhigh _ hk, add_zero, weights_length hlen]) (solves_add hsolves hsol)
      refine ⟨other, hother, fun heq => one_ne_zero_residue ?_⟩
      have hcolumn := hget k hk
      rw [heq, weights_of_lt (hlen ▸ hk), hvk] at hcolumn
      exact left_eq_add.1 hcolumn

theorem exec_solveSystem_of_fit {files : List FileSpec} (hfit : FilesFit files) (s : State) :
    exec (.solveSystem files) s = runValue s ((solveFiles files).map .crcs) := by
  rw [show exec (.solveSystem files) s = execSolveSystem files s from rfl, execSolveSystem,
    (checkFiles_none files 0).2 hfit]

/-- Settles O57: the elimination ends exactly when the list of CRCs is unique. -/
theorem solveSystemSolvesTheFiles : Obligations.SolveSystemSolvesTheFiles := by
  intro files s hready hfit
  rw [exec_solveSystem_of_fit hfit]
  rcases solveFiles_cases hfit with ⟨crcs, hok, honly⟩ | ⟨k, hk, herr, hdep, hleast, hmany⟩
  · refine ⟨fun crcs' hcons _ => ?_, fun hnone => absurd ⟨crcs, (honly crcs).2 rfl, fun other => (honly other).1⟩ hnone⟩
    rw [(honly crcs').1 hcons]
    exact runValue_map_ok hready _ hok
  · refine ⟨fun crcs hcons hunique => ?_, fun _ => ?_⟩
    · obtain ⟨other, hother, hne⟩ := hmany crcs hcons
      exact absurd (hunique other hother) hne
    · obtain ⟨t, hrun, hfault⟩ := runValue_map_error hready .crcs herr
      exact ⟨k, t, hk, hdep, hleast, hrun, hfault⟩

end Sys2Proof.Proofs
end

section
/-! PROOFS. Faults and the faulted state (60_exceptions.md R221 to R227, R245): what a fault writes, what an instruction
can still do after one, and how the instance leaves the faulted state. -/

namespace Sys2Proof.Proofs

open Sys2Proof.Machine Sys2Proof.Laws

/-! ## Numbers in INFO (60_exceptions.md R221) -/

theorem infoField_of_lt {w v : Nat} (h : v < 2 ^ w) : infoField w v = BitVec.ofNat w v := if_pos h

/-- The file's index stands above the 48 bits of the offset. -/
theorem infoOffset_of_lt {file offset : Nat} (hfile : file < 2 ^ 16) (hoffset : offset < 2 ^ 48) :
    infoOffset file offset = BitVec.ofNat 64 (file * 2 ^ 48 + offset) := by
  rw [infoOffset, infoField_of_lt hfile, infoField_of_lt hoffset]
  apply BitVec.eq_of_toNat_eq
  rw [BitVec.toNat_append, BitVec.toNat_ofNat, BitVec.toNat_ofNat, BitVec.toNat_ofNat, Nat.mod_eq_of_lt hfile,
    Nat.mod_eq_of_lt hoffset, ← Nat.shiftLeft_add_eq_or_of_lt hoffset, Nat.shiftLeft_eq, Nat.mod_eq_of_lt (by omega)]

/-! ## Every instruction answers a next state -/

theorem runElement_next (s : State) (put : BitWriter → BitWriter) : ∃ t, runElement s put = .next t := by
  cases hf : s.faulted with
  | true => exact ⟨s, runElement_refused hf put⟩
  | false => exact ⟨_, runElement_live hf put⟩

/-- None of the five ways an instruction runs stops the machine. -/
theorem exec_next (i : Instr) (s : State) : ∃ t, exec i s = .next t := by
  cases runsAs s i with
  | reset hi =>
    subst hi
    cases hb : s.busy with
    | true => exact ⟨s, if_pos hb⟩
    | false => exact ⟨resetRegisters s, exec_reset_idle hb⟩
  | value _ value run => rw [run]; exact runCommand_next s _
  | encoder _ body _ run => rw [run]; exact runCommand_next s _
  | search data offsets hi => subst hi; exact runCommand_next s _
  | element _ put _ run => rw [run]; exact runElement_next s put

/-! ## The faulted state (60_exceptions.md R226) -/

/-- Of the effects an instruction can have, the faulted state leaves RESET's and the refusal. -/
theorem exec_faulted {i : Instr} {s : State} (hf : s.faulted = true) (hi : i ≠ .reset) : exec i s = .next s := by
  have hnot : ¬ s.faulted = false := by simp [hf]
  obtain ⟨t, h⟩ := exec_next i s
  cases exec_effect h with
  | refused => exact h
  | reset hreset => exact absurd hreset hi
  | fault hr => exact absurd hr.2 hnot
  | value hr => exact absurd hr.2 hnot
  | encoder hr => exact absurd hr.2 hnot
  | search hr => exact absurd hr.2 hnot
  | element hlive => exact absurd hlive hnot

theorem runIllegal_faulted {s : State} (hf : s.faulted = true) (op : Byte) : runIllegal op s = .next s :=
  runCommand_refused (.inr hf) _

/-- The mask of the host's read keeps FAULT (10_state.md R26). -/
theorem readStatus_fault (s : State) : (readStatus s).getLsbD 1 = s.faulted := by
  rw [readStatus, BitVec.getLsbD_and, State.faulted, show statusMask.getLsbD 1 = true from rfl, Bool.and_true]

/-! ## The way out of the faulted state (60_exceptions.md R227) -/

/-- Only opcode 0x00 is RESET (30_encoding.md R80). -/
theorem op_of_decodeCommand_reset {c : Command} (h : decodeCommand c = .ok .reset) : c.op = 0x00#8 := by
  unfold decodeCommand at h
  split at h
  next hop => exact BitVec.eq_of_toNat_eq hop
  all_goals cases h

/-- A request that decodes to RESET is the command of opcode 0x00: an element's bits decode to elements alone. -/
theorem request_of_decode_reset {r : Request} (h : decode r = .ok .reset) : ∃ args, r = .command ⟨0x00#8, args⟩ := by
  cases r with
  | command c =>
    obtain ⟨op, args⟩ := c
    obtain rfl : op = 0x00#8 := op_of_decodeCommand_reset h
    exact ⟨args, rfl⟩
  | element ctx bits =>
    obtain ⟨hencode, -⟩ := encodeOfDecodedElement ctx bits .reset h
    cases hencode

/-! ## The statements -/

/-- Settles O10: a read takes its register as it stands, and every way a command other than RESET runs refuses it. -/
theorem faultedStateRefusesCommands : Obligations.FaultedStateRefusesCommands := fun s =>
  ⟨rfl, rfl, rfl, fun hf =>
    ⟨fun _ _ hi => exec_faulted hf hi, runIllegal_faulted hf, (readStatus_fault s).trans hf⟩⟩

/-- Settles O12: any other thing a step can do leaves a faulted instance as it was, less the port's oldest entry. -/
theorem onlyResetLeavesTheFaultedState : Obligations.OnlyResetLeavesTheFaultedState := by
  intro s t hf h hlive
  have hstays : ∀ rest, t = { s with port := rest } → False := by
    rintro rest rfl
    exact Bool.false_ne_true (hlive.symm.trans hf)
  obtain ⟨-, ht⟩ | ⟨rest, hport, -⟩ | ⟨r, rest, i, hport, hdecode, hexec⟩ | ⟨r, rest, op, -, -, hill⟩ := step_cases h
  · exact (hstays s.port ht).elim
  · exact .inl ⟨rest, hport⟩
  · by_cases hi : i = .reset
    · subst hi
      obtain ⟨args, rfl⟩ := request_of_decode_reset hdecode
      exact .inr ⟨args, rest, hport⟩
    · rw [exec_faulted (s := { s with port := rest }) hf hi] at hexec
      cases hexec
      exact (hstays rest rfl).elim
  · rw [runIllegal_faulted (s := { s with port := rest }) hf op] at hill
    cases hill
    exact (hstays rest rfl).elim

/-- Settles O15: no way of running stops, and in the faulted state RESET alone is not refused. -/
theorem everyInstructionAnswersANextState : Obligations.EveryInstructionAnswersANextState :=
  fun i s => ⟨exec_next i s, exec_faulted⟩

/-- Settles O4: there is no entry to take. -/
theorem stepIdle : Obligations.StepIdle := by
  intro s hport
  rw [step, takePort, hport]

/-- Settles O8: the entry of R224, its four STATUS bits one by one, and the ten codes of R221. -/
theorem raiseEntersFault : Obligations.RaiseEntersFault :=
  ⟨fun r s => ⟨faultEntry_raise r s, faulted_raise r s, busy_raise r s, warned_raise r s, found_raise r s⟩,
    rfl, rfl, rfl, rfl, rfl, rfl, rfl, rfl, rfl, rfl⟩

/-- Settles O9: a number that fits its field is what the field holds. -/
theorem infoHoldsTheNumber : Obligations.InfoHoldsTheNumber :=
  ⟨fun _ => infoNat_of_lt, fun _ hfile _ hoffset => infoOffset_of_lt hfile hoffset⟩

end Sys2Proof.Proofs
end

section
/-! PROOFS. What the resets, BUSY and the instructions leave unchanged (70_reset_and_hazards.md R250 to R256): the
power-on reset in any state, the refusal while BUSY, and the frame of every instruction outside STATUS, CAUSE and INFO. -/

namespace Sys2Proof.Proofs

open Sys2Proof.Machine Sys2Proof.Laws

/-! ## The power-on reset and BUSY (70_reset_and_hazards.md R250, R255) -/

/-- The power-on reset is taken without a look at STATUS. -/
theorem step_powerOnReset {s : State} {rest : List PortEvent} (h : s.port = .powerOnReset :: rest) :
    step s = .next (powerOnReset { s with port := rest }) := by
  rw [step, takePort, h]

/-- Of the effects an instruction can have, BUSY leaves an element's bits and the refusal. -/
theorem exec_busy {i : Instr} {s : State} (hb : s.busy = true) (hi : isElement i = false) : exec i s = .next s := by
  have hnot : ¬ s.busy = false := by simp [hb]
  obtain ⟨t, h⟩ := exec_next i s
  cases exec_effect h with
  | refused => exact h
  | reset _ hidle => exact absurd hidle hnot
  | fault hr => exact absurd hr.1 hnot
  | value hr => exact absurd hr.1 hnot
  | encoder hr => exact absurd hr.1 hnot
  | search hr => exact absurd hr.1 hnot
  | element _ helement => exact absurd (helement.symm.trans hi) (by decide)

theorem runIllegal_busy {s : State} (hb : s.busy = true) (op : Byte) : runIllegal op s = .next s :=
  runCommand_refused (.inl hb) _

/-! ## Which instructions return a record (20_memory.md R59) -/

/-- The instructions that may return a record: every command but RESET (30_encoding.md R80). -/
def MayReturn (i : Instr) : Prop := isElement i = false ∧ i ≠ .reset

theorem mayReturn_of_operandsOnly {i : Instr} (hi : OperandsOnly i) : MayReturn i := by
  cases hi <;> exact ⟨rfl, nofun⟩

theorem mayReturn_of_writesCarry {i : Instr} (hi : WritesCarry i) : MayReturn i := by
  cases hi <;> exact ⟨rfl, nofun⟩

theorem mayReturn_of_value {i : Instr} (hi : OperandsOnly i ∨ i = .rdacc) : MayReturn i := by
  obtain hi | rfl := hi
  · exact mayReturn_of_operandsOnly hi
  · exact ⟨rfl, nofun⟩

theorem mayReturn_bruteforce (data : List Byte) (offsets : List Nat) : MayReturn (.bruteforce data offsets) :=
  ⟨rfl, nofun⟩

/-! ## The frame of an instruction -/

/-- The search returns one record and leaves the port and the bytes of elements alone, match or not
(45_crc_solver.md R206). -/
theorem searchLanes_returns (data : List Byte) (offsets : List Nat) (s : State) :
    (searchLanes data offsets s).port = s.port ∧ (searchLanes data offsets s).out = s.out ∧
      ∃ r, (searchLanes data offsets s).results = s.results ++ [r] := by
  cases hpick : pickHit s.draws (laneHits (validSet data offsets) s.params.lanes) with
  | some c => rw [searchLanes_of_hit hpick]; exact ⟨rfl, rfl, _, rfl⟩
  | none => rw [searchLanes_of_miss hpick]; exact ⟨rfl, rfl, _, rfl⟩

/-- No instruction writes the configuration (70_reset_and_hazards.md R252) or the port. -/
theorem exec_params_port {i : Instr} {s t : State} (h : exec i s = .next t) :
    t.params = s.params ∧ t.port = s.port := by
  cases exec_effect h with
  | refused | reset | fault | value | encoder | element => exact ⟨rfl, rfl⟩
  | search _ data offsets =>
    exact ⟨(searchLanes_frame data offsets s).1, (searchLanes_returns data offsets s).1⟩

/-- An instruction returns no record, or is one that may and returns one. -/
theorem exec_results {i : Instr} {s t : State} (h : exec i s = .next t) :
    t.results = s.results ∨ MayReturn i ∧ ∃ r, t.results = s.results ++ [r] := by
  cases exec_effect h with
  | refused | reset | fault | element => exact .inl rfl
  | value _ hi r => exact .inr ⟨mayReturn_of_value hi, r, rfl⟩
  | encoder _ hi w => exact .inr ⟨mayReturn_of_writesCarry hi, .bytes w.out, rfl⟩
  | search _ data offsets hi =>
    obtain ⟨-, -, hreturns⟩ := searchLanes_returns data offsets s
    exact .inr ⟨hi ▸ mayReturn_bruteforce data offsets, hreturns⟩

/-- A command leaves the bytes of elements run alone, whatever it does: an encoder command returns its own (log 1). -/
theorem exec_out {i : Instr} {s t : State} (hi : isElement i = false) (h : exec i s = .next t) : t.out = s.out := by
  cases exec_effect h with
  | refused | reset | fault | value | encoder => rfl
  | search _ data offsets =>
    obtain ⟨-, hout, -⟩ := searchLanes_returns data offsets s
    exact hout
  | element _ helement => exact absurd (helement.symm.trans hi) (by decide)

/-- A command that is neither RESET nor an encoder command faults or leaves ACC and CNT
(70_reset_and_hazards.md R256). -/
theorem exec_carry {i : Instr} {s t : State} (hi : isElement i = false) (hcarry : ¬ WritesCarry i) (hreset : i ≠ .reset)
    (h : exec i s = .next t) : t.faulted = true ∨ t.acc = s.acc ∧ t.cnt = s.cnt := by
  cases exec_effect h with
  | refused | value => exact .inr ⟨rfl, rfl⟩
  | reset hi' => exact absurd hi' hreset
  | fault _ r => exact .inl (faulted_raise r s)
  | encoder _ hi' => exact absurd hi' hcarry
  | search _ data offsets =>
    obtain ⟨-, hacc, hcnt, -⟩ := searchLanes_frame data offsets s
    exact .inr ⟨hacc, hcnt⟩
  | element _ helement => exact absurd (helement.symm.trans hi) (by decide)

/-! ## The statements -/

/-- Settles O14: an instruction that is an element or RESET is not one that may return. -/
theorem configurationAndPastResultsStay : Obligations.ConfigurationAndPastResultsStay := by
  intro i s t h
  obtain ⟨hparams, hport⟩ := exec_params_port h
  obtain hresults | ⟨⟨hcommand, hne⟩, hone⟩ := exec_results h
  · exact ⟨hparams, hport, .inl hresults, fun _ => hresults⟩
  · refine ⟨hparams, hport, .inr hone, ?_⟩
    rintro (helement | hreset)
    · exact absurd (helement.symm.trans hcommand) (by decide)
    · exact absurd hreset hne

/-- Settles O11: RESET tests BUSY as the other commands do, and an undefined opcode is refused with them. -/
theorem busyRefusesCommands : Obligations.BusyRefusesCommands :=
  fun _ hb => ⟨fun _ hi => exec_busy hb hi, runIllegal_busy hb⟩

/-- Settles O16: the bytes of elements stay for every command, ACC and CNT for those that run without the carry. -/
theorem accumulatorWrittenOnlyByEncoder : Obligations.AccumulatorWrittenOnlyByEncoder :=
  fun _ _ _ hi hcarry hreset h => ⟨exec_out hi h, exec_carry hi hcarry hreset h⟩

/-- Settles O6: what powerOnReset writes, after the port's oldest entry is taken. -/
theorem stepPowerOnReset : Obligations.StepPowerOnReset :=
  fun _ _ hport => step_powerOnReset hport

end Sys2Proof.Proofs
end
